-- ==== Sys2Proof/Word.lean ====
section
/-! DEFINITION. The word types of HUFF-CORE: the register word, the stream byte and the symbol. -/

namespace Sys2Proof

/-- A register word or a command word (10_state R17, 30_encoding R68). -/
abbrev Word := BitVec 32

/-- A byte of the source or of the sink (00_scope R9, BYTE_BITS). -/
abbrev Byte := BitVec 8

/-- A 9-bit symbol field (00_scope R9, SYM_BITS). The legal symbols are 0..256. -/
abbrev Sym := BitVec 9

/-- The byte offset of a register access: address bits [15:0] (20_memory R44). -/
abbrev Offset := BitVec 16

end Sys2Proof
end

