-- ==== Sys2Proof/Config.lean ====
section
/-! DEFINITION. The parameters of 00_scope R9: the fixed ones with their values, the OPEN ones and the free values
as constants without a body, so that nothing proved here rests on their values. -/

namespace Sys2Proof.Config

/-- NSYM: the symbols are 0..256 (R9). -/
def numSymbols : Nat := 257

/-- PSEUDO_EOF: the reserved pseudo-end-of-stream symbol (R9). -/
def pseudoEof : Nat := 256

/-- NODE_CAP: the entries of the node arena (R9). -/
def nodeCap : Nat := 513

/-- The constant of the ID register, the ASCII bytes HUFF (10_state R18). -/
def idValue : Word := 0x48554646#32

/-- HUFF_MAGIC, OPEN: a 32-bit constant the spec gives no value (R9, 92 D24). -/
opaque huffMagic : Word

/-- The 64-KiB page of the register window, OPEN: the platform's choice (R9, 92 D2). -/
opaque regBasePage : Nat

/-- REG_BASE: the platform's 64-KiB-aligned base of the register window (20_memory R44). -/
def regBase : Nat := 65536 * regBasePage

/-- FREE VALUE: the bits NODE[i] holds after the `resets`-th reset, before a command writes it (93 I17).
Log entry 3. -/
opaque freeNode : Nat → Nat → BitVec 94

/-- FREE VALUE: how many more bytes of the executing command the sink has taken when the `draws`-th look at it comes
(20_memory R63, 70_reset R122, 93 I19). Log entry 9. -/
opaque freeTaken : Nat → Nat

/-- FREE VALUE: where RP stands after a source is bound that is shorter than RP, so that no rule says it
(10_state R39, 20_memory R57). Log entry 10. -/
opaque freePosition : Nat → Nat

end Sys2Proof.Config
end

