-- ==== Sys2Proof/Syntax.lean ====
section
/-! DEFINITION. The 16 commands of HUFF-CORE (30_encoding R70), one constructor per row of the opcode table. -/

namespace Sys2Proof

/-- A command. Only ENC_SYM carries an operand, the 9-bit symbol field (R68, R69). -/
inductive Instr where
  | nop
  | clear
  | count
  | build
  | gencodes
  | writeMagic
  | writeTree
  | readMagic
  | readTree
  | encSym (sym : Sym)
  | encode
  | flush
  | decSym
  | decode
  | compress
  | decompress
  deriving DecidableEq, Repr

end Sys2Proof
end

