-- ==== Sys2Proof/WellFormed.lean ====
section
/-! DEFINITION. Which commands are legal as syntax: the one operand has a range (30_encoding R69, R71 (d)). -/

namespace Sys2Proof

/-- The symbol operand is one of the 257 symbols (R69). -/
def Instr.wellFormed : Instr → Bool
  | .encSym sym => sym.toNat ≤ Config.pseudoEof
  | .nop | .clear | .count | .build | .gencodes | .writeMagic | .writeTree | .readMagic | .readTree
  | .encode | .flush | .decSym | .decode | .compress | .decompress => true

end Sys2Proof
end

