-- ==== Sys2Proof/Decode.lean ====
section
/-! DEFINITION. The command word (30_encoding R68–R72): the decoder, total over all words and refusing by the
condition of R71 that a word breaks, and the encoder, written from the same map. -/

namespace Sys2Proof

/-- Why a word is illegal: the four conditions (a)–(d) of R71. -/
inductive Illegal where
  /-- R71 (a): CMD[7:0] is not an assigned opcode. -/
  | unassignedOpcode
  /-- R71 (b): CMD[31:17] ≠ 0. -/
  | reservedNonzero
  /-- R71 (c): OP ≠ ENC_SYM and CMD[16:8] ≠ 0. -/
  | symbolNonzero
  /-- R71 (d): OP = ENC_SYM and CMD[16:8] > 256. -/
  | symbolOutOfRange
  deriving DecidableEq, Repr

/-- OP, bits [7:0] (R68). -/
def fieldOp (w : Word) : BitVec 8 := w.extractLsb' 0 8

/-- SYM, bits [16:8] (R68, R69). -/
def fieldSym (w : Word) : Sym := w.extractLsb' 8 9

/-- RSVD, bits [31:17] (R68). -/
def fieldRsvd (w : Word) : BitVec 15 := w.extractLsb' 17 15

/-- The opcode of each command (R70). -/
def Instr.opcode : Instr → BitVec 8
  | .nop => 0x00#8
  | .clear => 0x01#8
  | .count => 0x10#8
  | .build => 0x20#8
  | .gencodes => 0x30#8
  | .writeMagic => 0x40#8
  | .writeTree => 0x41#8
  | .readMagic => 0x48#8
  | .readTree => 0x49#8
  | .encSym _ => 0x50#8
  | .encode => 0x51#8
  | .flush => 0x58#8
  | .decSym => 0x60#8
  | .decode => 0x61#8
  | .compress => 0x70#8
  | .decompress => 0x71#8

/-- The symbol field a command is written with: 0 for every command but ENC_SYM (R69). -/
def Instr.symField : Instr → Sym
  | .encSym sym => sym
  | .nop | .clear | .count | .build | .gencodes | .writeMagic | .writeTree | .readMagic | .readTree
  | .encode | .flush | .decSym | .decode | .compress | .decompress => 0#9

/-- The command an opcode names, given the symbol field (R70); none for the 240 reserved opcodes. -/
def commandOf (op : BitVec 8) (sym : Sym) : Option Instr :=
  if op = 0x00#8 then some .nop
  else if op = 0x01#8 then some .clear
  else if op = 0x10#8 then some .count
  else if op = 0x20#8 then some .build
  else if op = 0x30#8 then some .gencodes
  else if op = 0x40#8 then some .writeMagic
  else if op = 0x41#8 then some .writeTree
  else if op = 0x48#8 then some .readMagic
  else if op = 0x49#8 then some .readTree
  else if op = 0x50#8 then some (.encSym sym)
  else if op = 0x51#8 then some .encode
  else if op = 0x58#8 then some .flush
  else if op = 0x60#8 then some .decSym
  else if op = 0x61#8 then some .decode
  else if op = 0x70#8 then some .compress
  else if op = 0x71#8 then some .decompress
  else none

/-- Decode a command word: total over all 2^32 words (R72). -/
def decode (w : Word) : Except Illegal Instr :=
  match commandOf (fieldOp w) (fieldSym w) with
  | none => .error .unassignedOpcode
  | some i =>
    if fieldRsvd w ≠ 0#15 then .error .reservedNonzero
    else if fieldSym w ≠ i.symField then .error .symbolNonzero
    else if i.wellFormed then .ok i
    else .error .symbolOutOfRange

/-- A command word is illegal when a condition of R71 holds. -/
def isIllegal (w : Word) : Bool :=
  match decode w with
  | .ok _ => false
  | .error _ => true

/-- A command's encoding is RSVD = 0, SYM, OP, most significant first (R77). -/
def encode (i : Instr) : Word := 0#15 ++ i.symField ++ i.opcode

/-- The command read from the bits w of a table row, bit 0 the least significant bit of the one command word.
Bits at nbits and above are 0. -/
def decodeTableWord (nbits w : Nat) : Option Instr :=
  match decode (BitVec.ofNat 32 (w % 2 ^ nbits)) with
  | .ok i => some i
  | .error _ => none

end Sys2Proof
end

