-- ==== Sys2Proof/Machine/State.lean ====
section
/-! DEFINITION. The state of HUFF-CORE as plain data (10_state R15–R42), the moves of the host that the step reads,
the reasons a step can stop, and the state right after reset. -/

namespace Sys2Proof.Machine

/-! ## Memories and streams -/

/-- A memory: (address, entry) pairs, addresses strictly rising, no entry equal to what an unlisted address reads
as. FREQ and CODE are held so (10_state R34, R37); an unlisted entry reads as the reset contents. -/
abbrev Memory (α : Type) := List (Nat × α)

/-- An entry of the node arena (10_state R35). -/
structure Node where
  leaf : Bool
  sym : Sym
  w : BitVec 64
  l : BitVec 10
  r : BitVec 10
  deriving DecidableEq, Repr

/-- An entry of the code table (10_state R37); len = 0 means no codeword. -/
structure Code where
  len : BitVec 9
  val : BitVec 256
  deriving DecidableEq, Repr

/-- The source (10_state R39): the bytes SRC and the bit pointer RP. `later` is the model's own: what the source
presents after its next rewinds, if the host breaks its duty of 70_reset R125 (93 I21); empty when SRC is stable. -/
structure Source where
  bytes : List Byte
  later : List (List Byte)
  rp : Nat
  deriving DecidableEq, Repr

/-- What the sink port does: it takes a byte, or sees the snk_close pulse (20_memory R61). -/
inductive PortEvent where
  | byte (b : Byte)
  | close
  deriving DecidableEq, Repr

/-- The sink (10_state R40): OUT, the bits since the last CLEAR or reset, and everything the sink port has seen,
which is never retracted (20_memory R61). CLOSED is STATUS.SINK_CLOSED. -/
structure Sink where
  out : List Bool
  port : List PortEvent
  deriving DecidableEq, Repr

/-! ## Registers -/

/-- The command sequencer (10_state R16). In `exec` it holds CUR, the accepted command word. -/
inductive Sequencer where
  | init
  | idle
  | exec (cur : Word)
  deriving DecidableEq, Repr

/-- CTRL's stored fields (10_state R19). -/
structure Ctrl where
  doneIe : Bool
  errIe : Bool
  deriving DecidableEq, Repr

/-- STATUS but for BUSY, which the sequencer's state gives (10_state R16, R21). -/
structure Status where
  done : Bool
  err : Bool
  eofSeen : Bool
  treeValid : Bool
  treeSrc : Bool
  codesValid : Bool
  magicOk : Bool
  sinkClosed : Bool
  cmdDropped : Bool
  deriving DecidableEq, Repr

/-- IRQ_STATUS (10_state R22). -/
structure IrqStatus where
  doneIrq : Bool
  errIrq : Bool
  deriving DecidableEq, Repr

/-- ERR_CODE and ERR_INFO (10_state R23, R24). -/
structure ErrRecord where
  code : BitVec 8
  infoValid : Bool
  info : Word
  deriving DecidableEq, Repr

/-- RESULT (10_state R26). -/
structure Result where
  valid : Bool
  sym : Sym
  deriving DecidableEq, Repr

/-! ## The host's moves and the bus's answer -/

/-- The width of a bus access (20_memory R53). -/
inductive AccessSize where
  | byte
  | half
  | word
  deriving DecidableEq, Repr

/-- One move of the host (70_reset R124, 30_encoding R78). -/
inductive HostAction where
  /-- MemRead at an offset of the window, with its width and strobes (20_memory R55). -/
  | read (off : Offset) (size : AccessSize) (strb : BitVec 4)
  /-- MemWrite at an offset of the window, with its width, strobes and data (20_memory R55). -/
  | write (off : Offset) (size : AccessSize) (strb : BitVec 4) (data : Word)
  /-- Bind a source; `later` is empty for a host that keeps its duty of R125. -/
  | bindSource (bytes : List Byte) (later : List (List Byte))
  /-- Bind a fresh sink: a new collection of what the sink port is given from now on (R124). -/
  | bindSink
  /-- Take the bytes delivered so far by the sink (R78 SINK). -/
  | takeSink
  /-- Assert rst_n (70_reset R121). -/
  | pinReset
  /-- Time passes: a port may hold (20_memory R60, R61), or the sink may take bytes of the executing command. -/
  | hold
  /-- The host lets the block proceed: INIT ends, or the executing command completes. WAIT is this and the reads of
  STATUS around it (R78, `hostWait`). -/
  | run
  deriving DecidableEq, Repr

/-- The bus's answer to the last host move (20_memory R55, R59). -/
inductive Reply where
  | none
  | data (v : Word)
  | ok
  /-- BUSERR, with read data 0 (R55). -/
  | busErr
  /-- What the bound sink has been given so far. -/
  | sink (events : List PortEvent)
  deriving DecidableEq, Repr

/-! ## The state -/

/-- The whole state: every register, memory and hidden state of 10_state, the pending host moves, the bus's answer,
and what indexes the free values. -/
structure State where
  seq : Sequencer
  ctrl : Ctrl
  status : Status
  irq : IrqStatus
  err : ErrRecord
  /-- MAGIC (R25). -/
  magic : Word
  result : Result
  /-- NODE_COUNT (R27). -/
  nodeCount : BitVec 10
  /-- ROOT (R28). -/
  root : BitVec 10
  /-- LEAF_COUNT (R29). -/
  leafCount : BitVec 9
  /-- HDR_BITS (R30). -/
  hdrBits : Word
  /-- FREQ (R34), by symbol. -/
  freq : Memory Word
  /-- NODE (R35): the entries written since reset, from index 0; an entry not listed holds a free value. -/
  arena : List Node
  /-- CODE (R37), by symbol. -/
  code : Memory Code
  source : Source
  sink : Sink
  /-- The host's pending moves, next first. The model's own (log entry 1). -/
  host : List HostAction
  /-- The bus's answer to the last move. The model's own (log entry 1). -/
  reply : Reply
  /-- The bytes of the executing command the sink has taken so far, as far as time was seen to pass. The model's own
  (log entry 9). -/
  taken : Nat
  /-- How many of the port's events came before the present sink was bound (70_reset R124). The model's own
  (log entry 24). -/
  sinkFrom : Nat
  /-- How many resets there were after the first: the index of the free contents of NODE. The model's own (log entry 3). -/
  resets : Nat
  /-- How many free values were drawn: the index of the next. The model's own (log entries 9, 10). -/
  draws : Nat
  deriving DecidableEq, Repr

/-! ## Errors of commands -/

/-- The error names of 60_exceptions R111. -/
inductive ErrorKind where
  | badMagic
  | malformedHeader
  | truncatedStream
  | illegalCommand
  | sequence
  | countOverflow
  | badFreq
  | noCodeword
  | hdrCapacity
  | hdrBadSymbol
  | degenerateTree
  deriving DecidableEq, Repr

/-- `raise E(info)` (00_scope R14); info is none for `-`. -/
structure Raise where
  kind : ErrorKind
  info : Option Word
  deriving DecidableEq, Repr

/-- How a command's body ends: it reaches its end, it raises in the state it has reached (60_exceptions R113), or its
walk of a malformed arena never ends. -/
inductive Run where
  | ok (s : State)
  | raise (e : Raise) (s : State)
  | diverge
  deriving DecidableEq, Repr

/-! ## Why a step stops -/

/-- The faults. None is a command's error or a bus error: those are next states. -/
inductive Fault where
  /-- Raised by `bindSource` while BUSY = 1: a host that breaks its duty has no move in the model (92 D39, R78).
  Safe. -/
  | sourceBoundWhileBusy
  /-- Raised by `bindSource` of a source with 2^64 bits or more, which 20_memory R43 excludes. Safe. -/
  | sourceTooLong
  /-- Raised by GENCODES, WRITE_TREE and COMPRESS when the walk from ROOT meets a cycle, so that the pseudocode
  never ends; the invariant of 10_state R36 excludes it. Safe. -/
  | treeWalkDiverges
  deriving DecidableEq, Repr

/-- The refusals. -/
inductive Refusal where
  /-- Raised by an arm of exec whose instruction has no meaning yet. Safe. -/
  | notModelled (mnemonic : String)
  deriving DecidableEq, Repr

/-! ## Reset -/

/-- Right after reset (70_reset R121, 10_state R17, R42): the sequencer is in INIT, so STATUS reads 1, and everything
else has its reset value. No source is bound and no host move is pending (log entries 1, 4, 6). -/
def State.reset : State where
  seq := .init
  ctrl := ⟨false, false⟩
  status := ⟨false, false, false, false, false, false, false, false, false⟩
  irq := ⟨false, false⟩
  err := ⟨0#8, false, 0#32⟩
  magic := Config.huffMagic
  result := ⟨false, 0#9⟩
  nodeCount := 0#10
  root := 0#10
  leafCount := 0#9
  hdrBits := 0#32
  freq := []
  arena := []
  code := []
  source := ⟨[], [], 0⟩
  sink := ⟨[], []⟩
  host := []
  reply := .none
  taken := 0
  sinkFrom := 0
  resets := 0
  draws := 0

end Sys2Proof.Machine
end

