-- ==== Sys2Proof/Machine/Operands.lean ====
section
/-! DEFINITION. Bit strings (00_scope R11), the bit and byte order of the streams (20_memory R50), and the one
operand, the symbol (30_encoding R69). -/

namespace Sys2Proof.Machine

/-- `bin_k(v)`: the k-bit string of v, most significant bit first (R11). -/
def binOf : Nat → Nat → List Bool
  | 0, _ => []
  | k + 1, v => v.testBit k :: binOf k v

/-- The value of a bit string whose first bit is the most significant (R45). -/
def natOfBits (bits : List Bool) : Nat :=
  bits.foldl (fun acc b => 2 * acc + b.toNat) 0

/-- SRCbit(p): bit 7 − (p mod 8) of byte ⌊p/8⌋ (10_state R39). -/
def srcBit (bytes : List Byte) (p : Nat) : Bool :=
  match bytes[p / 8]? with
  | some b => b.toNat.testBit (7 - p % 8)
  | none => false

/-- All bits of a byte sequence in stream order (R39, R50). -/
def bitsOfBytes (bytes : List Byte) : List Bool :=
  bytes.flatMap (fun b => binOf 8 b.toNat)

/-- The byte whose bit 7 is the first of eight stream bits (20_memory R47). -/
def byteOfBits (bits : List Bool) : Byte := BitVec.ofNat 8 (natOfBits bits)

/-- The address of a symbol's entry in FREQ and CODE (10_state R34, R37). -/
def symAddr (sym : Sym) : Nat := sym.toNat

/-- A codeword as a bit string: `bin_len(val[len−1:0])` (10_state R37). -/
def Code.bits (c : Code) : List Bool := binOf c.len.toNat c.val.toNat

/-- A symbol as the ERR_INFO word of an error that names one (60_exceptions R111). -/
def infoOfSym (sym : Nat) : Word := BitVec.ofNat 32 sym

end Sys2Proof.Machine
end

