-- ==== Sys2Proof/Machine/Streams.lean ====
section
/-! DEFINITION. The four stream primitives: ReadBits and Rewind on the source, WriteBits and SinkFlush on the sink
(20_memory R45–R48). -/

namespace Sys2Proof.Machine

/-- The number of bits of the source, 8·|SRC| (10_state R39). -/
def Source.size (src : Source) : Nat := 8 * src.bytes.length

/-- The bits from RP to the end of the source, in stream order. -/
def Source.rest (src : Source) : List Bool := (bitsOfBytes src.bytes).drop src.rp

/-- ReadBits(k): the k-bit value at RP, or none for EOI, which consumes what is left (R45). -/
def Source.readBits (k : Nat) (src : Source) : Option Nat × Source :=
  if src.rp + k ≤ src.size then
    (some (natOfBits ((List.range k).map (fun j => srcBit src.bytes (src.rp + j)))), { src with rp := src.rp + k })
  else
    (none, { src with rp := src.size })

/-- Rewind(): RP ← 0 (R46). A host that broke its duty of 70_reset R125 presents its next bytes (93 I21). -/
def Source.rewind (src : Source) : Source :=
  match src.later with
  | [] => { src with rp := 0 }
  | bytes :: later => { bytes := bytes, later := later, rp := 0 }

/-- Append one bit to OUT; an eighth bit delivers its byte to the sink port (R47). -/
def Sink.push (snk : Sink) (b : Bool) : Sink :=
  let out := snk.out ++ [b]
  if out.length % 8 = 0 then
    { out := out, port := snk.port ++ [.byte (byteOfBits (out.drop (out.length - 8)))] }
  else
    { snk with out := out }

/-- Append a bit string to OUT, first bit first (R47). -/
def Sink.append (snk : Sink) (bits : List Bool) : Sink := bits.foldl Sink.push snk

/-- WriteBits(k, v): append `bin_k(v)` (R47). -/
def Sink.writeBits (k v : Nat) (snk : Sink) : Sink := snk.append (binOf k v)

/-- The number of zero bits that fill OUT to a byte boundary, 0..7 (R48). -/
def Sink.padLength (snk : Sink) : Nat := (8 - snk.out.length % 8) % 8

/-- The padding and closing of SinkFlush: zero bits to a byte boundary, then the snk_close pulse (R48). -/
def Sink.close (snk : Sink) : Sink :=
  let padded := snk.append (List.replicate snk.padLength false)
  { padded with port := padded.port ++ [.close] }

/-- SinkFlush(): nothing on a closed sink, else pad, close and set CLOSED (R48). -/
def State.sinkFlush (s : State) : State :=
  if s.status.sinkClosed then s
  else { s with sink := s.sink.close, status := { s.status with sinkClosed := true } }

/-- CLEAR and reset set OUT to empty; ACC is lost without being delivered (R47). -/
def Sink.reopen (snk : Sink) : Sink := { snk with out := [] }

/-- ACC: the 0 to 7 bits of OUT the sink port has not been given (10_state R40). -/
def Sink.acc (snk : Sink) : List Bool := snk.out.drop (snk.out.length / 8 * 8)

/-- IN_POS = RP, a 64-bit count (10_state R31). -/
def State.inPos (s : State) : BitVec 64 := BitVec.ofNat 64 s.source.rp

/-- OUT_CNT: the 64-bit count of the bits of OUT (10_state R32, R40). -/
def State.outCnt (s : State) : BitVec 64 := BitVec.ofNat 64 s.sink.out.length

end Sys2Proof.Machine
end

