-- ==== Sys2Proof/Machine/Flags.lean ====
section
/-! DEFINITION. The flags: the STATUS word and when its bits change (10_state R21), the preconditions on them
(40_control R81), the interrupt flags and line (10_state R22, 60_exceptions R117), and the error record's codes
(60_exceptions R111). -/

namespace Sys2Proof.Machine

/-- STATUS.BUSY: 1 exactly when the sequencer is not IDLE (10_state R16, R21). -/
def State.busy (s : State) : Bool :=
  match s.seq with
  | .idle => false
  | .init => true
  | .exec _ => true

/-- The value of a flag at a bit position of a register word. -/
def flagAt (b : Bool) (pos : Nat) : Word := if b then 1#32 <<< pos else 0#32

/-- The STATUS word; bits [31:10] read 0 (R21). -/
def State.statusWord (s : State) : Word :=
  flagAt s.busy 0 ||| flagAt s.status.done 1 ||| flagAt s.status.err 2 ||| flagAt s.status.eofSeen 3
    ||| flagAt s.status.treeValid 4 ||| flagAt s.status.treeSrc 5 ||| flagAt s.status.codesValid 6
    ||| flagAt s.status.magicOk 7 ||| flagAt s.status.sinkClosed 8 ||| flagAt s.status.cmdDropped 9

/-- The CTRL word; SRST and the reserved bits read 0 (R19). -/
def Ctrl.word (c : Ctrl) : Word := flagAt c.doneIe 1 ||| flagAt c.errIe 2

/-- CTRL after a write with SRST = 0 (R19). -/
def Ctrl.ofWord (v : Word) : Ctrl := ⟨v.getLsbD 1, v.getLsbD 2⟩

/-- The IRQ_STATUS word (R22). -/
def IrqStatus.word (q : IrqStatus) : Word := flagAt q.doneIrq 0 ||| flagAt q.errIrq 1

/-- IRQ_STATUS after a write: a 1 clears the bit, a 0 leaves it (R22). -/
def IrqStatus.writeOneToClear (q : IrqStatus) (v : Word) : IrqStatus :=
  ⟨q.doneIrq && !v.getLsbD 0, q.errIrq && !v.getLsbD 1⟩

/-- The irq output (60_exceptions R117). -/
def State.irqLine (s : State) : Bool := (s.irq.doneIrq && s.ctrl.doneIe) || (s.irq.errIrq && s.ctrl.errIe)

/-- The ERR_CODE word, INFO_VALID above CODE (10_state R23). -/
def ErrRecord.codeWord (e : ErrRecord) : Word := e.code.setWidth 32 ||| flagAt e.infoValid 8

/-- The RESULT word (10_state R26). -/
def Result.word (r : Result) : Word := r.sym.setWidth 32 ||| flagAt r.valid 31

/-- The error codes (60_exceptions R111). -/
def ErrorKind.code : ErrorKind → BitVec 8
  | .badMagic => 0x01#8
  | .malformedHeader => 0x02#8
  | .truncatedStream => 0x03#8
  | .illegalCommand => 0x10#8
  | .sequence => 0x11#8
  | .countOverflow => 0x20#8
  | .badFreq => 0x21#8
  | .noCodeword => 0x22#8
  | .hdrCapacity => 0x30#8
  | .hdrBadSymbol => 0x31#8
  | .degenerateTree => 0x32#8

/-- ERR_CODE and ERR_INFO for `raise E(info)` (60_exceptions R112). -/
def Raise.record (e : Raise) : ErrRecord :=
  match e.info with
  | some v => ⟨e.kind.code, true, v⟩
  | none => ⟨e.kind.code, false, 0#32⟩

/-- The record of no error (60_exceptions R111, code 0x00). -/
def ErrRecord.clear : ErrRecord := ⟨0#8, false, 0#32⟩

/-- Pre(OP) (40_control R81). -/
def pre (i : Instr) (st : Status) : Bool :=
  match i with
  | .nop | .clear | .count | .build | .readMagic | .readTree | .flush => true
  | .gencodes => st.treeValid
  | .writeMagic | .compress | .decompress => !st.sinkClosed
  | .writeTree | .decSym | .decode => st.treeValid && !st.sinkClosed
  | .encSym _ | .encode => st.codesValid && !st.sinkClosed

/-- STATUS as `Complete()` leaves it (40_control R82). -/
def Status.completed (st : Status) : Status := { st with done := true }

/-- STATUS as the error entry leaves it (60_exceptions R112). -/
def Status.failed (st : Status) : Status := { st with err := true, done := false }

/-- STATUS as CLEAR's commit leaves it: every datapath flag and ERR 0, DONE and CMD_DROPPED as they were
(40_control R85). -/
def Status.cleared (st : Status) : Status :=
  { st with err := false, eofSeen := false, treeValid := false, treeSrc := false, codesValid := false,
            magicOk := false, sinkClosed := false }

/-- At start of BUILD: TREE_VALID and CODES_VALID 0 (42_build R89). -/
def Status.treeDropped (st : Status) : Status := { st with treeValid := false, codesValid := false }

/-- At start of READ_TREE: TREE_VALID, CODES_VALID and EOF_SEEN 0 (44_header R97). -/
def Status.treeReadStart (st : Status) : Status := { st with treeValid := false, codesValid := false, eofSeen := false }

/-- A tree is in the arena; TREE_SRC says who made it, 0 for BUILD and 1 for READ_TREE (10_state R21). -/
def Status.treeMade (st : Status) (byReadTree : Bool) : Status := { st with treeValid := true, treeSrc := byReadTree }

/-- STATUS after OfferCommand accepts v: DONE 0, and CMD_DROPPED 0 if v is CLEAR (40_control R79). -/
def Status.accepted (st : Status) (v : Word) : Status :=
  { st with done := false, cmdDropped := if v = 0x00000001#32 then false else st.cmdDropped }

end Sys2Proof.Machine
end

