-- ==== Sys2Proof/Machine/Ops.lean ====
section
/-! DEFINITION. The named operations over the memories, the error entry and the return from it, and the shared frame
of every command: its checks, its completion (40_control R80–R82, 60_exceptions R112, R115). -/

namespace Sys2Proof.Machine

/-! ## Memories -/

/-- Read an entry; an unlisted one reads d. -/
def Memory.read {α : Type} (d : α) : Memory α → Nat → α
  | [], _ => d
  | (k, v) :: m, a => if a = k then v else Memory.read d m a

/-- Write an entry, keeping the canonical form: the address in its place, and no entry that holds d. -/
def Memory.write {α : Type} [DecidableEq α] (d : α) : Memory α → Nat → α → Memory α
  | [], a, v => if v = d then [] else [(a, v)]
  | (k, x) :: m, a, v =>
    if a < k then (if v = d then (k, x) :: m else (a, v) :: (k, x) :: m)
    else if a = k then (if v = d then m else (a, v) :: m)
    else (k, x) :: Memory.write d m a v

/-- The canonical form: addresses strictly rising, no entry equal to what an unlisted address reads as. -/
abbrev Memory.wf {α : Type} [DecidableEq α] (d : α) (m : Memory α) : Prop :=
  m.Pairwise (fun x y => x.1 < y.1) ∧ ∀ x ∈ m, x.2 ≠ d

/-- The code-table entry of a symbol with no codeword (10_state R37). -/
def Code.unset : Code := ⟨0#9, 0#256⟩

/-- FREQ[s] (10_state R34). -/
def freqAt (m : Memory Word) (s : Nat) : Word := Memory.read 0#32 m s

/-- FREQ[s] ← v (10_state R34). -/
def freqSet (m : Memory Word) (s : Nat) (v : Word) : Memory Word := Memory.write 0#32 m s v

/-- CODE[s] (10_state R37). -/
def codeAt (m : Memory Code) (s : Nat) : Code := Memory.read Code.unset m s

/-- CODE[s] ← c (10_state R37). -/
def codeSet (m : Memory Code) (s : Nat) (c : Code) : Memory Code := Memory.write Code.unset m s c

/-- A node from the 94 bits of a free value (log entry 3). -/
def Node.ofBits (b : BitVec 94) : Node :=
  ⟨b.getLsbD 0, b.extractLsb' 1 9, b.extractLsb' 10 64, b.extractLsb' 74 10, b.extractLsb' 84 10⟩

/-- NODE[i] (10_state R35): what was written there since reset, else the free value of log entry 3. -/
def State.node (s : State) (i : Nat) : Node :=
  match s.arena[i]? with
  | some n => n
  | none => Node.ofBits (Config.freeNode s.resets i)

/-- The arena after entries 0, 1, … have been written with new nodes: the entries above keep what they held (R35). -/
def arenaWrite (new old : List Node) : List Node := new ++ old.drop new.length

/-- `leaf(sym, w)` (42_build R89). -/
def Node.mkLeaf (sym : Sym) (w : BitVec 64) : Node := ⟨true, sym, w, 0#10, 0#10⟩

/-- `internal(w, l, r)` (42_build R89, 44_header R97). -/
def Node.mkInternal (w : BitVec 64) (l r : Nat) : Node := ⟨false, 0#9, w, BitVec.ofNat 10 l, BitVec.ofNat 10 r⟩

/-! ## Completion and error -/

/-- `Complete()`: DONE, DONE_IRQ, and the sequencer back to IDLE (40_control R82). -/
def complete (s : State) : State :=
  { s with status := s.status.completed, irq := { s.irq with doneIrq := true }, seq := .idle }

/-- The error entry: record the error, set ERR and ERR_IRQ, clear DONE, and back to IDLE (60_exceptions R112). -/
def raiseError (e : Raise) (s : State) : State :=
  { s with err := e.record, status := s.status.failed, irq := { s.irq with errIrq := true }, seq := .idle }

/-- The return from the error state, by CLEAR: ERR, ERR_CODE and ERR_INFO 0, ERR_IRQ kept (60_exceptions R115). -/
def leaveError (s : State) : State :=
  { s with err := ErrRecord.clear, status := { s.status with err := false } }

/-- A command ends in exactly one of two ways, or its walk never ends (40_control R82). -/
def Run.finish : Run → Host.Outcome State Fault Refusal
  | .ok s => .next (complete s)
  | .raise e s => .next (raiseError e s)
  | .diverge => .fault .treeWalkDiverges

/-- Run one body after another; a raise ends the command (00_scope R14). -/
def Run.andThen (r : Run) (next : State → Run) : Run :=
  match r with
  | .ok s => next s
  | .raise e s => .raise e s
  | .diverge => .diverge

/-- `Execute(c)`: illegal, then the precondition, then the body (40_control R80, 60_exceptions R116). -/
def execute (i : Instr) (body : State → Run) (s : State) : Host.Outcome State Fault Refusal :=
  if i.wellFormed then
    if pre i s.status then (body s).finish
    else .next (raiseError ⟨.sequence, some (encode i)⟩ s)
  else .next (raiseError ⟨.illegalCommand, some (encode i)⟩ s)

end Sys2Proof.Machine
end

