-- ==== Sys2Proof/Machine/Build.lean ====
section
/-! DEFINITION. The tree builder BUILD (42_build R88–R90). -/

namespace Sys2Proof.Machine

/-- An element of the priority queue: an arena index with its weight, the key of R88. -/
structure Key where
  w : BitVec 64
  i : Nat
  deriving DecidableEq, Repr

/-- Key order: by weight, then by index, both unsigned (R88). -/
def Key.before (a b : Key) : Bool := a.w < b.w || (a.w == b.w && a.i < b.i)

/-- The least key of a non-empty queue (R88). -/
def leastKey : Key → List Key → Key
  | k, [] => k
  | k, x :: xs => leastKey (if x.before k then x else k) xs

/-- `ExtractMin()` (R88); none on an empty queue. -/
def extractMin : List Key → Option (Key × List Key)
  | [] => none
  | k :: ks => some (leastKey k ks, (k :: ks).erase (leastKey k ks))

/-- The symbols with a non-zero count, ascending (R89 step 1). -/
def usedSymbols (freq : Memory Word) : List Nat :=
  (List.range Config.numSymbols).filter (fun s => freqAt freq s != 0#32)

/-- The leaf of a symbol with its count as weight (R89). -/
def symbolLeaf (freq : Memory Word) (s : Nat) : Node := Node.mkLeaf (BitVec.ofNat 9 s) ((freqAt freq s).setWidth 64)

/-- The leaves BUILD creates: one per non-zero count, ascending; a dummy leaf first if there is only one (R89, R90). -/
def buildLeaves (freq : Memory Word) : List Node :=
  let leaves := (usedSymbols freq).map (symbolLeaf freq)
  if leaves.length = 1 then Node.mkLeaf 0#9 0#64 :: leaves else leaves

/-- PQ at the start: every leaf (R89). -/
def initialQueue (leaves : List Node) : List Key := leaves.mapIdx (fun i n => ⟨n.w, i⟩)

/-- The merge loop: while two are left, merge the two least, the first extracted as left child (R89 step 2).
Each turn takes one element off the queue, so as many turns as elements end it. -/
def mergeLoop : Nat → List Node → List Key → List Node × List Key
  | 0, nodes, pq => (nodes, pq)
  | turns + 1, nodes, pq =>
    match extractMin pq with
    | none => (nodes, pq)
    | some (a, pq1) =>
      match extractMin pq1 with
      | none => (nodes, pq)
      | some (b, pq2) =>
        mergeLoop turns (nodes ++ [Node.mkInternal (a.w + b.w) a.i b.i]) (⟨a.w + b.w, nodes.length⟩ :: pq2)

/-- The index left in the queue, the root (R89 step 3). -/
def queueRoot : List Key → Nat
  | [] => 0
  | k :: _ => k.i

/-- BUILD-body (R89): BAD_FREQ(256) before any change, else the leaves, the merges and the flags. -/
def buildBody (s : State) : Run :=
  if freqAt s.freq Config.pseudoEof = 0#32 then .raise ⟨.badFreq, some (infoOfSym Config.pseudoEof)⟩ s
  else
    let leaves := buildLeaves s.freq
    let merged := mergeLoop leaves.length leaves (initialQueue leaves)
    .ok { s with
      arena := arenaWrite merged.1 s.arena
      nodeCount := BitVec.ofNat 10 merged.1.length
      root := BitVec.ofNat 10 (queueRoot merged.2)
      leafCount := BitVec.ofNat 9 leaves.length
      status := s.status.treeDropped.treeMade false }

/-- BUILD. -/
def execBuild (s : State) : Host.Outcome State Fault Refusal := execute .build buildBody s

end Sys2Proof.Machine
end

