-- ==== Sys2Proof/Machine/Control.lean ====
section
/-! DEFINITION. The control commands NOP and CLEAR (40_control R84, R85). -/

namespace Sys2Proof.Machine

/-- NOP-body: nothing (R84). -/
def nopBody (s : State) : Run := .ok s

/-- NOP. -/
def execNop (s : State) : Host.Outcome State Fault Refusal := execute .nop nopBody s

/-- What CLEAR-body does to the datapath: the memories, counts and result to 0, the source rewound, OUT empty and the
flags of R85 cleared. CTRL, IRQ_STATUS, CMD_DROPPED, the hidden arena and the sink port's history stay. -/
def clearDatapath (s : State) : State :=
  { s with
    freq := []
    code := []
    nodeCount := 0#10
    root := 0#10
    leafCount := 0#9
    hdrBits := 0#32
    result := ⟨false, 0#9⟩
    status := s.status.cleared
    source := s.source.rewind
    sink := s.sink.reopen }

/-- CLEAR-body (R85): the datapath, and the return from the error state. -/
def clearBody (s : State) : Run := .ok (leaveError (clearDatapath s))

/-- CLEAR. -/
def execClear (s : State) : Host.Outcome State Fault Refusal := execute .clear clearBody s

end Sys2Proof.Machine
end

