-- ==== Sys2Proof/Machine/Count.lean ====
section
/-! DEFINITION. The frequency counter COUNT (41_count R86). -/

namespace Sys2Proof.Machine

/-- COUNT's loop: read bytes until EOI and count them; the first component is the symbol that would overflow.
Each turn reads a byte, so |SRC| + 1 turns reach EOI. -/
def countLoop : Nat → Memory Word → Source → Option Nat × Memory Word × Source
  | 0, freq, src => (none, freq, src)
  | turns + 1, freq, src =>
    match src.readBits 8 with
    | (none, src') => (none, freq, src')
    | (some v, src') =>
      if freqAt freq v = 0xFFFFFFFF#32 then (some v, freq, src')
      else countLoop turns (freqSet freq v (freqAt freq v + 1#32)) src'

/-- COUNT-body: FREQ to 0, rewind, count, then FREQ[256] ← 1; COUNT_OVERFLOW(v) keeps the partial counts (R86). -/
def countBody (s : State) : Run :=
  match countLoop (s.source.rewind.bytes.length + 1) [] s.source.rewind with
  | (some v, freq, src) => .raise ⟨.countOverflow, some (infoOfSym v)⟩ { s with freq := freq, source := src }
  | (none, freq, src) => .ok { s with freq := freqSet freq Config.pseudoEof 1#32, source := src }

/-- COUNT. -/
def execCount (s : State) : Host.Outcome State Fault Refusal := execute .count countBody s

end Sys2Proof.Machine
end

