-- ==== Sys2Proof/Machine/Decoder.lean ====
section
/-! DEFINITION. The streaming symbol decoder DEC_SYM, DECODE (46_decode R102–R104). -/

namespace Sys2Proof.Machine

/-- `Walk()` from entry i: the symbol of the leaf reached, or none for TRUNCATED_STREAM (R102). Each turn reads a
bit, so one turn more than the bits left reaches EOI. -/
def walk (look : Nat → Node) : Nat → Nat → Source → Option Sym × Source
  | 0, _, src => (none, src)
  | turns + 1, i, src =>
    match src.readBits 1 with
    | (none, src') => (none, src')
    | (some b, src') =>
      let j := if b = 0 then (look i).l.toNat else (look i).r.toNat
      if (look j).leaf then (some (look j).sym, src') else walk look turns j src'

/-- The turns that are enough for any walk of the source from RP. -/
def Source.turns (src : Source) : Nat := src.size - src.rp + 1

/-- `Walk()` on the machine: from ROOT, and RESULT ← the symbol reached (R102). -/
def State.walkSym (s : State) : Option Sym × State :=
  match walk s.node s.source.turns s.root.toNat s.source with
  | (none, src) => (none, { s with source := src })
  | (some sym, src) => (some sym, { s with source := src, result := ⟨true, sym⟩ })

/-- The pseudo-EOF leaf: EOF_SEEN ← 1 and nothing written (R103, R104). -/
def State.sawEof (s : State) : State := { s with status := { s.status with eofSeen := true } }

/-- Emit a decoded symbol as an 8-bit output byte (R103). -/
def State.emitByte (s : State) (sym : Sym) : State := { s with sink := s.sink.writeBits 8 sym.toNat }

/-- DEC_SYM-body (R103). -/
def decSymBody (s : State) : Run :=
  match ({ s with status := { s.status with eofSeen := false } } : State).walkSym with
  | (none, t) => .raise ⟨.truncatedStream, none⟩ t
  | (some sym, t) => if symAddr sym = Config.pseudoEof then .ok t.sawEof else .ok (t.emitByte sym)

/-- DEC_SYM. -/
def execDecSym (s : State) : Host.Outcome State Fault Refusal := execute .decSym decSymBody s

/-- DECODE's loop (R104). Each turn reads a bit at least. -/
def decodeLoop : Nat → State → Run
  | 0, s => .raise ⟨.truncatedStream, none⟩ s
  | turns + 1, s =>
    match s.walkSym with
    | (none, t) => .raise ⟨.truncatedStream, none⟩ t
    | (some sym, t) => if symAddr sym = Config.pseudoEof then .ok t.sawEof else decodeLoop turns (t.emitByte sym)

/-- DECODE-body (R104). -/
def decodeBody (s : State) : Run :=
  decodeLoop s.source.turns { s with status := { s.status with eofSeen := false } }

/-- DECODE. -/
def execDecode (s : State) : Host.Outcome State Fault Refusal := execute .decode decodeBody s

end Sys2Proof.Machine
end

