-- ==== Sys2Proof/Machine/Encoder.lean ====
section
/-! DEFINITION. The encoding engine ENC_SYM, ENCODE, FLUSH (45_encode R99–R101). -/

namespace Sys2Proof.Machine

/-- `EncSym(s)`: append the symbol's codeword; none for NO_CODEWORD, which writes nothing (R99). -/
def encSymTo (code : Memory Code) (s : Nat) (snk : Sink) : Option Sink :=
  if (codeAt code s).len = 0#9 then none else some (snk.append (codeAt code s).bits)

/-- ENC_SYM-body (R99). -/
def encSymBody (s : Nat) (st : State) : Run :=
  match encSymTo st.code s st.sink with
  | none => .raise ⟨.noCodeword, some (infoOfSym s)⟩ st
  | some snk => .ok { st with sink := snk }

/-- ENC_SYM. -/
def execEncSym (sym : Sym) (s : State) : Host.Outcome State Fault Refusal :=
  execute (.encSym sym) (encSymBody (symAddr sym)) s

/-- ENCODE's loop: the codeword of each byte until EOI; the first component is a byte with no codeword. Each turn
reads a byte, so |SRC| + 1 turns reach EOI (R100). -/
def encodeLoop (code : Memory Code) : Nat → Source → Sink → Option Nat × Source × Sink
  | 0, src, snk => (none, src, snk)
  | turns + 1, src, snk =>
    match src.readBits 8 with
    | (none, src') => (none, src', snk)
    | (some v, src') =>
      match encSymTo code v snk with
      | none => (some v, src', snk)
      | some snk' => encodeLoop code turns src' snk'

/-- ENCODE-body: rewind, the payload, then the pseudo-EOF codeword (R100). -/
def encodeBody (s : State) : Run :=
  match encodeLoop s.code (s.source.rewind.bytes.length + 1) s.source.rewind s.sink with
  | (some v, src, snk) => .raise ⟨.noCodeword, some (infoOfSym v)⟩ { s with source := src, sink := snk }
  | (none, src, snk) => encSymBody Config.pseudoEof { s with source := src, sink := snk }

/-- ENCODE. -/
def execEncode (s : State) : Host.Outcome State Fault Refusal := execute .encode encodeBody s

/-- FLUSH-body (R101). -/
def flushBody (s : State) : Run := .ok s.sinkFlush

/-- FLUSH. -/
def execFlush (s : State) : Host.Outcome State Fault Refusal := execute .flush flushBody s

end Sys2Proof.Machine
end

