-- ==== Sys2Proof/Machine/Tree.lean ====
section
/-! DEFINITION. The tree in the arena as a recursive type, its pre-order serialization (30_encoding R74) and the
codewords of its leaves (43_codegen R92). -/

namespace Sys2Proof.Machine

/-- A strictly binary tree with a symbol at each leaf (10_state R36). -/
inductive Tree where
  | leaf (sym : Sym)
  | node (l r : Tree)
  deriving DecidableEq, Repr

/-- The arena has 10-bit links, so a walk through more than 1024 nodes meets one twice and never ends. -/
def walkDepth : Nat := 1024

/-- The tree that hangs at entry i, following LINK (R35); none when a walk of `depth` nodes has not ended. -/
def treeAt (look : Nat → Node) : Nat → Nat → Option Tree
  | 0, _ => none
  | depth + 1, i =>
    let n := look i
    if n.leaf then some (.leaf n.sym)
    else
      match treeAt look depth n.l.toNat, treeAt look depth n.r.toNat with
      | some l, some r => some (.node l r)
      | _, _ => none

/-- The tree at ROOT (R36). -/
def State.tree (s : State) : Option Tree := treeAt s.node walkDepth s.root.toNat

/-- T(n): 0 and the subtrees, or 1 and the 9-bit symbol (30_encoding R74, 44_header R95). -/
def Tree.serialize : Tree → List Bool
  | .leaf sym => true :: binOf 9 sym.toNat
  | .node l r => false :: (l.serialize ++ r.serialize)

/-- `Visit(i, len, val)`: each leaf's codeword, in pre-order, left subtree first (43_codegen R92). -/
def Tree.codes : Tree → Nat → BitVec 256 → List (Sym × Code)
  | .leaf sym, len, val => [(sym, ⟨BitVec.ofNat 9 len, val⟩)]
  | .node l r, len, val => l.codes (len + 1) (2#256 * val) ++ r.codes (len + 1) (2#256 * val + 1#256)

/-- The code table from the visited leaves: a later leaf with the same symbol overwrites (43_codegen R92). -/
def codeTable (visited : List (Sym × Code)) : Memory Code :=
  visited.foldl (fun m e => codeSet m (symAddr e.1) e.2) []

/-- The number of leaves (30_encoding R76). -/
def Tree.leaves : Tree → Nat
  | .leaf _ => 1
  | .node l r => l.leaves + r.leaves

end Sys2Proof.Machine
end

