-- ==== Sys2Proof/Machine/GenCodes.lean ====
section
/-! DEFINITION. The code-table generator GENCODES (43_codegen R92). -/

namespace Sys2Proof.Machine

/-- GENCODES-body: clear CODE, visit the tree at ROOT, CODES_VALID ← 1 (R92). -/
def gencodesBody (s : State) : Run :=
  match s.tree with
  | none => .diverge
  | some t => .ok { s with code := codeTable (t.codes 0 0#256), status := { s.status with codesValid := true } }

/-- GENCODES. -/
def execGencodes (s : State) : Host.Outcome State Fault Refusal := execute .gencodes gencodesBody s

end Sys2Proof.Machine
end

