-- ==== Sys2Proof/Machine/Header.lean ====
section
/-! DEFINITION. The header codec WRITE_MAGIC, WRITE_TREE, READ_MAGIC, READ_TREE (44_header R94–R97). -/

namespace Sys2Proof.Machine

/-! ## WRITE_MAGIC and WRITE_TREE -/

/-- WRITE_MAGIC-body: the 32 bits of HUFF_MAGIC (R94). -/
def writeMagicBody (s : State) : Run := .ok { s with sink := s.sink.writeBits 32 s.magic.toNat }

/-- WRITE_MAGIC. -/
def execWriteMagic (s : State) : Host.Outcome State Fault Refusal := execute .writeMagic writeMagicBody s

/-- WRITE_TREE-body: T(ROOT), and HDR_BITS ← the growth of OUT_CNT (R95). -/
def writeTreeBody (s : State) : Run :=
  match s.tree with
  | none => .diverge
  | some t =>
    .ok { s with
      sink := s.sink.append t.serialize
      hdrBits := (({ s with sink := s.sink.append t.serialize } : State).outCnt - s.outCnt).setWidth 32 }

/-- WRITE_TREE. -/
def execWriteTree (s : State) : Host.Outcome State Fault Refusal := execute .writeTree writeTreeBody s

/-! ## READ_MAGIC -/

/-- READ_MAGIC-body: one 32-bit read, compared with HUFF_MAGIC (R96). -/
def readMagicBody (s : State) : Run :=
  match s.source.readBits 32 with
  | (none, src) =>
    .raise ⟨.badMagic, none⟩ { s with source := src, status := { s.status with magicOk := false } }
  | (some v, src) =>
    if v = s.magic.toNat then .ok { s with source := src, status := { s.status with magicOk := true } }
    else
      .raise ⟨.badMagic, some (BitVec.ofNat 32 v)⟩
        { s with source := src, status := { s.status with magicOk := false } }

/-- READ_MAGIC. -/
def execReadMagic (s : State) : Host.Outcome State Fault Refusal := execute .readMagic readMagicBody s

/-! ## READ_TREE -/

/-- READ_TREE's working state: the source, the nodes written so far, the nodes allocated n and the leaves L (R97).
An allocated leaf whose value could not be read is not written. -/
structure ParseState where
  source : Source
  nodes : List Node
  count : Nat
  leaves : Nat
  deriving DecidableEq, Repr

/-- `NODE[i].l ← li; NODE[i].r ← ri` (R97). -/
def setLinks (nodes : List Node) (i li ri : Nat) : List Node :=
  nodes.modify i (fun n => { n with l := BitVec.ofNat 10 li, r := BitVec.ofNat 10 ri })

/-- `Parse()` (R97). `depth` bounds the nesting: each nested call has allocated a node, so 514 is never used up
before HDR_CAPACITY is raised. -/
def parse : Nat → ParseState → Except Raise Nat × ParseState
  | 0, p => (.error ⟨.hdrCapacity, none⟩, p)
  | depth + 1, p =>
    match p.source.readBits 1 with
    | (none, src) => (.error ⟨.malformedHeader, none⟩, { p with source := src })
    | (some b, src) =>
      if p.count = Config.nodeCap then (.error ⟨.hdrCapacity, none⟩, { p with source := src })
      else if b = 1 then
        match src.readBits 9 with
        | (none, src') => (.error ⟨.malformedHeader, none⟩, { p with source := src', count := p.count + 1 })
        | (some v, src') =>
          if v > Config.pseudoEof then
            (.error ⟨.hdrBadSymbol, some (infoOfSym v)⟩, { p with source := src', count := p.count + 1 })
          else
            (.ok p.count,
              { source := src'
                nodes := p.nodes ++ [Node.mkLeaf (BitVec.ofNat 9 v) 0#64]
                count := p.count + 1
                leaves := p.leaves + 1 })
      else
        match parse depth { p with source := src, nodes := p.nodes ++ [Node.mkInternal 0#64 0 0], count := p.count + 1 } with
        | (.error e, p1) => (.error e, p1)
        | (.ok li, p1) =>
          match parse depth p1 with
          | (.error e, p2) => (.error e, p2)
          | (.ok ri, p2) => (.ok p.count, { p2 with nodes := setLinks p2.nodes p.count li ri })

/-- The registers and the arena as a parse leaves them, on success and at a raise (R97). -/
def commitParse (s : State) (p : ParseState) : State :=
  { s with
    source := p.source
    arena := arenaWrite p.nodes s.arena
    nodeCount := BitVec.ofNat 10 p.count
    leafCount := BitVec.ofNat 9 p.leaves
    root := 0#10
    hdrBits := BitVec.ofNat 32 (p.source.rp - s.source.rp)
    status := s.status.treeReadStart }

/-- READ_TREE-body (R97): parse, commit, and refuse a tree that is one leaf. -/
def readTreeBody (s : State) : Run :=
  match parse 514 ⟨s.source, [], 0, 0⟩ with
  | (.error e, p) => .raise e (commitParse s p)
  | (.ok _, p) =>
    let t := commitParse s p
    if (t.node 0).leaf then .raise ⟨.degenerateTree, some ((t.node 0).sym.setWidth 32)⟩ t
    else .ok { t with status := t.status.treeMade true }

/-- READ_TREE. -/
def execReadTree (s : State) : Host.Outcome State Fault Refusal := execute .readTree readTreeBody s

end Sys2Proof.Machine
end

