-- ==== Sys2Proof/Machine/Macro.lean ====
section
/-! DEFINITION. The whole-stream operations COMPRESS and DECOMPRESS (47_macro R106, R107). -/

namespace Sys2Proof.Machine

/-- `try … on raise E(info): FLUSH-body; raise E(info)`: the sink is flushed on every exit path (R106, R107). -/
def Run.flushOnRaise : Run → Run
  | .ok s => .ok s
  | .raise e s => .raise e s.sinkFlush
  | .diverge => .diverge

/-- COMPRESS-body: the six component bodies in order, then FLUSH (R106). -/
def compressBody (s : State) : Run :=
  ((((((countBody s).andThen buildBody).andThen gencodesBody).andThen writeMagicBody).andThen writeTreeBody).andThen
    encodeBody).andThen flushBody |>.flushOnRaise

/-- COMPRESS. -/
def execCompress (s : State) : Host.Outcome State Fault Refusal := execute .compress compressBody s

/-- The start of DECOMPRESS: EOF_SEEN ← 0 (10_state R21, log entry 12) and Rewind() (R107). -/
def decompressStart (s : State) : State :=
  { s with source := s.source.rewind, status := { s.status with eofSeen := false } }

/-- DECOMPRESS-body: rewind, the magic, the tree, the payload, then FLUSH (R107). -/
def decompressBody (s : State) : Run :=
  (((readMagicBody (decompressStart s)).andThen readTreeBody).andThen decodeBody).andThen flushBody
    |>.flushOnRaise

/-- DECOMPRESS. -/
def execDecompress (s : State) : Host.Outcome State Fault Refusal := execute .decompress decompressBody s

end Sys2Proof.Machine
end

