-- ==== Sys2Proof/Machine/Dispatch.lean ====
section
/-! DEFINITION. One arm per command of 30_encoding R70. -/

namespace Sys2Proof.Machine

def exec (i : Instr) (s : State) : Host.Outcome State Fault Refusal :=
  match i with
  | .nop => Sys2Proof.Machine.execNop s
  | .clear => Sys2Proof.Machine.execClear s
  | .count => Sys2Proof.Machine.execCount s
  | .build => Sys2Proof.Machine.execBuild s
  | .gencodes => Sys2Proof.Machine.execGencodes s
  | .writeMagic => Sys2Proof.Machine.execWriteMagic s
  | .writeTree => Sys2Proof.Machine.execWriteTree s
  | .readMagic => Sys2Proof.Machine.execReadMagic s
  | .readTree => Sys2Proof.Machine.execReadTree s
  | .encSym sym => Sys2Proof.Machine.execEncSym sym s
  | .encode => Sys2Proof.Machine.execEncode s
  | .flush => Sys2Proof.Machine.execFlush s
  | .decSym => Sys2Proof.Machine.execDecSym s
  | .decode => Sys2Proof.Machine.execDecode s
  | .compress => Sys2Proof.Machine.execCompress s
  | .decompress => Sys2Proof.Machine.execDecompress s

end Sys2Proof.Machine
end

