-- ==== Sys2Proof/Machine/Sequencer.lean ====
section
/-! DEFINITION. The command sequencer: offering and accepting a command word (40_control R79), running CUR
(R80), INIT and reset (70_reset R121, R122). -/

namespace Sys2Proof.Machine

/-- Accept a command word: CUR ← v, DONE ← 0, into EXEC; accepting CLEAR clears CMD_DROPPED (R79). -/
def acceptCommand (v : Word) (s : State) : State :=
  { s with seq := .exec v, status := s.status.accepted v, taken := 0 }

/-- A dropped CMD write sets CMD_DROPPED and changes nothing else (R79). -/
def dropCommand (s : State) : State := { s with status := { s.status with cmdDropped := true } }

/-- The exact words accepted while ERR = 1: NOP, CLEAR, FLUSH (R79, 60_exceptions R114). -/
def acceptedInError (v : Word) : Bool := v = 0x00000000#32 || v = 0x00000001#32 || v = 0x00000058#32

/-- `OfferCommand(v)` (R79). -/
def offerCommand (v : Word) (s : State) : State :=
  if s.busy then dropCommand s
  else if s.status.err && !acceptedInError v then dropCommand s
  else acceptCommand v s

/-- `Execute(CUR)`: a word the decoder refuses is ILLEGAL_COMMAND with the word as info, else the command's meaning
(R80, 30_encoding R71). -/
def runCommand (v : Word) (s : State) : Host.Outcome State Fault Refusal :=
  match decode v with
  | .ok i => exec i s
  | .error _ => .next (raiseError ⟨.illegalCommand, some v⟩ s)

/-- The block proceeds by itself: INIT ends (70_reset R121), an accepted command runs and commits (20_memory R63),
and an idle block waits (60_exceptions R120). -/
def advance (s : State) : Host.Outcome State Fault Refusal :=
  match s.seq with
  | .init => .next { s with seq := .idle }
  | .idle => .next s
  | .exec v => runCommand v s

/-- The bytes among sink-port events. Leaving the close out of what an executing command shows is log entry 27. -/
def bytesOf (events : List PortEvent) : List PortEvent :=
  events.filter (fun e => e != .close)

/-- The bytes the executing command has for the sink, in order; none in INIT or IDLE. -/
def pendingBytes (s : State) : List PortEvent :=
  match s.seq with
  | .init => []
  | .idle => []
  | .exec v =>
    match runCommand v s with
    | .next t => bytesOf (t.sink.port.drop s.sink.port.length)
    | .fault _ => []
    | .refused _ => []

/-- Time passes: the sink may have taken more bytes of the executing command, a free number of them
(20_memory R63, log entry 9). -/
def letTimePass (s : State) : State :=
  match s.seq with
  | .init => s
  | .idle => s
  | .exec _ => { s with taken := s.taken + Config.freeTaken s.draws, draws := s.draws + 1 }

/-- What the sink port has seen so far: what it saw before the executing command, and the bytes of that command it
has taken (20_memory R63). DESIGN CHOICE (log entry 27): the snk_close of the command is seen with its commit and not
before. The rules say only that its flush pulses it after the last byte (R48, R61), that it has pulsed once completion is
observed (R64), and that a reset during the command leaves the stream unclosed (70_reset R122). -/
def portSeen (s : State) : List PortEvent := s.sink.port ++ (pendingBytes s).take s.taken

/-- Reset, by rst_n or CTRL.SRST: every register, flag and memory to its reset value, the source rewound, OUT empty,
and INIT entered. A running command is aborted with no error; the bytes the sink has taken stay taken, and snk_close
is not pulsed (70_reset R121, R122). The host's own moves, the bus's answer and the sink's binding are no state of the
block and stay. DESIGN CHOICE for a host that breaks R125: the rewinds of the aborted command itself used up none of
`later`, so the source presents what one rewind from acceptance gives (log entry 23). -/
def softReset (s : State) : State :=
  { State.reset with
    source := s.source.rewind
    sink := ⟨[], portSeen (letTimePass s)⟩
    host := s.host
    reply := s.reply
    sinkFrom := s.sinkFrom
    resets := s.resets + 1
    draws := (letTimePass s).draws }

end Sys2Proof.Machine
end

