-- ==== Sys2Proof/Machine/Bus.lean ====
section
/-! DEFINITION. The register window (10_state R17), the bus primitives MemRead and MemWrite (20_memory R53, R55) and
the other moves of the host (70_reset R124). -/

namespace Sys2Proof.Machine

/-- What stands at a mapped offset (10_state R17): a register, or a word of a window. -/
inductive Reg where
  | id
  | ctrl
  | cmd
  | status
  | irqStatus
  | errCode
  | errInfo
  | magic
  | result
  | nodeCount
  | root
  | leafCount
  | hdrBits
  | inPosLo
  | inPosHi
  | outCntLo
  | outCntHi
  | freq (s : Nat)
  | node (i : Nat) (word : Nat)
  | code (s : Nat) (word : Nat)
  deriving DecidableEq, Repr

/-- The offset of a host address the platform routes to the block: the address bits [15:0] (20_memory R44). -/
def busOffset (addr : Nat) : Option Offset :=
  if Config.regBase ≤ addr ∧ addr < Config.regBase + 65536 then some (BitVec.ofNat 16 addr) else none

/-- The fixed registers, 0x000 to 0x040 (10_state R17). -/
def fixedRegAt (off : Nat) : Option Reg :=
  if off = 0x000 then some .id
  else if off = 0x004 then some .ctrl
  else if off = 0x008 then some .cmd
  else if off = 0x00C then some .status
  else if off = 0x010 then some .irqStatus
  else if off = 0x014 then some .errCode
  else if off = 0x018 then some .errInfo
  else if off = 0x01C then some .magic
  else if off = 0x020 then some .result
  else if off = 0x024 then some .nodeCount
  else if off = 0x028 then some .root
  else if off = 0x02C then some .leafCount
  else if off = 0x030 then some .hdrBits
  else if off = 0x034 then some .inPosLo
  else if off = 0x038 then some .inPosHi
  else if off = 0x03C then some .outCntLo
  else if off = 0x040 then some .outCntHi
  else none

/-- The register map at a word-aligned offset; none where nothing is mapped (10_state R17, R34, R35, R37). -/
def regAt (off : Nat) : Option Reg :=
  if 0x0400 ≤ off ∧ off < 0x0400 + 4 * 257 then some (.freq ((off - 0x0400) / 4))
  else if 0x1000 ≤ off ∧ off < 0x1000 + 16 * 513 then some (.node ((off - 0x1000) / 16) ((off - 0x1000) / 4 % 4))
  else if 0x4000 ≤ off ∧ off < 0x4000 + 64 * 257 then some (.code ((off - 0x4000) / 64) ((off - 0x4000) / 4 % 16))
  else fixedRegAt off

/-- A register that cannot be accessed while BUSY = 1: every offset from 0x020 up (20_memory R55). -/
def gated (off : Nat) : Bool := 0x020 ≤ off

/-- The read-only registers and windows (10_state R17, 20_memory R55). -/
def Reg.readOnly : Reg → Bool
  | .ctrl | .cmd | .irqStatus | .freq _ => false
  | .id | .status | .errCode | .errInfo | .magic | .result | .nodeCount | .root | .leafCount | .hdrBits
  | .inPosLo | .inPosHi | .outCntLo | .outCntHi | .node _ _ | .code _ _ => true

/-- A word of a node's window entry: TAG, WEIGHT_LO, WEIGHT_HI, LINK (10_state R35). -/
def Node.word (n : Node) (k : Nat) : Word :=
  if k = 0 then flagAt n.leaf 0 ||| (n.sym.setWidth 32 <<< 16)
  else if k = 1 then n.w.extractLsb' 0 32
  else if k = 2 then n.w.extractLsb' 32 32
  else n.l.setWidth 32 ||| (n.r.setWidth 32 <<< 16)

/-- A word of a code entry's window: LEN, VAL_0..VAL_7, and reserved words that read 0 (10_state R37). -/
def Code.word (c : Code) (k : Nat) : Word :=
  if k = 0 then c.len.setWidth 32
  else if k ≤ 8 then c.val.extractLsb' (32 * (k - 1)) 32
  else 0#32

/-- The value a register or window word reads (10_state R18–R37). NODE entries not in use read 0, and CODE reads 0
while CODES_VALID = 0. -/
def readReg (s : State) : Reg → Word
  | .id => Config.idValue
  | .ctrl => s.ctrl.word
  | .cmd => 0#32
  | .status => s.statusWord
  | .irqStatus => s.irq.word
  | .errCode => s.err.codeWord
  | .errInfo => s.err.info
  | .magic => s.magic
  | .result => s.result.word
  | .nodeCount => s.nodeCount.setWidth 32
  | .root => s.root.setWidth 32
  | .leafCount => s.leafCount.setWidth 32
  | .hdrBits => s.hdrBits
  | .inPosLo => s.inPos.extractLsb' 0 32
  | .inPosHi => s.inPos.extractLsb' 32 32
  | .outCntLo => s.outCnt.extractLsb' 0 32
  | .outCntHi => s.outCnt.extractLsb' 32 32
  | .freq k => freqAt s.freq k
  | .node i k => if i < s.nodeCount.toNat then (s.node i).word k else 0#32
  | .code k j => if s.status.codesValid then (codeAt s.code k).word j else 0#32

/-- The effect of a write to a writable register (20_memory R55). -/
def writeReg (s : State) (v : Word) : Reg → State
  | .ctrl => if v.getLsbD 0 then softReset s else { s with ctrl := Ctrl.ofWord v }
  | .cmd => offerCommand v s
  | .irqStatus => { s with irq := s.irq.writeOneToClear v }
  | .freq k => { s with freq := freqSet s.freq k v }
  | .id | .status | .errCode | .errInfo | .magic | .result | .nodeCount | .root | .leafCount | .hdrBits
  | .inPosLo | .inPosHi | .outCntLo | .outCntHi | .node _ _ | .code _ _ => s

/-- A 32-bit access at a multiple of 4 with every strobe set (20_memory R53). -/
def alignedWord (off : Offset) (size : AccessSize) (strb : BitVec 4) : Bool :=
  off.toNat % 4 = 0 && size = .word && strb = 0b1111#4

/-- The register an access reaches; none is BUSERR: misaligned, narrow, unmapped, or gated while BUSY = 1
(20_memory R55). -/
def accessed (s : State) (off : Offset) (size : AccessSize) (strb : BitVec 4) : Option Reg :=
  if alignedWord off size strb then
    if gated off.toNat && s.busy then none else regAt off.toNat
  else none

/-- `MemRead` (20_memory R55). -/
def memRead (s : State) (off : Offset) (size : AccessSize) (strb : BitVec 4) : Reply :=
  match accessed s off size strb with
  | some r => .data (readReg s r)
  | none => .busErr

/-- `MemWrite` (20_memory R55): BUSERR leaves the block unchanged. -/
def memWrite (s : State) (off : Offset) (size : AccessSize) (strb : BitVec 4) (v : Word) : Reply × State :=
  match accessed s off size strb with
  | some r => if r.readOnly then (.busErr, s) else (.ok, writeReg s v r)
  | none => (.busErr, s)

/-- A source the block can be given: at most 2^64 − 1 bits (20_memory R43). -/
def sourceFits (bytes : List Byte) : Bool := 8 * bytes.length < 2 ^ 64

/-- Bind a source. RP stays where it is, since IN_POS changes only while BUSY = 1 and counts the bits consumed since
the last Rewind (20_memory R57, 10_state R31). On a source shorter than RP it cannot (10_state R39), and no rule says
where it stands: the free value of log entry 10, within 0..8·|SRC|.
DESIGN CHOICE (log entry 26): a source longer than RP is read on at RP even if a read has met EOI since the last Rewind,
as R45's pseudocode and R124 have it; R45's prose has every read answer EOI until a Rewind. -/
def bindSource (s : State) (bytes : List Byte) (later : List (List Byte)) : State :=
  { s with
    source :=
      { bytes := bytes
        later := later
        rp :=
          if s.source.rp ≤ 8 * bytes.length then s.source.rp
          else Config.freePosition s.draws % (8 * bytes.length + 1) }
    draws := s.draws + 1 }

/-- Bind a fresh sink, at any time (70_reset R124): what the port has seen until now went to the sink before it. The
block and its OUT do not change (log entry 24). -/
def bindSink (s : State) : State :=
  { letTimePass s with sinkFrom := (portSeen (letTimePass s)).length }

/-- What the bound sink has been given so far (R78 SINK). -/
def sinkSeen (s : State) : List PortEvent := (portSeen s).drop s.sinkFrom

/-- `WR off, v` (30_encoding R78). -/
def hostWr (off : Offset) (v : Word) : HostAction := .write off .word 0b1111#4 v

/-- `RD off` (30_encoding R78). -/
def hostRd (off : Offset) : HostAction := .read off .word 0b1111#4

/-- `WAIT`: RD 0x00C until BUSY = 0 (30_encoding R78), that is, any number of reads that still see BUSY = 1, the block
proceeding, and the read that sees BUSY = 0. -/
def hostWait (busyReads : Nat) : List HostAction :=
  List.replicate busyReads (hostRd 0x00C#16) ++ [.run, hostRd 0x00C#16]

/-- `ISSUE cmd`: WR 0x008 with the command's encoding, then WAIT (30_encoding R78). -/
def hostIssue (i : Instr) (busyReads : Nat) : List HostAction :=
  hostWr 0x008#16 (encode i) :: hostWait busyReads

/-- `SRC bytes`: a new source that the host keeps stable (30_encoding R78). -/
def hostSrc (bytes : List Byte) : HostAction := .bindSource bytes []

/-- One move of the host (70_reset R124). -/
def hostStep (a : HostAction) (s : State) : Host.Outcome State Fault Refusal :=
  match a with
  | .read off size strb => .next { s with reply := memRead s off size strb }
  | .write off size strb v => .next { (memWrite s off size strb v).2 with reply := (memWrite s off size strb v).1 }
  | .bindSource bytes later =>
    if s.busy then .fault .sourceBoundWhileBusy
    else if sourceFits bytes && later.all sourceFits then .next (bindSource s bytes later)
    else .fault .sourceTooLong
  | .bindSink => .next (bindSink s)
  | .takeSink => .next { letTimePass s with reply := .sink (sinkSeen (letTimePass s)) }
  | .pinReset => .next (softReset s)
  | .hold => .next (letTimePass s)
  | .run => advance s

end Sys2Proof.Machine
end

