-- ==== Sys2Proof/Machine/Step.lean ====
section
/-! DEFINITION. One step: the host's next pending move, or, with none pending, the block by itself. -/

namespace Sys2Proof.Machine

/-- One step of the machine. The host's pending moves come first (log entry 1); with none, the block proceeds. -/
def step (s : State) : Host.Outcome State Fault Refusal :=
  match s.host with
  | [] => advance s
  | a :: rest => hostStep a { s with host := rest }

/-- s with the command word w accepted into CUR, as OfferCommand accepts it (40_control R79), and the host waiting
for it, so that the very next step runs it. The host's other moves stay behind (log entry 11). -/
def State.withFetchWord (s : State) (nbits w : Nat) : State :=
  { acceptCommand (BitVec.ofNat 32 (w % 2 ^ nbits)) s with host := .run :: s.host }

end Sys2Proof.Machine
end

