-- ==== Sys2Proof/Safety.lean ====
section
/-! DEFINITION. What a good state and a good run are: the invariants the spec states over the whole machine
(10_state R36, R38, R39, R40, 60_exceptions R114) and the end of a run (47_macro R110). -/

namespace Sys2Proof.Machine

/-! ## Trees and codewords -/

/-- The arena entries of the tree at entry i, in pre-order. -/
def visitOrder (look : Nat → Node) : Nat → Nat → List Nat
  | 0, _ => []
  | depth + 1, i =>
    if (look i).leaf then [i]
    else i :: (visitOrder look depth (look i).l.toNat ++ visitOrder look depth (look i).r.toNat)

/-- The symbols of a tree's leaves, left to right. -/
def Tree.symbols : Tree → List Sym
  | .leaf sym => [sym]
  | .node l r => l.symbols ++ r.symbols

/-- The leaves of a tree with their paths, left to right (43_codegen R92). -/
def Tree.paths : Tree → List (Sym × List Bool)
  | .leaf sym => [(sym, [])]
  | .node l r => l.paths.map (fun p => (p.1, false :: p.2)) ++ r.paths.map (fun p => (p.1, true :: p.2))

/-- Is the bit string the path from the root to a leaf with this symbol (0 left, 1 right)? (30_encoding R75) -/
def Tree.isPath : Tree → List Bool → Sym → Bool
  | .leaf sym, [], s => sym == s
  | .leaf _, _ :: _, _ => false
  | .node _ _, [], _ => false
  | .node l _, false :: bits, s => l.isPath bits s
  | .node _ r, true :: bits, s => r.isPath bits s

/-- The bit string the code table gives a symbol (10_state R37). -/
def State.codeword (s : State) (sym : Nat) : List Bool := (codeAt s.code sym).bits

/-- The payload of a byte sequence under the code table: the codewords in order, then that of 256 (30_encoding R73). -/
def State.payload (s : State) (bytes : List Byte) : List Bool :=
  bytes.flatMap (fun b => s.codeword b.toNat) ++ s.codeword Config.pseudoEof

/-! ## Invariants -/

/-- FREQ and CODE are in canonical form over the 257 symbols, and the arena fits (10_state R34, R35, R37). -/
def MemoryOk (s : State) : Prop :=
  (Memory.wf 0#32 s.freq ∧ ∀ e ∈ s.freq, e.1 < Config.numSymbols) ∧
  (Memory.wf Code.unset s.code ∧ ∀ e ∈ s.code, e.1 < Config.numSymbols) ∧
  s.arena.length ≤ Config.nodeCap ∧ s.nodeCount.toNat ≤ Config.nodeCap

/-- 0 ≤ RP ≤ 8·|SRC| < 2^64, and the same bound for every later source (10_state R39, 20_memory R43). -/
def SourceOk (s : State) : Prop :=
  s.source.rp ≤ s.source.size ∧ sourceFits s.source.bytes = true ∧ s.source.later.all sourceFits = true

/-- The bytes of a bit string, eight bits each, a rest of less than eight left out. -/
def wholeBytes : List Bool → List PortEvent
  | b0 :: b1 :: b2 :: b3 :: b4 :: b5 :: b6 :: b7 :: bits =>
    .byte (byteOfBits [b0, b1, b2, b3, b4, b5, b6, b7]) :: wholeBytes bits
  | _ => []

/-- The whole bytes of OUT, and the close after a SinkFlush, are the last that the sink port has seen; a closed sink
has no partial byte (10_state R40, 20_memory R47, R48). -/
def SinkOk (s : State) : Prop :=
  (∃ earlier, s.sink.port = earlier ++ wholeBytes s.sink.out ++ (if s.status.sinkClosed then [.close] else [])) ∧
  (s.status.sinkClosed = true → s.sink.out.length % 8 = 0)

/-- ERR = 1 exactly when an error is recorded; ERR_INFO is 0 without INFO_VALID; while ERR = 1 only NOP, CLEAR or
FLUSH executes; DONE = 0 while BUSY = 1 (10_state R23, R24, 20_memory R63, 60_exceptions R114). -/
def ErrorOk (s : State) : Prop :=
  (s.status.err = true ↔ s.err.code ≠ 0#8) ∧
  (s.err.infoValid = false → s.err.info = 0#32) ∧
  (s.status.err = false → s.err.infoValid = false) ∧
  (∀ v, s.seq = .exec v → s.status.err = true → acceptedInError v = true) ∧
  (s.busy = true → s.status.done = false)

/-- The entries 0..NODE_COUNT−1 form one strictly binary tree rooted at ROOT, an internal node, with NODE_COUNT =
2·LEAF_COUNT − 1 and symbols up to 256 (10_state R36). -/
def TreeOk (s : State) : Prop :=
  ∃ l r, s.tree = some (.node l r) ∧
    (∀ sym ∈ (Tree.node l r).symbols, sym.toNat ≤ Config.pseudoEof) ∧
    (Tree.node l r).leaves = s.leafCount.toNat ∧
    s.nodeCount.toNat = 2 * s.leafCount.toNat - 1 ∧
    (visitOrder s.node walkDepth s.root.toNat).Perm (List.range s.nodeCount.toNat) ∧
    s.nodeCount.toNat ≤ s.arena.length

/-- While TREE_VALID = 1 the arena holds a tree (10_state R36). -/
def TreeInv (s : State) : Prop := s.status.treeValid = true → TreeOk s

/-- While CODES_VALID = 1 there is a valid tree and CODE holds the codewords of its leaves (10_state R38). -/
def CodeInv (s : State) : Prop :=
  s.status.codesValid = true →
    s.status.treeValid = true ∧ ∃ t, s.tree = some t ∧ s.code = codeTable (t.codes 0 0#256)

/-- MAGIC reads HUFF_MAGIC (10_state R25). -/
def MagicOk (s : State) : Prop := s.magic = Config.huffMagic

/-- The invariant of the machine. -/
def Inv (s : State) : Prop :=
  MemoryOk s ∧ SourceOk s ∧ SinkOk s ∧ ErrorOk s ∧ TreeInv s ∧ CodeInv s ∧ MagicOk s

/-! ## How commands end -/

/-- The state s when its command ends without error: DONE, DONE_IRQ, BUSY = 0 (40_control R82). -/
def State.completed (s : State) : State :=
  { s with status := { s.status with done := true }, irq := { s.irq with doneIrq := true }, seq := .idle }

/-- The state s when its command ends with an error: the record, ERR, DONE = 0, ERR_IRQ, BUSY = 0
(60_exceptions R112). -/
def State.errored (s : State) (code : BitVec 8) (info : Option Word) : State :=
  { s with
    err := ⟨code, info.isSome, info.getD 0#32⟩
    status := { s.status with err := true, done := false }
    irq := { s.irq with errIrq := true }
    seq := .idle }

/-- What each command requires (40_control R81). -/
def Requires (i : Instr) (s : State) : Prop :=
  match i with
  | .nop | .clear | .count | .build | .readMagic | .readTree | .flush => True
  | .gencodes => s.status.treeValid = true
  | .writeMagic | .compress | .decompress => s.status.sinkClosed = false
  | .writeTree | .decSym | .decode => s.status.treeValid = true ∧ s.status.sinkClosed = false
  | .encSym _ | .encode => s.status.codesValid = true ∧ s.status.sinkClosed = false

/-- The error codes of 60_exceptions R111 but 0x00. -/
def errorCodes : List (BitVec 8) :=
  [0x01#8, 0x02#8, 0x03#8, 0x10#8, 0x11#8, 0x20#8, 0x21#8, 0x22#8, 0x30#8, 0x31#8, 0x32#8]

/-- Commands that the host issues one after another, as far as they end without an error: the state that the first to
end with one has left, or else the last (47_macro R106, R107). -/
def runInOrder : List Instr → State → Host.Outcome State Fault Refusal
  | [], s => .next s
  | i :: rest, s =>
    match exec i s with
    | .next t => if t.status.done then runInOrder rest t else .next t
    | .fault f => .fault f
    | .refused r => .refused r

/-! ## Streams -/

/-- The source with its next n bits consumed. -/
def Source.consumed (src : Source) (n : Nat) : Source := { src with rp := src.rp + n }

/-- The source with all its bits consumed. -/
def Source.exhausted (src : Source) : Source := { src with rp := 8 * src.bytes.length }

/-- Bits were appended to the sink, and its port was given exactly the bytes these bits complete (20_memory R47). -/
def Sink.wrote (before : Sink) (bits : List Bool) (after : Sink) : Prop :=
  after.out = before.out ++ bits ∧
  ∃ new, after.port = before.port ++ new ∧ wholeBytes (before.out ++ bits) = wholeBytes before.out ++ new

/-- The sink was flushed: bits, then zero bits to the byte boundary, then the close (20_memory R48). -/
def Sink.wroteAndClosed (before : Sink) (bits : List Bool) (after : Sink) : Prop :=
  ∃ pad, pad < 8 ∧ (before.out.length + bits.length + pad) % 8 = 0 ∧
    ∃ mid, before.wrote (bits ++ List.replicate pad false) mid ∧
      after = { mid with port := mid.port ++ [.close] }

/-- A command that does the work of its parts (47_macro R106, R107): from s it ends as the parts run in order from s0
end, with their error and its value if one raises and with the state the raising part has reached, and has then flushed
and closed the sink. The parts' own DONE_IRQ are not pulsed. -/
def EndsAsItsParts (i : Instr) (parts : List Instr) (s0 s : State) : Prop :=
  ∃ m t, runInOrder parts s0 = .next m ∧ exec i s = .next t ∧
    t = { m with
          irq := if m.status.done then { s.irq with doneIrq := true } else { s.irq with errIrq := true }
          sink := t.sink
          status := { m.status with sinkClosed := true } } ∧
    m.sink.wroteAndClosed [] t.sink

/-! ## Headers -/

/-- The bits of nodes in pre-order, an internal node `none`, a leaf its value: 0, or 1 and nine bits
(30_encoding R74). -/
def headerBits (nodes : List (Option Sym)) : List Bool :=
  nodes.flatMap (fun
    | none => [false]
    | some v => true :: binOf 9 v.toNat)

/-- How many subtrees are still to be read after these nodes, of n before them; 0 stays 0, for there the header ends. -/
def subtreesLeft : Nat → List (Option Sym) → Nat
  | 0, _ => 0
  | n + 1, [] => n + 1
  | n + 1, none :: nodes => subtreesLeft (n + 2) nodes
  | n + 1, some _ :: nodes => subtreesLeft n nodes

/-- The leaf values among nodes in pre-order. -/
def leafValues (nodes : List (Option Sym)) : List Sym := nodes.filterMap id

/-- The beginning of a header: nodes in pre-order, each leaf value a symbol, the tree not complete (44_header R97). -/
def HeaderOpen (nodes : List (Option Sym)) : Prop :=
  0 < subtreesLeft 1 nodes ∧ ∀ v ∈ leafValues nodes, v.toNat ≤ Config.pseudoEof

/-- The state s when READ_TREE refuses its header: RP, the arena, NODE_COUNT, LEAF_COUNT and HDR_BITS as they stand at
the raise, ROOT and the flags 0 (44_header R97). -/
def State.headerRefused (s : State) (source : Source) (arena : List Node) (nodes leaves bits : Nat) (code : BitVec 8)
    (info : Option Word) : State :=
  ({ s with
      source := source
      arena := arena
      nodeCount := BitVec.ofNat 10 nodes
      root := 0#10
      leafCount := BitVec.ofNat 9 leaves
      hdrBits := BitVec.ofNat 32 bits
      status := { s.status with treeValid := false, codesValid := false, eofSeen := false } } : State).errored code info

/-! ## The host -/

/-- A write of a whole aligned word, `MemWrite(off, 4, v)` (20_memory R55). -/
def busWrite (s : State) (off : Offset) (v : Word) : Reply × State := memWrite s off .word 0b1111#4 v

/-- A read of a whole aligned word, `MemRead(off, 4)` (20_memory R55). -/
def busRead (s : State) (off : Offset) : Reply := memRead s off .word 0b1111#4

/-- The moves that reset the block: the pin, and a CTRL write with SRST = 1 (70_reset R121). -/
def HostAction.isReset : HostAction → Bool
  | .pinReset => true
  | .write off size strb v => off = 0x004#16 && size = .word && strb = 0b1111#4 && v.getLsbD 0
  | .read _ _ _ | .bindSource _ _ | .bindSink | .takeSink | .hold | .run => false

/-- The next move lets the block proceed: none is pending, or it is `run`. -/
def State.proceeds (s : State) : Prop := s.host = [] ∨ ∃ rest, s.host = .run :: rest

/-- The next move keeps the duty of binding a source (70_reset R124, 20_memory R43). -/
def State.bindsWell (s : State) : Prop :=
  ∀ bytes later rest, s.host = .bindSource bytes later :: rest →
    s.busy = false ∧ sourceFits bytes = true ∧ later.all sourceFits = true

/-! ## Runs -/

/-- A step that does not stop the machine. -/
def StepsOn (s : State) : Prop := ∃ t, step s = .next t

/-- The moves that offer a command: a write of a whole word to CMD (40_control R79). -/
def HostAction.offersCommand : HostAction → Bool
  | .write off size strb _ => off = 0x008#16 && size = .word && strb = 0b1111#4
  | .read _ _ _ | .bindSource _ _ | .bindSink | .takeSink | .pinReset | .hold | .run => false

/-- The pending moves of the run at hand: those before the host's next reset, which begins another (log entry 25). -/
def State.runMoves (s : State) : List HostAction := s.host.takeWhile (fun a => !a.isReset)

/-- A run has ended (47_macro R110): BUSY = 0, and no command is still to be offered in it. The sink has then taken
every byte delivered and seen the close, since while BUSY = 0 `portSeen` is all of the port. -/
def State.ended (s : State) : Bool := !s.busy && s.runMoves.all (fun a => !a.offersCommand)

/-- What a run leaves: STATUS, ERR_CODE, ERR_INFO, OUT delivered so far, RP and the memories, entry by entry
(47_macro R110). -/
structure RunOutcome where
  status : Word
  errCode : Word
  errInfo : Word
  delivered : List PortEvent
  rp : Nat
  freq : List Word
  node : List Node
  code : List Code
  deriving DecidableEq, Repr

/-- The outcome of a run that has ended; none before its end (47_macro R110). -/
def State.runOutcome (s : State) : Option RunOutcome :=
  if s.ended then
    some
      { status := s.statusWord
        errCode := s.err.codeWord
        errInfo := s.err.info
        delivered := wholeBytes s.sink.out
        rp := s.source.rp
        freq := (List.range Config.numSymbols).map (freqAt s.freq)
        node := (List.range Config.nodeCap).map s.node
        code := (List.range Config.numSymbols).map (codeAt s.code) }
  else none

/-- A run failed: it ended with ERR = 1 (47_macro R110). -/
def State.runFailed (s : State) : Bool := s.ended && s.status.err

/-- The source keeps the duty of 70_reset R125: the same bytes at every pass. -/
def State.stable (s : State) : Bool := s.source.later.isEmpty

end Sys2Proof.Machine
end

