-- ==== Sys2Proof/Certificates/Slice0/Obligations.lean ====
section
/-! DEFINITION. What is claimed of HUFF-CORE, from the numbered rules of spec/. In a result statement the next state is
written out whole wherever the rules give it whole, so that it is the command's frame too. -/

section Statements

open Sys2Proof Sys2Proof.Machine

/-! ## The command word -/

/-- Decoding and encoding agree in both directions, for all 2^32 words and all commands (30_encoding R72, R77). -/
def Obligations.DecodeEncodeAgree : Prop :=
  ∀ (i : Instr) (w : Word), decode w = .ok i ↔ i.wellFormed = true ∧ encode i = w

/-- The illegal words are those of R71 (a)–(d), and an accepted one completes with ILLEGAL_COMMAND and the word as
ERR_INFO, with the host's other moves left behind its `run` (30_encoding R71; log entry 1). -/
def Obligations.IllegalWordsEndInError : Prop :=
  (∀ w : Word, isIllegal w = true ↔
    w.extractLsb' 0 8 ∉ [0x00#8, 0x01#8, 0x10#8, 0x20#8, 0x30#8, 0x40#8, 0x41#8, 0x48#8, 0x49#8, 0x50#8, 0x51#8,
      0x58#8, 0x60#8, 0x61#8, 0x70#8, 0x71#8] ∨
    w.extractLsb' 17 15 ≠ 0#15 ∨
    (w.extractLsb' 0 8 ≠ 0x50#8 ∧ w.extractLsb' 8 9 ≠ 0#9) ∨
    (w.extractLsb' 0 8 = 0x50#8 ∧ 256 < (w.extractLsb' 8 9).toNat)) ∧
  ∀ (s : State) (w : Word), isIllegal w = true → s.seq = .exec w →
    (s.host = [] → step s = .next (s.errored 0x10#8 (some w))) ∧
    (∀ rest, s.host = .run :: rest →
      step s = .next (({ s with host := rest } : State).errored 0x10#8 (some w)))

/-- The words the spec writes out (30_encoding R77, 45_encode R99) and the edges of R71. -/
def Obligations.SampleWordsDecode : Prop :=
  decode 0x00004150#32 = .ok (.encSym 65#9) ∧ decode 0x00010050#32 = .ok (.encSym 256#9) ∧
  decode 0x00000070#32 = .ok .compress ∧ decode 0x00004450#32 = .ok (.encSym 68#9) ∧
  decode 0x00000000#32 = .ok .nop ∧ decode 0x00000058#32 = .ok .flush ∧
  decode 0x00000100#32 = .error .symbolNonzero ∧ decode 0x00010150#32 = .error .symbolOutOfRange ∧
  decode 0x00000002#32 = .error .unassignedOpcode ∧ decode 0x00020000#32 = .error .reservedNonzero

/-- When CUR decodes to a command and the block proceeds, the step is exec of it, at the state the host's `run` has been
taken from; with the host's `run` in front of its other moves, those stay. withFetchWord accepts the word so
(40_control R79, R80; log entries 1, 11). -/
def Obligations.StepRunsDecodedCommand : Prop :=
  (∀ (s : State) (w : Word) (i : Instr), decode w = .ok i → s.seq = .exec w → s.host = [] → step s = exec i s) ∧
  (∀ (s : State) (w : Word) (i : Instr) (rest : List HostAction), decode w = .ok i → s.seq = .exec w →
    s.host = .run :: rest → step s = exec i { s with host := rest }) ∧
  (∀ (s : State) (w : Word) (i : Instr), decode w = .ok i → s.busy = false → s.status.err = false →
    step (s.withFetchWord 32 w.toNat) = exec i (busWrite s 0x008#16 w).2)

/-! ## The life of a command -/

/-- A write to CMD drops or accepts the word (40_control R79): while BUSY, or while ERR and the word is none of the
three exact words, only CMD_DROPPED is set; else the word goes to CUR, DONE is cleared, BUSY is 1, and a CLEAR clears
CMD_DROPPED. `taken` is the model's own count (log entry 9). -/
def Obligations.OfferedWordDroppedOrAccepted : Prop :=
  ∀ (s : State) (v : Word), busWrite s 0x008#16 v =
    (.ok,
      if s.busy = true ∨ (s.status.err = true ∧ v ≠ 0x00000000#32 ∧ v ≠ 0x00000001#32 ∧ v ≠ 0x00000058#32) then
        { s with status := { s.status with cmdDropped := true } }
      else
        { s with
          seq := .exec v
          taken := 0
          status :=
            { s.status with
              done := false
              cmdDropped := if v = 0x00000001#32 then false else s.status.cmdDropped } })

/-- The precondition table: a legal command whose condition fails ends with SEQUENCE before its body changes any
state; one whose condition holds never ends with a new SEQUENCE (40_control R81). -/
def Obligations.PreconditionTable : Prop :=
  ∀ (i : Instr) (s : State), i.wellFormed = true →
    (¬ Requires i s → exec i s = .next (s.errored 0x11#8 (some (encode i)))) ∧
    (Requires i s → ∀ t, exec i s = .next t → t.err = s.err ∨ t.err.code ≠ 0x11#8)

/-- Every command that ends has ended in exactly one of two ways, with BUSY = 0: DONE and DONE_IRQ with no error
recorded, or ERR, DONE = 0 and ERR_IRQ with a code of the table, and ERR_INFO 0 without INFO_VALID
(40_control R82; 60_exceptions R111, R112). -/
def Obligations.CommandEndsOneWay : Prop :=
  ∀ (i : Instr) (s t : State), exec i s = .next t →
    t.seq = .idle ∧
    ((t.status.done = true ∧ t.irq = { s.irq with doneIrq := true } ∧
        if i = .clear then t.status.err = false ∧ t.err = ⟨0#8, false, 0#32⟩
        else t.status.err = s.status.err ∧ t.err = s.err) ∨
     (t.status.done = false ∧ t.status.err = true ∧ t.irq = { s.irq with errIrq := true } ∧ i ≠ .clear ∧
        t.err.code ∈ errorCodes ∧ (t.err.infoValid = false → t.err.info = 0#32)))

/-- Every accepted command ends, and no step stops the machine, as long as the arena invariant holds and a move that
binds a source keeps the host's duty (40_control R82, 70_reset R131). -/
def Obligations.EveryCommandEnds : Prop :=
  (∀ (i : Instr) (s : State), TreeInv s → ∃ t, exec i s = .next t) ∧
  (∀ s : State, TreeInv s → s.bindsWell → ∃ t, step s = .next t)

/-- The error state is sticky: a step that runs CLEAR or resets the block clears ERR, ERR_CODE and ERR_INFO, and every
other step from it keeps ERR and the recorded error (60_exceptions R114, R115). -/
def Obligations.ErrorStateIsSticky : Prop :=
  ∀ s t : State, ErrorOk s → s.status.err = true → step s = .next t →
    ((s.proceeds ∧ s.seq = .exec 0x00000001#32) ∨ (∃ a rest, s.host = a :: rest ∧ a.isReset = true) →
      t.status.err = false ∧ t.err = ⟨0#8, false, 0#32⟩) ∧
    (¬ ((s.proceeds ∧ s.seq = .exec 0x00000001#32) ∨ ∃ a rest, s.host = a :: rest ∧ a.isReset = true) →
      t.status.err = true ∧ t.err = s.err)

/-! ## Invariants -/

/-- Every step keeps 0 ≤ RP ≤ 8·|SRC| < 2^64 (10_state R39, 20_memory R43). -/
def Obligations.SourceStaysInRange : Prop :=
  ∀ s t : State, SourceOk s → step s = .next t → SourceOk t

/-- Every step keeps the sink port's view of OUT: its whole bytes delivered in order, then the close of a closed sink
(10_state R40, 20_memory R47, R48). -/
def Obligations.SinkStaysDelivered : Prop :=
  ∀ s t : State, SinkOk s → step s = .next t → SinkOk t

/-- Every step keeps: ERR = 1 exactly when an error is recorded, ERR_INFO = 0 without INFO_VALID, only NOP, CLEAR or
FLUSH in CUR while ERR = 1, and DONE = 0 while BUSY = 1 (10_state R23, R24; 20_memory R63; 60_exceptions R114). -/
def Obligations.ErrorRecordStaysConsistent : Prop :=
  ∀ s t : State, ErrorOk s → step s = .next t → ErrorOk t

/-- Every step keeps FREQ and CODE within the 257 symbols and the arena within its 513 entries (10_state R34, R35, R37),
and the lists that hold FREQ and CODE in canonical form, which is the model's own representation (DESIGN CHOICE, log
entry 16). -/
def Obligations.MemoriesStayCanonical : Prop :=
  ∀ s t : State, MemoryOk s → TreeInv s → step s = .next t → MemoryOk t

/-- Every step keeps the tree invariant (10_state R36). -/
def Obligations.TreeStaysATree : Prop :=
  ∀ s t : State, TreeInv s → step s = .next t → TreeInv t

/-- Every step keeps the code table that of the arena's tree (10_state R38). -/
def Obligations.CodesStayThoseOfTheTree : Prop :=
  ∀ s t : State, CodeInv s → step s = .next t → CodeInv t

/-- The invariant holds right after reset (10_state R42). -/
def Obligations.ResetMeetsInvariant : Prop := Inv State.reset

/-- The block never retracts a byte the sink has taken: what the port has seen only grows, through every command, a
CLEAR, and a reset that aborts a command (20_memory R61, 70_reset R122). -/
def Obligations.SinkNeverRetracts : Prop :=
  ∀ s t : State, step s = .next t → portSeen s <+: portSeen t

/-! ## The control commands -/

/-- NOP completes and changes nothing else, in every state (40_control R84). -/
def Obligations.NopCompletes : Prop :=
  ∀ s : State, exec .nop s = .next s.completed

/-- CLEAR completes in every state. The datapath, the error and the flags of R85 are 0, the source is rewound, OUT is
empty with its partial byte lost and nothing more at the port; CTRL, IRQ_STATUS but DONE_IRQ, CMD_DROPPED and MAGIC
stay (40_control R85). -/
def Obligations.ClearCompletes : Prop :=
  ∀ s : State, exec .clear s = .next
    ({ s with
        freq := []
        code := []
        nodeCount := 0#10
        root := 0#10
        leafCount := 0#9
        hdrBits := 0#32
        result := ⟨false, 0#9⟩
        status := ⟨s.status.done, false, false, false, false, false, false, false, s.status.cmdDropped⟩
        err := ⟨0#8, false, 0#32⟩
        source := s.source.rewind
        sink := ⟨[], s.sink.port⟩ } : State).completed

/-! ## The frequency counter -/

/-- COUNT completes when no byte value occurs 2^32 times: FREQ holds the number of occurrences of each byte, 1 for 256
and nothing else, their sum is |SRC|, the source is read to its end, and nothing else changes (41_count R86, R87). -/
def Obligations.CountCountsBytes : Prop :=
  ∀ s : State, (∀ b : Byte, s.source.rewind.bytes.count b < 2 ^ 32) →
    ∃ freq, exec .count s =
        .next ({ s with freq := freq, source := s.source.rewind.exhausted } : State).completed ∧
      (∀ b : Byte, (freqAt freq b.toNat).toNat = s.source.rewind.bytes.count b) ∧
      freqAt freq 256 = 1#32 ∧ (∀ k, 256 < k → freqAt freq k = 0#32) ∧
      ((List.range 256).map (fun k => (freqAt freq k).toNat)).sum = s.source.rewind.bytes.length ∧
      (∀ k, freqAt freq k ≠ 0#32 ↔ k = 256 ∨ ∃ b ∈ s.source.rewind.bytes, b.toNat = k)

/-- COUNT meets the 2^32-th copy of a byte: COUNT_OVERFLOW with the byte as ERR_INFO, the counts of the bytes before
it kept, FREQ[256] = 0, and RP after the offending byte. COMPRESS on an open sink ends so too, and has flushed and closed
the sink with no data bit (41_count R86, 47_macro R106). -/
def Obligations.CountOverflows : Prop :=
  ∀ (s : State) (pre : List Byte) (b : Byte) (post : List Byte), s.source.rewind.bytes = pre ++ b :: post →
    pre.count b = 2 ^ 32 - 1 → (∀ c : Byte, pre.count c < 2 ^ 32) →
    ∃ freq, exec .count s =
        .next (({ s with freq := freq, source := s.source.rewind.consumed (8 * (pre.length + 1)) } : State).errored
          0x20#8 (some (b.setWidth 32))) ∧
      (∀ c : Byte, (freqAt freq c.toNat).toNat = pre.count c) ∧ freqAt freq 256 = 0#32 ∧
      (s.status.sinkClosed = false → ∃ snk, exec .compress s =
          .next (({ s with
              freq := freq
              source := s.source.rewind.consumed (8 * (pre.length + 1))
              sink := snk
              status := { s.status with sinkClosed := true } } : State).errored 0x20#8 (some (b.setWidth 32))) ∧
        s.sink.wroteAndClosed [] snk)

/-! ## The tree builder -/

/-- BUILD completes when FREQ[256] ≠ 0, with the tree of R91 (a)–(d): leaves first in ascending symbol order, one per
non-zero count (a dummy 0 first when there is only 256), then the internal nodes, each with smaller children and the
exact sum of their weights; ROOT the last, its weight the sum of FREQ; and the flags (42_build R89, R91). -/
def Obligations.BuildMakesTree : Prop :=
  ∀ s : State, freqAt s.freq 256 ≠ 0#32 →
    ∃ t n L, exec .build s = .next t ∧
      t = ({ s with
              arena := t.arena
              nodeCount := BitVec.ofNat 10 n
              root := BitVec.ofNat 10 (n - 1)
              leafCount := BitVec.ofNat 9 L
              status := { s.status with treeValid := true, treeSrc := false, codesValid := false } } : State).completed ∧
      2 ≤ L ∧ L ≤ 257 ∧ n = 2 * L - 1 ∧ TreeOk t ∧
      (List.range L).map (fun i => (t.node i).sym.toNat) =
        (let used := (List.range 257).filter (fun k => freqAt s.freq k != 0#32)
         if used.length = 1 then [0, 256] else used) ∧
      (∀ i, i < L → (t.node i).leaf = true ∧ (t.node i).l = 0#10 ∧ (t.node i).r = 0#10 ∧
        (t.node i).w.toNat = (freqAt s.freq (t.node i).sym.toNat).toNat) ∧
      (∀ i, L ≤ i → i < n → (t.node i).leaf = false ∧ (t.node i).sym = 0#9 ∧
        (t.node i).l.toNat < i ∧ (t.node i).r.toNat < i ∧
        (t.node i).w.toNat = (t.node (t.node i).l.toNat).w.toNat + (t.node (t.node i).r.toNat).w.toNat) ∧
      (t.node (n - 1)).w.toNat = ((List.range 257).map (fun k => (freqAt s.freq k).toNat)).sum

/-- ExtractMin takes the element with the least (weight, index), and the merge loop makes each internal node from the
two elements it extracts, the first as left child, and inserts it (42_build R88, R89). -/
def Obligations.MergeTakesTheTwoLeast : Prop :=
  (∀ pq : List Key, pq ≠ [] → ∃ k, extractMin pq = some (k, pq.erase k) ∧ k ∈ pq ∧
    ∀ x ∈ pq, x = k ∨ k.w.toNat < x.w.toNat ∨ (k.w = x.w ∧ k.i < x.i)) ∧
  (∀ (turns : Nat) (nodes : List Node) (pq : List Key), 2 ≤ pq.length → ∃ a b pq1 pq2,
    extractMin pq = some (a, pq1) ∧ extractMin pq1 = some (b, pq2) ∧
    mergeLoop (turns + 1) nodes pq =
      mergeLoop turns (nodes ++ [⟨false, 0#9, a.w + b.w, BitVec.ofNat 10 a.i, BitVec.ofNat 10 b.i⟩])
        (⟨a.w + b.w, nodes.length⟩ :: pq2)) ∧
  (∀ s t : State, freqAt s.freq 256 ≠ 0#32 → exec .build s = .next t →
    t.arena.take t.nodeCount.toNat =
      (mergeLoop t.leafCount.toNat (t.arena.take t.leafCount.toNat)
        ((t.arena.take t.leafCount.toNat).mapIdx (fun i n => ⟨n.w, i⟩))).1)

/-- BUILD with FREQ[256] = 0 ends with BAD_FREQ(256) and changes nothing; with FREQ[256] alone non-zero it makes the
dummy leaf and the tree of three nodes (42_build R89, R90). -/
def Obligations.BuildCorners : Prop :=
  (∀ s : State, freqAt s.freq 256 = 0#32 → exec .build s = .next (s.errored 0x21#8 (some 256#32))) ∧
  (∀ s : State, freqAt s.freq 256 ≠ 0#32 → (∀ k, k < 256 → freqAt s.freq k = 0#32) →
    ∃ t, exec .build s = .next t ∧ t.status.done = true ∧
      t.nodeCount = 3#10 ∧ t.root = 2#10 ∧ t.leafCount = 2#9 ∧
      t.node 0 = ⟨true, 0#9, 0#64, 0#10, 0#10⟩ ∧
      t.node 1 = ⟨true, 256#9, (freqAt s.freq 256).setWidth 64, 0#10, 0#10⟩ ∧
      t.node 2 = ⟨false, 0#9, (freqAt s.freq 256).setWidth 64, 0#10, 1#10⟩)

/-! ## The code table -/

/-- GENCODES completes on a valid tree: the last leaf of a symbol, left subtrees first, gives the symbol its path as
codeword, a symbol with no leaf has none, and nothing else changes but CODES_VALID (43_codegen R92). -/
def Obligations.GencodesWritesPaths : Prop :=
  ∀ (s : State) (tr : Machine.Tree), s.status.treeValid = true → s.tree = some tr → tr.leaves ≤ 257 →
    ∃ code, exec .gencodes s =
        .next ({ s with code := code, status := { s.status with codesValid := true } } : State).completed ∧
      (∀ (earlier later : List (Sym × List Bool)) (sym : Sym) (path : List Bool),
        tr.paths = earlier ++ (sym, path) :: later → (∀ p ∈ later, p.1 ≠ sym) →
        (codeAt code sym.toNat).len.toNat = path.length ∧ (codeAt code sym.toNat).val.toNat = natOfBits path ∧
        (codeAt code sym.toNat).bits = path) ∧
      (∀ k, (∀ sym ∈ tr.symbols, sym.toNat ≠ k) → codeAt code k = ⟨0#9, 0#256⟩)

/-- While CODES_VALID = 1: no codeword is a prefix of another, none is longer than L − 1 ≤ 256, a symbol has one
exactly when a leaf has the symbol, and a walk along it reaches a leaf of its symbol (10_state R38; 43_codegen R93
(a), (c), (d); 46_decode R102). -/
def Obligations.CodewordsAreAPrefixCode : Prop :=
  ∀ s : State, MemoryOk s → TreeInv s → CodeInv s → s.status.codesValid = true →
    (∀ a b, s.codeword a ≠ [] → s.codeword a <+: s.codeword b → a = b) ∧
    (∀ a, (s.codeword a).length + 1 ≤ s.leafCount.toNat ∨ s.codeword a = []) ∧ s.leafCount.toNat ≤ 257 ∧
    (∀ a, s.codeword a ≠ [] ↔ ∃ tr, s.tree = some tr ∧ ∃ sym ∈ tr.symbols, sym.toNat = a) ∧
    (∀ a more, s.codeword a ≠ [] → s.source.rest = s.codeword a ++ more →
      s.walkSym = (some (BitVec.ofNat 9 a),
        { s with source := s.source.consumed (s.codeword a).length, result := ⟨true, BitVec.ofNat 9 a⟩ }))

/-- Kraft equality: with distinct leaf symbols the codewords fill the code space (43_codegen R93 (b)). -/
def Obligations.KraftEquality : Prop :=
  ∀ (s : State) (tr : Machine.Tree), MemoryOk s → TreeInv s → CodeInv s → s.status.codesValid = true →
    s.tree = some tr → tr.symbols.Nodup →
    ((List.range 257).map (fun k => if s.codeword k = [] then 0 else 2 ^ (256 - (s.codeword k).length))).sum = 2 ^ 256

/-! ## The header -/

/-- WRITE_MAGIC completes on an open sink: HUFF_MAGIC as 32 bits, so in big-endian byte order, and nothing else
(44_header R94, 20_memory R51). -/
def Obligations.WriteMagicCompletes : Prop :=
  ∀ s : State, s.status.sinkClosed = false →
    ∃ snk, exec .writeMagic s = .next ({ s with sink := snk } : State).completed ∧
      s.sink.wrote
        (bitsOfBytes [s.magic.extractLsb' 24 8, s.magic.extractLsb' 16 8, s.magic.extractLsb' 8 8,
          s.magic.extractLsb' 0 8]) snk

/-- WRITE_TREE completes on a valid tree and an open sink: the pre-order string T(ROOT) of 11·L − 1 bits, HDR_BITS
that count, and nothing else (44_header R95, 30_encoding R74, R76). -/
def Obligations.WriteTreeCompletes : Prop :=
  ∀ (s : State) (tr : Machine.Tree), s.status.treeValid = true → s.status.sinkClosed = false → s.tree = some tr →
    tr.serialize.length = 11 * tr.leaves - 1 ∧
    ∃ snk, exec .writeTree s =
        .next ({ s with sink := snk, hdrBits := BitVec.ofNat 32 (11 * tr.leaves - 1) } : State).completed ∧
      s.sink.wrote tr.serialize snk

/-- READ_MAGIC reads 32 bits where RP stands: too few bits left is BAD_MAGIC without a value, other bits BAD_MAGIC
with them, and HUFF_MAGIC completes with MAGIC_OK (44_header R96). -/
def Obligations.ReadMagicChecks : Prop :=
  ∀ s : State,
    exec .readMagic s = .next
      (if s.source.rest.length < 32 then
        ({ s with source := s.source.exhausted, status := { s.status with magicOk := false } } : State).errored
          0x01#8 none
      else if natOfBits (s.source.rest.take 32) = s.magic.toNat then
        ({ s with source := s.source.consumed 32, status := { s.status with magicOk := true } } : State).completed
      else
        ({ s with source := s.source.consumed 32, status := { s.status with magicOk := false } } : State).errored
          0x01#8 (some (BitVec.ofNat 32 (natOfBits (s.source.rest.take 32)))))

/-- READ_TREE completes where the source holds the string of a tree of 2 to 257 leaves with symbols up to 256: that
tree, its entries numbered in pre-order with weight 0, the counts, HDR_BITS, and the flags (44_header R97). -/
def Obligations.ReadTreeReadsTree : Prop :=
  ∀ (s : State) (l r : Machine.Tree) (more : List Bool),
    s.source.rest = (Machine.Tree.node l r).serialize ++ more →
    (∀ sym ∈ (Machine.Tree.node l r).symbols, sym.toNat ≤ 256) → (Machine.Tree.node l r).leaves ≤ 257 →
    ∃ t n L, exec .readTree s = .next t ∧ L = (Machine.Tree.node l r).leaves ∧ n = 2 * L - 1 ∧
      t = ({ s with
              arena := t.arena
              source := s.source.consumed (11 * L - 1)
              nodeCount := BitVec.ofNat 10 n
              root := 0#10
              leafCount := BitVec.ofNat 9 L
              hdrBits := BitVec.ofNat 32 (11 * L - 1)
              status :=
                { s.status with treeValid := true, treeSrc := true, codesValid := false, eofSeen := false } } :
            State).completed ∧
      t.tree = some (.node l r) ∧ visitOrder t.node walkDepth 0 = List.range n ∧
      (∀ i, i < n → (t.node i).w = 0#64 ∧ ((t.node i).leaf = true → (t.node i).l = 0#10 ∧ (t.node i).r = 0#10) ∧
        ((t.node i).leaf = false → (t.node i).sym = 0#9))

/-- READ_TREE refuses a bad header where it goes wrong, whatever follows, with NODE_COUNT, LEAF_COUNT, HDR_BITS, RP and
the flags as they stand at the raise. After the nodes of an open header: a source that ends there or inside a leaf is
MALFORMED_HEADER (a leaf whose tag was read is allocated); any 514th tag bit is HDR_CAPACITY; a leaf value above 256 is
HDR_BAD_SYMBOL with the value. A tree of one leaf is DEGENERATE_TREE with its symbol. Any bits are one of these, or the
header of a tree that fits (44_header R97). -/
def Obligations.ReadTreeRefusesBadHeaders : Prop :=
  (∀ (s : State) (nodes : List (Option Sym)) (part : List Bool), HeaderOpen nodes →
    s.source.rest = headerBits nodes ++ part → (part = [] ∨ (part.head? = some true ∧ part.length < 10)) →
    nodes.length + min 1 part.length ≤ 513 →
    ∃ arena, exec .readTree s = .next
      (s.headerRefused s.source.exhausted arena (nodes.length + min 1 part.length) (leafValues nodes).length
        ((headerBits nodes).length + part.length) 0x02#8 none)) ∧
  (∀ (s : State) (nodes : List (Option Sym)) (b : Bool) (more : List Bool), HeaderOpen nodes → nodes.length = 513 →
    s.source.rest = headerBits nodes ++ b :: more →
    ∃ arena, exec .readTree s = .next
      (s.headerRefused (s.source.consumed ((headerBits nodes).length + 1)) arena 513 (leafValues nodes).length
        ((headerBits nodes).length + 1) 0x30#8 none)) ∧
  (∀ (s : State) (nodes : List (Option Sym)) (v : Sym) (more : List Bool), HeaderOpen nodes → nodes.length < 513 →
    s.source.rest = headerBits nodes ++ (true :: binOf 9 v.toNat ++ more) → 256 < v.toNat →
    ∃ arena, exec .readTree s = .next
      (s.headerRefused (s.source.consumed ((headerBits nodes).length + 10)) arena (nodes.length + 1)
        (leafValues nodes).length ((headerBits nodes).length + 10) 0x31#8 (some (v.setWidth 32)))) ∧
  (∀ (s : State) (v : Sym) (more : List Bool), s.source.rest = true :: binOf 9 v.toNat ++ more → v.toNat ≤ 256 →
    ∃ arena, exec .readTree s = .next
      (s.headerRefused (s.source.consumed 10) arena 1 1 10 0x32#8 (some (v.setWidth 32)))) ∧
  (∀ bits : List Bool,
    (∃ (tr : Machine.Tree) (more : List Bool), bits = tr.serialize ++ more ∧
      (∀ sym ∈ tr.symbols, sym.toNat ≤ 256) ∧ tr.leaves ≤ 257) ∨
    ∃ (nodes : List (Option Sym)) (more : List Bool), HeaderOpen nodes ∧ bits = headerBits nodes ++ more ∧
      (((more = [] ∨ (more.head? = some true ∧ more.length < 10)) ∧ nodes.length + min 1 more.length ≤ 513) ∨
        (nodes.length = 513 ∧ more ≠ []) ∨
        (nodes.length < 513 ∧ ∃ (v : Sym) (behind : List Bool),
          more = true :: binOf 9 v.toNat ++ behind ∧ 256 < v.toNat)))

/-- Header round-trip: where the source holds the bits WRITE_TREE appended, READ_TREE completes with the same shape and
symbols, and GENCODES gives the identical CODE table on both (44_header R98). -/
def Obligations.HeaderRoundTrips : Prop :=
  ∀ (s s1 u : State) (more : List Bool), MemoryOk s → TreeInv s → s.status.treeValid = true →
    s.status.sinkClosed = false → exec .writeTree s = .next s1 →
    u.source.rest = s1.sink.out.drop s.sink.out.length ++ more →
    ∃ u1 g g1, exec .readTree u = .next u1 ∧ u1.status.treeValid = true ∧ u1.tree = s.tree ∧
      exec .gencodes s1 = .next g ∧ exec .gencodes u1 = .next g1 ∧ g1.code = g.code

/-! ## The encoding engine -/

/-- ENC_SYM with a valid code table and an open sink appends the symbol's codeword and changes nothing else; a symbol
without one is NO_CODEWORD with nothing written; an operand above 256 is illegal (45_encode R99). -/
def Obligations.EncSymAppendsCodeword : Prop :=
  ∀ (s : State) (sym : Sym),
    (256 < sym.toNat → exec (.encSym sym) s = .next (s.errored 0x10#8 (some (encode (.encSym sym))))) ∧
    (sym.toNat ≤ 256 → s.status.codesValid = true → s.status.sinkClosed = false →
      ((codeAt s.code sym.toNat).len = 0#9 →
        exec (.encSym sym) s = .next (s.errored 0x22#8 (some (sym.setWidth 32)))) ∧
      ((codeAt s.code sym.toNat).len ≠ 0#9 →
        ∃ snk, exec (.encSym sym) s = .next ({ s with sink := snk } : State).completed ∧
          s.sink.wrote (s.codeword sym.toNat) snk))

/-- ENCODE completes when every byte of the source and 256 have a codeword: the payload is appended, the source is read
to its end, and nothing else changes (45_encode R100, 30_encoding R75). -/
def Obligations.EncodeWritesPayload : Prop :=
  ∀ s : State, s.status.codesValid = true → s.status.sinkClosed = false →
    (∀ b ∈ s.source.rewind.bytes, s.codeword b.toNat ≠ []) → s.codeword 256 ≠ [] →
    ∃ snk, exec .encode s =
        .next ({ s with sink := snk, source := s.source.rewind.exhausted } : State).completed ∧
      s.sink.wrote (s.payload s.source.rewind.bytes) snk

/-- ENCODE meets a byte with no codeword, or 256 has none: NO_CODEWORD with the symbol, the codewords before it
already written, and RP after what was read. COMPRESS on an open sink ends as its six components run in order, with their
error if one raises, so with this one where a source that changed between the passes brings ENCODE to such a byte; the
sink is then flushed and closed (45_encode R100; 47_macro R106; 70_reset R125). -/
def Obligations.EncodeStopsAtMissingCodeword : Prop :=
  (∀ (s : State) (pre : List Byte) (b : Byte) (post : List Byte), s.status.codesValid = true →
    s.status.sinkClosed = false → s.source.rewind.bytes = pre ++ b :: post →
    (∀ c ∈ pre, s.codeword c.toNat ≠ []) → s.codeword b.toNat = [] →
    ∃ snk, exec .encode s =
        .next (({ s with sink := snk, source := s.source.rewind.consumed (8 * (pre.length + 1)) } : State).errored
          0x22#8 (some (b.setWidth 32))) ∧
      s.sink.wrote (pre.flatMap (fun c => s.codeword c.toNat)) snk) ∧
  (∀ s : State, s.status.codesValid = true → s.status.sinkClosed = false →
    (∀ c ∈ s.source.rewind.bytes, s.codeword c.toNat ≠ []) → s.codeword 256 = [] →
    ∃ snk, exec .encode s =
        .next (({ s with sink := snk, source := s.source.rewind.exhausted } : State).errored 0x22#8 (some 256#32)) ∧
      s.sink.wrote (s.source.rewind.bytes.flatMap (fun c => s.codeword c.toNat)) snk) ∧
  (∀ s : State, s.status.sinkClosed = false →
    EndsAsItsParts .compress [.count, .build, .gencodes, .writeMagic, .writeTree, .encode] s s)

/-- FLUSH completes in every state: an open sink is filled with zero bits to a byte boundary and closed, with the last
byte and then the close at the port; on a closed sink nothing happens (45_encode R101, 20_memory R48). -/
def Obligations.FlushPadsAndCloses : Prop :=
  ∀ s : State,
    (s.status.sinkClosed = true → exec .flush s = .next s.completed) ∧
    (s.status.sinkClosed = false →
      ∃ snk, exec .flush s =
          .next ({ s with sink := snk, status := { s.status with sinkClosed := true } } : State).completed ∧
        s.sink.wroteAndClosed [] snk)

/-! ## The decoder -/

/-- DEC_SYM completes where the source holds the path of a leaf: RESULT and RP move on; the pseudo-EOF leaf sets
EOF_SEEN and writes nothing, another symbol is one output byte (46_decode R102, R103). -/
def Obligations.DecSymDecodesOneSymbol : Prop :=
  ∀ (s : State) (tr : Machine.Tree) (path more : List Bool) (sym : Sym), TreeOk s → s.status.treeValid = true →
    s.status.sinkClosed = false → s.tree = some tr → tr.isPath path sym = true → s.source.rest = path ++ more →
    (sym.toNat = 256 →
      exec .decSym s = .next
        ({ s with
            source := s.source.consumed path.length
            result := ⟨true, sym⟩
            status := { s.status with eofSeen := true } } : State).completed) ∧
    (sym.toNat ≠ 256 →
      ∃ snk, exec .decSym s = .next
          ({ s with
              source := s.source.consumed path.length
              result := ⟨true, sym⟩
              sink := snk
              status := { s.status with eofSeen := false } } : State).completed ∧
        s.sink.wrote (bitsOfBytes [sym.setWidth 8]) snk)

/-- DECODE completes where the source holds the paths of byte leaves and then of a pseudo-EOF leaf: exactly those
bytes, RP just after, RESULT 256 and EOF_SEEN; what follows is not read (46_decode R104). -/
def Obligations.DecodeStopsAtPseudoEof : Prop :=
  ∀ (s : State) (tr : Machine.Tree) (words : List (Byte × List Bool)) (eof more : List Bool),
    s.status.treeValid = true → TreeOk s → s.status.sinkClosed = false → s.tree = some tr →
    (∀ w ∈ words, tr.isPath w.2 (w.1.setWidth 9) = true) → tr.isPath eof 256#9 = true →
    s.source.rest = words.flatMap Prod.snd ++ (eof ++ more) →
    ∃ snk, exec .decode s = .next
        ({ s with
            source := s.source.consumed ((words.flatMap Prod.snd).length + eof.length)
            result := ⟨true, 256#9⟩
            sink := snk
            status := { s.status with eofSeen := true } } : State).completed ∧
      s.sink.wrote (bitsOfBytes (words.map Prod.fst)) snk

/-- Decoding inverts encoding: where the source holds the payload of a byte sequence under the code table of the
arena's tree, DECODE writes exactly these bytes and leaves RP just after the payload (46_decode R105). -/
def Obligations.DecodeInvertsEncode : Prop :=
  ∀ (s : State) (bytes : List Byte) (more : List Bool), MemoryOk s → TreeInv s → CodeInv s →
    s.status.codesValid = true → s.status.sinkClosed = false →
    (∀ b ∈ bytes, s.codeword b.toNat ≠ []) → s.codeword 256 ≠ [] → s.source.rest = s.payload bytes ++ more →
    ∃ snk, exec .decode s = .next
        ({ s with
            source := s.source.consumed (s.payload bytes).length
            result := ⟨true, 256#9⟩
            sink := snk
            status := { s.status with eofSeen := true } } : State).completed ∧
      s.sink.wrote (bitsOfBytes bytes) snk

/-- A source that ends inside a path is TRUNCATED_STREAM: DEC_SYM writes nothing and leaves RESULT, DECODE has written
the bytes it decoded before (46_decode R102, R103, R104). -/
def Obligations.DecodingRunsOutOfBits : Prop :=
  (∀ (s : State) (tr : Machine.Tree) (missing : List Bool) (sym : Sym), s.status.treeValid = true → TreeOk s →
    s.status.sinkClosed = false → s.tree = some tr → tr.isPath (s.source.rest ++ missing) sym = true → missing ≠ [] →
    exec .decSym s = .next
      (({ s with source := s.source.exhausted, status := { s.status with eofSeen := false } } : State).errored
        0x03#8 none)) ∧
  (∀ (s : State) (tr : Machine.Tree) (words : List (Byte × List Bool)) (last missing : List Bool) (sym : Sym),
    s.status.treeValid = true → TreeOk s → s.status.sinkClosed = false → s.tree = some tr →
    (∀ w ∈ words, tr.isPath w.2 (w.1.setWidth 9) = true) → tr.isPath (last ++ missing) sym = true → missing ≠ [] →
    s.source.rest = words.flatMap Prod.snd ++ last →
    ∃ snk t, exec .decode s = .next t ∧
      t = (({ s with
              source := s.source.exhausted
              result := t.result
              sink := snk
              status := { s.status with eofSeen := false } } : State).errored 0x03#8 none) ∧
      (words = [] → t.result = s.result) ∧
      (∀ w, words.getLast? = some w → t.result = ⟨true, w.1.setWidth 9⟩) ∧
      s.sink.wrote (bitsOfBytes (words.map Prod.fst)) snk)

/-! ## The whole-stream operations -/

/-- COMPRESS completes on an open sink when the source is stable and no byte value occurs 2^32 times. OUT grows by the
magic, the tree, the payload and the pad of R73, the sink is closed, and the flags are those of R106. FREQ counts the
source, the tree is the one BUILD makes of these counts, CODE holds its codewords, and each codeword of the payload is
the path of its symbol (47_macro R106, 30_encoding R73, R75). -/
def Obligations.CompressWritesStream : Prop :=
  ∀ s : State, s.status.sinkClosed = false → s.stable = true →
    (∀ b : Byte, s.source.bytes.count b < 2 ^ 32) →
    ∃ t tr, exec .compress s = .next t ∧
      t.status = { s.status with done := true, treeValid := true, treeSrc := false, codesValid := true, sinkClosed := true } ∧
      t.err = s.err ∧ t.irq = { s.irq with doneIrq := true } ∧ t.seq = .idle ∧
      t.source = s.source.exhausted ∧ t.hdrBits = BitVec.ofNat 32 (11 * tr.leaves - 1) ∧
      t.tree = some tr ∧ TreeOk t ∧ CodeInv t ∧
      (∀ b : Byte, (freqAt t.freq b.toNat).toNat = s.source.bytes.count b) ∧ freqAt t.freq 256 = 1#32 ∧
      (∃ built, exec .build { s with freq := t.freq } = .next built ∧ built.status.done = true ∧
        built.tree = some tr ∧ t.arena = built.arena ∧ t.nodeCount = built.nodeCount ∧ t.root = built.root ∧
        t.leafCount = built.leafCount) ∧
      (∀ b ∈ s.source.bytes, t.codeword b.toNat ≠ [] ∧ tr.isPath (t.codeword b.toNat) (b.setWidth 9) = true) ∧
      t.codeword 256 ≠ [] ∧ tr.isPath (t.codeword 256) 256#9 = true ∧
      s.sink.wroteAndClosed (binOf 32 s.magic.toNat ++ (tr.serialize ++ t.payload s.source.bytes)) t.sink

/-- DECOMPRESS completes on an open sink where the source is a compressed stream: the bytes of the payload are written,
the sink is padded and closed, and the flags are those of R107; what follows the pseudo-EOF is not read
(47_macro R107). -/
def Obligations.DecompressReadsStream : Prop :=
  ∀ (s : State) (l r : Machine.Tree) (words : List (Byte × List Bool)) (eof more : List Bool),
    s.status.sinkClosed = false →
    bitsOfBytes s.source.rewind.bytes =
      binOf 32 s.magic.toNat ++ ((Machine.Tree.node l r).serialize ++ (words.flatMap Prod.snd ++ (eof ++ more))) →
    (∀ sym ∈ (Machine.Tree.node l r).symbols, sym.toNat ≤ 256) → (Machine.Tree.node l r).leaves ≤ 257 →
    (∀ w ∈ words, (Machine.Tree.node l r).isPath w.2 (w.1.setWidth 9) = true) →
    (Machine.Tree.node l r).isPath eof 256#9 = true →
    ∃ t, exec .decompress s = .next t ∧
      t.status =
        { s.status with
          done := true, magicOk := true, treeValid := true, treeSrc := true, eofSeen := true, sinkClosed := true,
          codesValid := false } ∧
      t.err = s.err ∧ t.irq = { s.irq with doneIrq := true } ∧ t.seq = .idle ∧ t.tree = some (.node l r) ∧
      t.result = ⟨true, 256#9⟩ ∧ t.freq = s.freq ∧ t.code = s.code ∧
      t.source = s.source.rewind.consumed
        (32 + (11 * (Machine.Tree.node l r).leaves - 1) + (words.flatMap Prod.snd).length + eof.length) ∧
      s.sink.wroteAndClosed (bitsOfBytes (words.map Prod.fst)) t.sink

/-- DECOMPRESS on a source that does not begin with HUFF_MAGIC ends with BAD_MAGIC, without a value below 4 bytes and
with the first 32 bits else; the sink is flushed and closed with no data bit, and no tree is touched. On every source it
ends as READ_MAGIC, READ_TREE and DECODE run in order from the rewind, with their error if one raises, and the sink is
then flushed and closed. That EOF_SEEN is 0 at the start is the model's reading of 10_state R21, log entry 12
(47_macro R107, 44_header R96). -/
def Obligations.DecompressRejectsBadMagic : Prop :=
  ∀ s : State, s.status.sinkClosed = false →
    EndsAsItsParts .decompress [.readMagic, .readTree, .decode]
      { s with source := s.source.rewind, status := { s.status with eofSeen := false } } s ∧
    (s.source.rewind.bytes.length < 4 →
      ∃ snk, exec .decompress s = .next
          (({ s with
              source := s.source.rewind.exhausted
              sink := snk
              status := { s.status with magicOk := false, eofSeen := false, sinkClosed := true } } : State).errored 0x01#8 none) ∧
        s.sink.wroteAndClosed [] snk) ∧
    (∀ (v : Word) (more : List Bool), bitsOfBytes s.source.rewind.bytes = binOf 32 v.toNat ++ more → v ≠ s.magic →
      ∃ snk, exec .decompress s = .next
          (({ s with
              source := s.source.rewind.consumed 32
              sink := snk
              status := { s.status with magicOk := false, eofSeen := false, sinkClosed := true } } : State).errored 0x01#8 (some v)) ∧
        s.sink.wroteAndClosed [] snk)

/-- Round-trip: COMPRESS from a stable source into an empty open sink gives whole bytes C; bound as the source of any
block with the same HUFF_MAGIC, CLEAR and DECOMPRESS write exactly the bytes compressed, with no error
(47_macro R108, 00_scope R5). -/
def Obligations.CompressionRoundTrips : Prop :=
  ∀ (s u : State), s.status.sinkClosed = false → s.stable = true → s.sink.out = [] →
    (∀ b : Byte, s.source.bytes.count b < 2 ^ 32) →
    ∃ (t c v : State) (stream : List Byte), exec .compress s = .next t ∧ t.status.err = s.status.err ∧
      t.sink.out = bitsOfBytes stream ∧ t.sink.port = s.sink.port ++ stream.map .byte ++ [.close] ∧
      (u.source.bytes = stream → u.source.later = [] → u.magic = s.magic →
        exec .clear u = .next c ∧ exec .decompress c = .next v ∧ v.status.err = false ∧ v.status.done = true ∧
        v.sink.out = bitsOfBytes s.source.bytes ∧
        v.sink.port = u.sink.port ++ s.source.bytes.map .byte ++ [.close])

/-- Truncation: DECOMPRESS on the first k bytes of a stream that a COMPRESS without error made into an empty sink, k
below its length, ends with BAD_MAGIC without a value inside the magic, MALFORMED_HEADER inside the tree, and
TRUNCATED_STREAM otherwise (47_macro R109). -/
def Obligations.TruncatedStreamsFail : Prop :=
  ∀ (s t u : State) (stream : List Byte) (k : Nat), s.sink.out = [] → exec .compress s = .next t →
    t.status.done = true → t.sink.out = bitsOfBytes stream →
    k < stream.length → u.status.sinkClosed = false → u.source.rewind.bytes = stream.take k → u.magic = s.magic →
    ∃ v, exec .decompress u = .next v ∧ v.status.err = true ∧ v.err =
      if 8 * k < 32 then ⟨0x01#8, false, 0#32⟩
      else if 8 * k < 32 + t.hdrBits.toNat then ⟨0x02#8, false, 0#32⟩
      else ⟨0x03#8, false, 0#32⟩

/-! ## Frames -/

/-- The memories: FREQ changes only under CLEAR, COUNT, COMPRESS; CODE only under CLEAR, GENCODES, COMPRESS; a NODE
entry only under BUILD, READ_TREE, COMPRESS, DECOMPRESS, and none from the NODE_COUNT they leave upwards
(10_state R34, R35, R37). -/
def Obligations.FrameOfMemories : Prop :=
  ∀ (i : Instr) (s t : State), exec i s = .next t →
    (i ≠ .clear → i ≠ .count → i ≠ .compress → ∀ k, freqAt t.freq k = freqAt s.freq k) ∧
    (i ≠ .clear → i ≠ .gencodes → i ≠ .compress → ∀ k, codeAt t.code k = codeAt s.code k) ∧
    (i ≠ .build → i ≠ .readTree → i ≠ .compress → i ≠ .decompress → ∀ n, t.node n = s.node n) ∧
    (∀ n, t.nodeCount.toNat ≤ n → t.node n = s.node n)

/-- The registers: NODE_COUNT, ROOT and LEAF_COUNT change only under CLEAR, BUILD, READ_TREE and the macros, HDR_BITS
only under CLEAR, WRITE_TREE, READ_TREE and the macros, RESULT only under CLEAR and the decoding commands; CTRL,
MAGIC and the model's own fields under no command; and each flag changes only under the commands of its row of R21.
COMPRESS and DECOMPRESS leave the sink closed however they end (10_state R19, R21, R22, R25–R30; 40_control R85;
47_macro R106, R107; 70_reset R128). -/
def Obligations.FrameOfRegistersAndFlags : Prop :=
  ∀ (i : Instr) (s t : State), exec i s = .next t →
    t.ctrl = s.ctrl ∧ t.magic = s.magic ∧ t.host = s.host ∧ t.reply = s.reply ∧ t.taken = s.taken ∧
    t.sinkFrom = s.sinkFrom ∧ t.resets = s.resets ∧ t.draws = s.draws ∧
    (i ≠ .clear → i ≠ .build → i ≠ .readTree → i ≠ .compress → i ≠ .decompress →
      t.nodeCount = s.nodeCount ∧ t.root = s.root ∧ t.leafCount = s.leafCount) ∧
    (i ≠ .clear → i ≠ .writeTree → i ≠ .readTree → i ≠ .compress → i ≠ .decompress → t.hdrBits = s.hdrBits) ∧
    (i ≠ .clear → i ≠ .decSym → i ≠ .decode → i ≠ .decompress → t.result = s.result) ∧
    t.status.cmdDropped = s.status.cmdDropped ∧
    (i ≠ .clear → i ≠ .decSym → i ≠ .decode → i ≠ .readTree → i ≠ .decompress →
      t.status.eofSeen = s.status.eofSeen) ∧
    (i ≠ .clear → i ≠ .build → i ≠ .readTree → i ≠ .compress → i ≠ .decompress →
      t.status.treeValid = s.status.treeValid ∧ t.status.treeSrc = s.status.treeSrc) ∧
    (i ≠ .clear → i ≠ .build → i ≠ .readTree → i ≠ .gencodes → i ≠ .compress → i ≠ .decompress →
      t.status.codesValid = s.status.codesValid) ∧
    (i ≠ .clear → i ≠ .readMagic → i ≠ .decompress → t.status.magicOk = s.status.magicOk) ∧
    (i ≠ .clear → i ≠ .flush → i ≠ .compress → i ≠ .decompress → t.status.sinkClosed = s.status.sinkClosed) ∧
    (i = .compress ∨ i = .decompress → t.status.sinkClosed = true) ∧
    (t.status.done = false → t.irq.doneIrq = s.irq.doneIrq) ∧ (t.status.done = true → t.irq.errIrq = s.irq.errIrq)

/-- The streams: only the rewinding commands may be given other bytes or move RP back, only the reading commands move
RP, and only the writing commands add to OUT or the port; nothing but CLEAR takes from OUT. COMPRESS and DECOMPRESS on an
open sink have flushed and closed it however they end, with an error or without (20_memory R43, R46, R47; 47_macro R106,
R107; 70_reset R128). -/
def Obligations.FrameOfStreams : Prop :=
  ∀ (i : Instr) (s t : State), exec i s = .next t →
    (i ≠ .clear → i ≠ .count → i ≠ .encode → i ≠ .compress → i ≠ .decompress →
      t.source.bytes = s.source.bytes ∧ t.source.later = s.source.later ∧
      (s.source.rp ≤ s.source.size → s.source.rp ≤ t.source.rp)) ∧
    (i ≠ .clear → i ≠ .count → i ≠ .encode → i ≠ .compress → i ≠ .decompress → i ≠ .readMagic → i ≠ .readTree →
      i ≠ .decSym → i ≠ .decode → t.source = s.source) ∧
    (i = .nop ∨ i = .count ∨ i = .build ∨ i = .gencodes ∨ i = .readMagic ∨ i = .readTree → t.sink = s.sink) ∧
    (i ≠ .clear → s.sink.out <+: t.sink.out) ∧ s.sink.port <+: t.sink.port ∧
    (i = .compress ∨ i = .decompress → s.status.sinkClosed = false → ∃ bits, s.sink.wroteAndClosed bits t.sink)

/-! ## The register window -/

/-- An access that is not a whole aligned word, reaches no mapped offset, or reaches offset 0x020 or more while
BUSY = 1 is a bus error, and so is a write to a read-only register or window; a bus error and a read change nothing in
the block; and these are the mapped offsets (10_state R17; 20_memory R53, R55, R56). -/
def Obligations.BusErrorsHaveNoEffect : Prop :=
  (∀ (s : State) (off : Offset) (size : AccessSize) (strb : BitVec 4) (v : Word),
    (off.toNat % 4 ≠ 0 ∨ size ≠ .word ∨ strb ≠ 0b1111#4 ∨ regAt off.toNat = none ∨
      (0x020 ≤ off.toNat ∧ s.busy = true)) →
    memRead s off size strb = .busErr ∧ memWrite s off size strb v = (.busErr, s)) ∧
  (∀ (s : State) (off : Offset) (v : Word),
    off.toNat ∉ [0x004, 0x008, 0x010] → ¬ (0x400 ≤ off.toNat ∧ off.toNat < 0x804) →
    busWrite s off v = (.busErr, s)) ∧
  (∀ off : Offset, off.toNat % 4 = 0 →
    (regAt off.toNat ≠ none ↔ off.toNat ≤ 0x040 ∨ (0x400 ≤ off.toNat ∧ off.toNat < 0x804) ∨
      (0x1000 ≤ off.toNat ∧ off.toNat < 0x3010) ∨ (0x4000 ≤ off.toNat ∧ off.toNat < 0x8040))) ∧
  (∀ (s : State) (off : Offset) (size : AccessSize) (strb : BitVec 4) (rest : List HostAction),
    s.host = .read off size strb :: rest →
    step s = .next { s with host := rest, reply := memRead { s with host := rest } off size strb })

/-- What the fixed registers read: their fields at the bits of R18–R32 and 0 elsewhere; the registers from 0x020 up
while BUSY = 0 (10_state R18–R33). -/
def Obligations.RegistersRead : Prop :=
  (∀ s : State,
    busRead s 0x000#16 = .data 0x48554646#32 ∧ busRead s 0x008#16 = .data 0#32 ∧
    busRead s 0x01C#16 = .data s.magic ∧ busRead s 0x018#16 = .data s.err.info ∧
    busRead s 0x004#16 = .data (0#29 ++ BitVec.ofBool s.ctrl.errIe ++ BitVec.ofBool s.ctrl.doneIe ++ 0#1) ∧
    busRead s 0x00C#16 = .data (0#22 ++ BitVec.ofBool s.status.cmdDropped ++ BitVec.ofBool s.status.sinkClosed ++
      BitVec.ofBool s.status.magicOk ++ BitVec.ofBool s.status.codesValid ++ BitVec.ofBool s.status.treeSrc ++
      BitVec.ofBool s.status.treeValid ++ BitVec.ofBool s.status.eofSeen ++ BitVec.ofBool s.status.err ++
      BitVec.ofBool s.status.done ++ BitVec.ofBool s.busy) ∧
    busRead s 0x010#16 = .data (0#30 ++ BitVec.ofBool s.irq.errIrq ++ BitVec.ofBool s.irq.doneIrq) ∧
    busRead s 0x014#16 = .data (0#23 ++ BitVec.ofBool s.err.infoValid ++ s.err.code)) ∧
  (∀ s : State, s.busy = false →
    busRead s 0x020#16 = .data (BitVec.ofBool s.result.valid ++ 0#22 ++ s.result.sym) ∧
    busRead s 0x024#16 = .data (0#22 ++ s.nodeCount) ∧ busRead s 0x028#16 = .data (0#22 ++ s.root) ∧
    busRead s 0x02C#16 = .data (0#23 ++ s.leafCount) ∧ busRead s 0x030#16 = .data s.hdrBits ∧
    busRead s 0x034#16 = .data (BitVec.ofNat 32 s.source.rp) ∧
    busRead s 0x038#16 = .data (BitVec.ofNat 32 (s.source.rp / 2 ^ 32)) ∧
    busRead s 0x03C#16 = .data (BitVec.ofNat 32 s.sink.out.length) ∧
    busRead s 0x040#16 = .data (BitVec.ofNat 32 (s.sink.out.length / 2 ^ 32)))

/-- The writable control registers and the irq line: a CTRL write with SRST = 0 stores the two enables, one with
SRST = 1 resets as the pin does; a 1 written to IRQ_STATUS clears its bit; irq is the OR of the enabled pending bits
(10_state R19, R22; 60_exceptions R117). -/
def Obligations.ControlWritesAndIrq : Prop :=
  (∀ (s : State) (v : Word), v.getLsbD 0 = false →
    busWrite s 0x004#16 v = (.ok, { s with ctrl := ⟨v.getLsbD 1, v.getLsbD 2⟩ })) ∧
  (∀ (s : State) (v : Word) (rest : List HostAction), v.getLsbD 0 = true →
    busWrite s 0x004#16 v = (.ok, softReset s) ∧
    (s.host = .pinReset :: rest → step s = .next (softReset { s with host := rest }))) ∧
  (∀ (s : State) (v : Word),
    busWrite s 0x010#16 v =
      (.ok, { s with irq := ⟨s.irq.doneIrq && !v.getLsbD 0, s.irq.errIrq && !v.getLsbD 1⟩ })) ∧
  (∀ s : State, s.irqLine = true ↔
    (s.irq.doneIrq = true ∧ s.ctrl.doneIe = true) ∨ (s.irq.errIrq = true ∧ s.ctrl.errIe = true))

/-- The FREQ window while BUSY = 0: entry s is the word at 0x400 + 4·s, a read gives it, and a write changes it and
nothing else (10_state R34). -/
def Obligations.FreqWindow : Prop :=
  ∀ (s : State) (k : Nat) (v : Word), MemoryOk s → s.busy = false → k < 257 →
    busRead s (BitVec.ofNat 16 (0x400 + 4 * k)) = .data (freqAt s.freq k) ∧
    ∃ freq, busWrite s (BitVec.ofNat 16 (0x400 + 4 * k)) v = (.ok, { s with freq := freq }) ∧
      freqAt freq k = v ∧ ∀ j, j ≠ k → freqAt freq j = freqAt s.freq j

/-- The NODE window while BUSY = 0: entry i is the four words at 0x1000 + 16·i, and 0 from NODE_COUNT up
(10_state R35). -/
def Obligations.NodeWindow : Prop :=
  ∀ (s : State) (i : Nat), s.busy = false → i < 513 →
    (i < s.nodeCount.toNat →
      busRead s (BitVec.ofNat 16 (0x1000 + 16 * i)) =
        .data (0#7 ++ (s.node i).sym ++ 0#15 ++ BitVec.ofBool (s.node i).leaf) ∧
      busRead s (BitVec.ofNat 16 (0x1000 + 16 * i + 4)) = .data ((s.node i).w.extractLsb' 0 32) ∧
      busRead s (BitVec.ofNat 16 (0x1000 + 16 * i + 8)) = .data ((s.node i).w.extractLsb' 32 32) ∧
      busRead s (BitVec.ofNat 16 (0x1000 + 16 * i + 12)) = .data (0#6 ++ (s.node i).r ++ 0#6 ++ (s.node i).l)) ∧
    (s.nodeCount.toNat ≤ i → ∀ j, j < 4 → busRead s (BitVec.ofNat 16 (0x1000 + 16 * i + 4 * j)) = .data 0#32)

/-- The CODE window while BUSY = 0: entry s is LEN, VAL_0 to VAL_7 and reserved zeros at 0x4000 + 64·s, and every word
is 0 while CODES_VALID = 0 (10_state R37). -/
def Obligations.CodeWindow : Prop :=
  ∀ (s : State) (k : Nat), s.busy = false → k < 257 →
    (s.status.codesValid = true →
      busRead s (BitVec.ofNat 16 (0x4000 + 64 * k)) = .data (0#23 ++ (codeAt s.code k).len) ∧
      (∀ j, j < 8 → busRead s (BitVec.ofNat 16 (0x4000 + 64 * k + 4 + 4 * j)) =
        .data ((codeAt s.code k).val.extractLsb' (32 * j) 32)) ∧
      (∀ j, 9 ≤ j → j < 16 → busRead s (BitVec.ofNat 16 (0x4000 + 64 * k + 4 * j)) = .data 0#32)) ∧
    (s.status.codesValid = false →
      ∀ j, j < 16 → busRead s (BitVec.ofNat 16 (0x4000 + 64 * k + 4 * j)) = .data 0#32)

/-! ## Reset and the host -/

/-- After reset the block is in INIT with STATUS = 1; one step later it is IDLE with the reset values of R42 on the
bus and irq low (10_state R42, 70_reset R121). The source is empty by the model's choice (log entry 4). -/
def Obligations.ResetValues : Prop :=
  busRead State.reset 0x00C#16 = .data 1#32 ∧
  ∃ t, step State.reset = .next t ∧ t.seq = .idle ∧ t.irqLine = false ∧
    (∀ off ∈ [0x004#16, 0x008#16, 0x00C#16, 0x010#16, 0x014#16, 0x018#16, 0x020#16, 0x024#16, 0x028#16, 0x02C#16,
      0x030#16, 0x034#16, 0x038#16, 0x03C#16, 0x040#16], busRead t off = .data 0#32) ∧
    busRead t 0x000#16 = .data 0x48554646#32 ∧ busRead t 0x01C#16 = .data Config.huffMagic ∧
    (∀ k, freqAt t.freq k = 0#32) ∧ (∀ k, codeAt t.code k = ⟨0#9, 0#256⟩) ∧ t.sink.out = [] ∧
    t.status.sinkClosed = false

/-- Reset in any state, also while a command executes: INIT, every register, flag and memory at its reset value, the
source rewound, OUT empty; the sink port keeps what it took, with the first bytes of the aborted command, at least those
seen taken before (how many: free, log entry 9), and no close; no error is recorded (70_reset R121, R122). That the
aborted command's own rewinds used up none of an unstable source is the model's choice (DESIGN CHOICE, log entry 23), and
that INIT's end keeps CTRL, IRQ_STATUS and CMD_DROPPED as they stand is its reading (DEDUCED, log entry 15). -/
def Obligations.ResetFromAnyState : Prop :=
  ∀ s : State,
    (softReset s).seq = .init ∧ (softReset s).ctrl = ⟨false, false⟩ ∧ (softReset s).irq = ⟨false, false⟩ ∧
    (softReset s).status = ⟨false, false, false, false, false, false, false, false, false⟩ ∧
    (softReset s).err = ⟨0#8, false, 0#32⟩ ∧ (softReset s).magic = Config.huffMagic ∧
    (softReset s).result = ⟨false, 0#9⟩ ∧ (softReset s).nodeCount = 0#10 ∧ (softReset s).root = 0#10 ∧
    (softReset s).leafCount = 0#9 ∧ (softReset s).hdrBits = 0#32 ∧ (softReset s).freq = [] ∧
    (softReset s).code = [] ∧ (softReset s).source = s.source.rewind ∧ (softReset s).source.rp = 0 ∧
    (softReset s).sink.out = [] ∧
    (∃ new, (softReset s).sink.port = s.sink.port ++ new ∧ new <+: pendingBytes s ∧
      (pendingBytes s).take s.taken <+: new ∧ .close ∉ new ∧ (s.busy = false → new = [])) ∧
    (softReset s).host = s.host ∧ (softReset s).sinkFrom = s.sinkFrom ∧
    ∀ r : State, r.host = [] → r.seq = .init → step r = .next { r with seq := .idle }

/-- While a command executes or INIT lasts, a move of the host that is no reset and does not let the block proceed
changes nothing but CTRL's enables, IRQ_STATUS, CMD_DROPPED, the bus's answer and the model's own counts: the command's
effects come all at once with its last step (20_memory R63, 70_reset R127). -/
def Obligations.NothingChangesDuringExec : Prop :=
  ∀ (s t : State) (a : HostAction) (rest : List HostAction), s.busy = true → s.host = a :: rest → a ≠ .run →
    a.isReset = false → step s = .next t →
    t = { s with
            ctrl := t.ctrl
            irq := t.irq
            status := { s.status with cmdDropped := t.status.cmdDropped }
            reply := t.reply
            host := rest
            taken := t.taken
            sinkFrom := t.sinkFrom
            draws := t.draws } ∧
    (s.status.cmdDropped = true → t.status.cmdDropped = true)

/-- The host's moves. A write answers what `memWrite` answers and leaves the block as it does. A hold changes nothing but
the model's own counts. Binding a source while BUSY = 0 replaces SRC and keeps RP where the new source
reaches it; while BUSY = 1, or with a source of 2^64 bits or more, it stops (DESIGN CHOICE, log entry 13); what a read
then finds beyond an EOI is log entry 26. Binding a sink changes nothing in the block, and the
new sink has seen nothing. Taking sink bytes, also while a command executes, answers what the bound sink was given: what
came before, and first bytes of that command, at least those seen taken before, with its close only once it has ended (DESIGN
CHOICE, log entry 27). WAIT: a read of STATUS answers BUSY in
bit 0, and the block proceeding ends in BUSY = 0. With no move and no command the block waits (70_reset R124,
30_encoding R78, 20_memory R55, R57, R60, 60_exceptions R120). An address of the window names its low 16 bits, outside the step
(20_memory R44, log entry 19). The moves as such are the model's (log entries 1, 9, 10, 24). -/
def Obligations.HostMoves : Prop :=
  (∀ (s : State) (off : Offset) (size : AccessSize) (strb : BitVec 4) (v : Word) (rest : List HostAction),
    s.host = .write off size strb v :: rest →
    step s = .next
      { (memWrite { s with host := rest } off size strb v).2 with
        reply := (memWrite { s with host := rest } off size strb v).1 }) ∧
  (∀ (s : State) (rest : List HostAction), s.host = .hold :: rest →
    ∃ t, step s = .next t ∧ s.taken ≤ t.taken ∧ (s.busy = false → t.taken = s.taken) ∧
      t = { s with host := rest, taken := t.taken, draws := t.draws }) ∧
  (∀ (s : State) (bytes : List Byte) (later : List (List Byte)) (rest : List HostAction),
    s.host = .bindSource bytes later :: rest →
    (s.busy = true → step s = .fault .sourceBoundWhileBusy) ∧
    (s.busy = false → (sourceFits bytes && later.all sourceFits) = false → step s = .fault .sourceTooLong) ∧
    (s.busy = false → sourceFits bytes = true → later.all sourceFits = true →
      ∃ rp, step s =
          .next { s with host := rest, source := ⟨bytes, later, rp⟩, draws := s.draws + 1 } ∧
        rp ≤ 8 * bytes.length ∧ (s.source.rp ≤ 8 * bytes.length → rp = s.source.rp))) ∧
  (∀ (s : State) (rest : List HostAction), s.host = .bindSink :: rest →
    ∃ t, step s = .next t ∧ sinkSeen t = [] ∧ s.taken ≤ t.taken ∧
      t = { s with host := rest, sinkFrom := t.sinkFrom, taken := t.taken, draws := t.draws }) ∧
  (∀ (s : State) (rest : List HostAction), s.host = .takeSink :: rest →
    ∃ t new, step s = .next t ∧ s.taken ≤ t.taken ∧
      t = { s with
            host := rest
            reply := .sink ((s.sink.port ++ new).drop s.sinkFrom)
            taken := t.taken
            draws := t.draws } ∧
      new <+: pendingBytes s ∧ (pendingBytes s).take s.taken <+: new ∧ (s.busy = false → new = [])) ∧
  (∀ (s : State) (rest : List HostAction), s.host = hostRd 0x00C#16 :: rest →
    step s = .next { s with host := rest, reply := .data s.statusWord } ∧ s.statusWord.getLsbD 0 = s.busy) ∧
  (∀ (s t : State) (rest : List HostAction), s.host = .run :: rest → step s = .next t →
    t.seq = .idle ∧ t.host = rest) ∧
  (∀ s : State, s.host = [] → s.seq = .idle → step s = .next s) ∧
  (∀ off : Offset, busOffset (Config.regBase + off.toNat) = some off)

/-- ReadBits(k): the next k bits as a number, first bit most significant, or end of input with the rest consumed;
Rewind moves a stable source to bit 0 and keeps its bytes; bit p of the source is bit 7 − p mod 8 of byte p / 8
(20_memory R45, R46; 10_state R39). -/
def Obligations.SourceReads : Prop :=
  (∀ (src : Source) (k : Nat), src.readBits k =
    if src.rp + k ≤ 8 * src.bytes.length then
      (some (((List.range k).map (fun j => (srcBit src.bytes (src.rp + j)).toNat * 2 ^ (k - 1 - j))).sum),
        { src with rp := src.rp + k })
    else (none, src.exhausted)) ∧
  (∀ src : Source, src.later = [] → src.rewind = { src with rp := 0 }) ∧
  (∀ (bytes : List Byte) (p : Nat) (b : Byte), bytes[p / 8]? = some b →
    srcBit bytes p = b.getLsbD (7 - p % 8) ∧ (bitsOfBytes bytes)[p]? = some (b.getLsbD (7 - p % 8)))

end Statements
end

