-- ==== Sys2Proof/Laws/Memory.lean ====
section
/-! SUPPORT. The laws of the canonical memories FREQ and CODE: read after write, and that a write keeps the form. -/

namespace Sys2Proof.Machine

variable {α : Type} {d : α}

@[simp] theorem Memory.read_nil (a : Nat) : Memory.read d ([] : Memory α) a = d := rfl

theorem Memory.read_cons (e : Nat × α) (m : Memory α) (a : Nat) :
    Memory.read d (e :: m) a = if a = e.1 then e.2 else Memory.read d m a := by
  cases e; rfl

/-- An address below every listed one reads as unlisted. -/
theorem Memory.read_below {m : Memory α} {a : Nat} (h : ∀ e ∈ m, a < e.1) : Memory.read d m a = d := by
  induction m with
  | nil => rfl
  | cons e m ih =>
    have h1 := h e (by simp)
    rw [Memory.read_cons, if_neg (by omega)]
    exact ih (fun x hx => h x (by simp [hx]))

variable [DecidableEq α]

/-- Reading where a write went gives what was written. -/
theorem Memory.read_write_same {m : Memory α} (hm : Memory.wf d m) (a : Nat) (v : α) :
    Memory.read d (Memory.write d m a v) a = v := by
  induction m with
  | nil =>
    by_cases hv : v = d
    · simp [Memory.write, hv]
    · simp [Memory.write, hv, Memory.read]
  | cons e m ih =>
    obtain ⟨k, x⟩ := e
    obtain ⟨hp, hn⟩ := hm
    obtain ⟨hk, hp'⟩ := List.pairwise_cons.mp hp
    have hm' : Memory.wf d m := ⟨hp', fun y hy => hn y (by simp [hy])⟩
    have hlow : ∀ b, b ≤ k → Memory.read d m b = d := fun b hb =>
      Memory.read_below (fun y hy => lt_of_le_of_lt hb (hk y hy))
    rcases lt_trichotomy a k with h | h | h
    · by_cases hv : v = d
      · simp [Memory.write, h, hv, Memory.read, Nat.ne_of_lt h, hlow a (by omega)]
      · simp [Memory.write, h, hv, Memory.read]
    · subst h
      by_cases hv : v = d
      · simp [Memory.write, hv, hlow a (by omega)]
      · simp [Memory.write, hv, Memory.read]
    · simp [Memory.write, Memory.read, Nat.not_lt.mpr (Nat.le_of_lt h), Nat.ne_of_gt h, ih hm']

/-- A write leaves every other address alone, in any memory. -/
theorem Memory.read_write_other (m : Memory α) {a b : Nat} (hab : b ≠ a) (v : α) :
    Memory.read d (Memory.write d m a v) b = Memory.read d m b := by
  induction m with
  | nil =>
    by_cases hv : v = d
    · simp [Memory.write, hv]
    · simp [Memory.write, hv, Memory.read, hab]
  | cons e m ih =>
    obtain ⟨k, x⟩ := e
    rcases lt_trichotomy a k with h | h | h
    · by_cases hv : v = d
      · simp [Memory.write, h, hv]
      · simp [Memory.write, h, hv, Memory.read, hab]
    · subst h
      by_cases hv : v = d
      · simp [Memory.write, hv, Memory.read, hab]
      · simp [Memory.write, hv, Memory.read, hab]
    · simp only [Memory.write, Nat.not_lt.mpr (Nat.le_of_lt h), Nat.ne_of_gt h, if_false, Memory.read, ih]

/-- The addresses a write lists are the old ones and the one written. -/
theorem Memory.mem_write {m : Memory α} {a : Nat} {v : α} {e : Nat × α} (h : e ∈ Memory.write d m a v) :
    e ∈ m ∨ e = (a, v) := by
  induction m with
  | nil =>
    by_cases hv : v = d
    · simp [Memory.write, hv] at h
    · simp [Memory.write, hv] at h; exact .inr h
  | cons x m ih =>
    obtain ⟨k, y⟩ := x
    simp only [Memory.write] at h
    split at h
    · split at h
      · exact .inl h
      · rcases List.mem_cons.mp h with h | h
        · exact .inr h
        · exact .inl h
    · split at h
      · split at h
        · exact .inl (by simp [h])
        · rcases List.mem_cons.mp h with h | h
          · exact .inr h
          · exact .inl (by simp [h])
      · rcases List.mem_cons.mp h with h | h
        · exact .inl (by simp [h])
        · rcases ih h with h | h
          · exact .inl (by simp [h])
          · exact .inr h

/-- A write keeps the canonical form. -/
theorem Memory.write_wf {m : Memory α} (hm : Memory.wf d m) (a : Nat) (v : α) : Memory.wf d (Memory.write d m a v) := by
  induction m with
  | nil =>
    by_cases hv : v = d
    · simp [Memory.write, hv, Memory.wf]
    · simp [Memory.write, hv, Memory.wf]
  | cons e m ih =>
    obtain ⟨k, x⟩ := e
    obtain ⟨hp, hn⟩ := hm
    obtain ⟨hk, hp'⟩ := List.pairwise_cons.mp hp
    have hm' : Memory.wf d m := ⟨hp', fun y hy => hn y (by simp [hy])⟩
    rcases lt_trichotomy a k with h | h | h
    · by_cases hv : v = d
      · simp only [Memory.write, h, hv, if_true]; exact ⟨hp, hn⟩
      · simp only [Memory.write, h, hv, if_true, if_false]
        refine ⟨List.pairwise_cons.mpr ⟨?_, hp⟩, ?_⟩
        · intro y hy
          rcases List.mem_cons.mp hy with rfl | hy
          · exact h
          · exact lt_trans h (hk y hy)
        · intro y hy
          rcases List.mem_cons.mp hy with rfl | hy
          · exact hv
          · exact hn y hy
    · subst h
      by_cases hv : v = d
      · simp only [Memory.write, hv, lt_irrefl, if_true, if_false]; exact hm'
      · simp only [Memory.write, hv, lt_irrefl, if_true, if_false]
        refine ⟨List.pairwise_cons.mpr ⟨hk, hp'⟩, ?_⟩
        intro y hy
        rcases List.mem_cons.mp hy with rfl | hy
        · exact hv
        · exact hm'.2 y hy
    · simp only [Memory.write, Nat.not_lt.mpr (Nat.le_of_lt h), Nat.ne_of_gt h, if_false]
      obtain ⟨ip, inn⟩ := ih hm'
      refine ⟨List.pairwise_cons.mpr ⟨?_, ip⟩, ?_⟩
      · intro y hy
        rcases Memory.mem_write hy with hy | rfl
        · exact hk y hy
        · exact h
      · intro y hy
        rcases List.mem_cons.mp hy with rfl | hy
        · exact hn (k, x) (by simp)
        · exact inn y hy

/-- Two canonical memories that read the same everywhere are the same list. -/
theorem Memory.ext {m n : Memory α} (hm : Memory.wf d m) (hn : Memory.wf d n)
    (h : ∀ a, Memory.read d m a = Memory.read d n a) : m = n := by
  induction m generalizing n with
  | nil =>
    cases n with
    | nil => rfl
    | cons e n =>
      have := h e.1
      rw [Memory.read_nil, Memory.read_cons, if_pos rfl] at this
      exact absurd this.symm (hn.2 e (by simp))
  | cons e m ih =>
    obtain ⟨hk, hp⟩ := List.pairwise_cons.mp hm.1
    have hm' : Memory.wf d m := ⟨hp, fun y hy => hm.2 y (by simp [hy])⟩
    cases n with
    | nil =>
      have := h e.1
      rw [Memory.read_nil, Memory.read_cons, if_pos rfl] at this
      exact absurd this (hm.2 e (by simp))
    | cons f n =>
      obtain ⟨hl, hq⟩ := List.pairwise_cons.mp hn.1
      have hn' : Memory.wf d n := ⟨hq, fun y hy => hn.2 y (by simp [hy])⟩
      have hef : e.1 = f.1 := by
        rcases lt_trichotomy e.1 f.1 with hlt | heq | hgt
        · have := h e.1
          rw [Memory.read_cons, if_pos rfl, Memory.read_cons, if_neg (Nat.ne_of_lt hlt),
            Memory.read_below (fun y hy => lt_trans hlt (hl y hy))] at this
          exact absurd this (hm.2 e (by simp))
        · exact heq
        · have := h f.1
          rw [Memory.read_cons, Memory.read_cons, if_pos rfl, if_neg (Nat.ne_of_lt hgt),
            Memory.read_below (fun y hy => lt_trans hgt (hk y hy))] at this
          exact absurd this.symm (hn.2 f (by simp))
      have hval : e.2 = f.2 := by
        have := h e.1
        rwa [Memory.read_cons, if_pos rfl, Memory.read_cons, if_pos hef] at this
      have htail : m = n := ih hm' hn' (fun a => by
        by_cases ha : a ≤ e.1
        · rw [Memory.read_below (fun y hy => lt_of_le_of_lt ha (hk y hy)),
            Memory.read_below (fun y hy => lt_of_le_of_lt (hef ▸ ha) (hl y hy))]
        · have := h a
          rwa [Memory.read_cons, if_neg (by omega), Memory.read_cons, if_neg (by omega)] at this)
      rw [htail, Prod.ext hef hval]

/-! ## FREQ and CODE -/

@[simp] theorem freqAt_nil (s : Nat) : freqAt [] s = 0#32 := rfl

@[simp] theorem codeAt_nil (s : Nat) : codeAt [] s = Code.unset := rfl

theorem freqAt_freqSet_same {m : Memory Word} (h : Memory.wf 0#32 m) (s : Nat) (v : Word) :
    freqAt (freqSet m s v) s = v := Memory.read_write_same h s v

theorem freqAt_freqSet_other (m : Memory Word) {s k : Nat} (h : k ≠ s) (v : Word) :
    freqAt (freqSet m s v) k = freqAt m k := Memory.read_write_other m h v

theorem codeAt_codeSet_same {m : Memory Code} (h : Memory.wf Code.unset m) (s : Nat) (c : Code) :
    codeAt (codeSet m s c) s = c := Memory.read_write_same h s c

theorem codeAt_codeSet_other (m : Memory Code) {s k : Nat} (h : k ≠ s) (c : Code) :
    codeAt (codeSet m s c) k = codeAt m k := Memory.read_write_other m h c

theorem freqSet_wf {m : Memory Word} (h : Memory.wf 0#32 m) (s : Nat) (v : Word) : Memory.wf 0#32 (freqSet m s v) :=
  Memory.write_wf h s v

theorem codeSet_wf {m : Memory Code} (h : Memory.wf Code.unset m) (s : Nat) (c : Code) :
    Memory.wf Code.unset (codeSet m s c) := Memory.write_wf h s c

theorem memory_nil_wf : Memory.wf d ([] : Memory α) := by simp [Memory.wf]

end Sys2Proof.Machine
end

