-- ==== Sys2Proof/Laws/Streams.lean ====
section
/-! SUPPORT. The laws of the bit strings and of the four stream primitives: what each of ReadBits, Rewind, WriteBits
and SinkFlush does, once. -/

namespace Sys2Proof.Machine

/-! ## Bit strings -/

@[simp] theorem binOf_length (k v : Nat) : (binOf k v).length = k := by
  induction k with
  | zero => rfl
  | succ k ih => simp [binOf, ih]

theorem natOfBits_snoc (bits : List Bool) (b : Bool) : natOfBits (bits ++ [b]) = 2 * natOfBits bits + b.toNat := by
  simp [natOfBits]

@[simp] theorem natOfBits_nil : natOfBits [] = 0 := rfl

theorem natOfBits_append (xs ys : List Bool) : natOfBits (xs ++ ys) = natOfBits xs * 2 ^ ys.length + natOfBits ys := by
  induction ys using List.reverseRecOn with
  | nil => simp
  | append_singleton ys b ih =>
    rw [← List.append_assoc, natOfBits_snoc, ih, natOfBits_snoc, List.length_append, List.length_singleton, pow_succ]
    ring

theorem natOfBits_cons (b : Bool) (bits : List Bool) :
    natOfBits (b :: bits) = b.toNat * 2 ^ bits.length + natOfBits bits := by
  have := natOfBits_append [b] bits
  simpa [natOfBits] using this

theorem natOfBits_lt (bits : List Bool) : natOfBits bits < 2 ^ bits.length := by
  induction bits with
  | nil => simp
  | cons b bits ih =>
    rw [natOfBits_cons, List.length_cons, pow_succ]
    cases b <;> simp <;> omega

/-- Reading back the bits of a number gives its low k bits. -/
theorem natOfBits_binOf (k v : Nat) : natOfBits (binOf k v) = v % 2 ^ k := by
  induction k with
  | zero => simp [binOf, Nat.mod_one]
  | succ k ih =>
    rw [binOf, natOfBits_cons, binOf_length, ih, Nat.testBit_eq_decide_div_mod_eq, Nat.mod_pow_succ]
    rcases Nat.mod_two_eq_zero_or_one (v / 2 ^ k) with h | h
    · simp [h]
    · simp [h]; omega

/-- The k-bit string of the value of k bits is those bits. -/
theorem binOf_natOfBits (bits : List Bool) : binOf bits.length (natOfBits bits) = bits := by
  induction bits with
  | nil => rfl
  | cons b bits ih =>
    have hlt := natOfBits_lt bits
    have hbits : ∀ v, v < 2 ^ bits.length → ∀ c : Bool,
        binOf bits.length (c.toNat * 2 ^ bits.length + v) = binOf bits.length v := by
      intro v _ c
      have : ∀ k ≤ bits.length, binOf k (c.toNat * 2 ^ bits.length + v) = binOf k v := by
        intro k
        induction k with
        | zero => intro _; rfl
        | succ k ihk =>
          intro hk
          rw [binOf, binOf, ihk (by omega)]
          congr 1
          cases c
          · simp
          · simp only [Bool.toNat_true, one_mul]
            rw [Nat.testBit_two_pow_add_gt (by omega)]
      exact this _ le_rfl
    rw [List.length_cons, binOf, natOfBits_cons, hbits _ hlt, ih]
    congr 1
    cases b
    · simp [Nat.testBit_lt_two_pow hlt]
    · simp only [Bool.toNat_true, one_mul]
      rw [Nat.testBit_two_pow_add_eq, Nat.testBit_lt_two_pow hlt]; rfl

/-! ## The bits of a source -/

@[simp] theorem bitsOfBytes_nil : bitsOfBytes [] = [] := rfl

@[simp] theorem bitsOfBytes_cons (b : Byte) (bytes : List Byte) :
    bitsOfBytes (b :: bytes) = binOf 8 b.toNat ++ bitsOfBytes bytes := rfl

@[simp] theorem bitsOfBytes_length (bytes : List Byte) : (bitsOfBytes bytes).length = 8 * bytes.length := by
  induction bytes with
  | nil => rfl
  | cons b bytes ih => simp [ih]; ring

theorem binOf_getElem? (k v j : Nat) : (binOf k v)[j]? = if j < k then some (v.testBit (k - 1 - j)) else none := by
  induction k generalizing j with
  | zero => simp [binOf]
  | succ k ih =>
    cases j with
    | zero => simp [binOf]
    | succ j =>
      simp only [binOf, List.getElem?_cons_succ, ih, Nat.add_lt_add_iff_right]
      congr 3
      omega

/-- SRCbit(p) is the p-th bit of the source in stream order (10_state R39, 20_memory R50). -/
theorem srcBit_eq (bytes : List Byte) (p : Nat) : (bitsOfBytes bytes)[p]? = if p < 8 * bytes.length then some (srcBit bytes p) else none := by
  induction bytes generalizing p with
  | nil => simp
  | cons b bytes ih =>
    rw [bitsOfBytes_cons]
    by_cases hp : p < 8
    · rw [List.getElem?_append_left (by simpa using hp), binOf_getElem?, if_pos hp, if_pos (by simp; omega)]
      have h0 : p / 8 = 0 := by omega
      have h1 : p % 8 = p := by omega
      simp [srcBit, h0, h1]
    · rw [List.getElem?_append_right (by simp; omega), binOf_length, ih]
      have hd : p / 8 = (p - 8) / 8 + 1 := by omega
      have hm : p % 8 = (p - 8) % 8 := by omega
      have : srcBit (b :: bytes) p = srcBit bytes (p - 8) := by simp [srcBit, hd, hm]
      rw [this]
      simp only [List.length_cons]
      congr 1
      simp only [eq_iff_iff]
      omega

theorem Source.rest_length (src : Source) : src.rest.length = src.size - src.rp := by
  simp [Source.rest, Source.size]

/-- The bits ReadBits takes are the next bits of the source. -/
theorem Source.window_eq {src : Source} {k : Nat} (h : src.rp + k ≤ src.size) :
    (List.range k).map (fun j => srcBit src.bytes (src.rp + j)) = src.rest.take k := by
  apply List.ext_getElem?
  intro j
  by_cases hj : j < k
  · have hs : src.rp + j < 8 * src.bytes.length := by simp only [Source.size] at h; omega
    rw [List.getElem?_take_of_lt hj, Source.rest, List.getElem?_drop, srcBit_eq, if_pos hs]
    simp [hj]
  · rw [List.getElem?_eq_none (by simp; omega), List.getElem?_eq_none (by simp; omega)]

/-- ReadBits with k bits left: their value, most significant first, and RP moved on (20_memory R45). -/
theorem Source.readBits_some {src : Source} {k : Nat} (h : src.rp + k ≤ src.size) :
    src.readBits k = (some (natOfBits (src.rest.take k)), { src with rp := src.rp + k }) := by
  rw [Source.readBits, if_pos h, Source.window_eq h]

/-- ReadBits with fewer than k bits left: EOI, and the rest is consumed (20_memory R45). -/
theorem Source.readBits_none {src : Source} {k : Nat} (h : src.size < src.rp + k) :
    src.readBits k = (none, { src with rp := src.size }) := by
  rw [Source.readBits, if_neg (by omega)]

/-- Everything ReadBits can do. -/
theorem Source.readBits_cases (src : Source) (k : Nat) :
    (src.rp + k ≤ src.size ∧ src.readBits k = (some (natOfBits (src.rest.take k)), { src with rp := src.rp + k })) ∨
    (src.size < src.rp + k ∧ src.readBits k = (none, { src with rp := src.size })) := by
  by_cases h : src.rp + k ≤ src.size
  · exact .inl ⟨h, Source.readBits_some h⟩
  · exact .inr ⟨by omega, Source.readBits_none (by omega)⟩

/-- ReadBits never changes the bytes, and keeps RP within the source. -/
theorem Source.readBits_frame (src : Source) (k : Nat) :
    (src.readBits k).2.bytes = src.bytes ∧ (src.readBits k).2.later = src.later ∧
      (src.rp ≤ src.size → (src.readBits k).2.rp ≤ src.size ∧ src.rp ≤ (src.readBits k).2.rp) := by
  rcases Source.readBits_cases src k with ⟨h, e⟩ | ⟨h, e⟩ <;> rw [e] <;> exact ⟨rfl, rfl, fun _ => by simp; omega⟩

theorem Source.rest_move (src : Source) (k : Nat) : ({ src with rp := src.rp + k } : Source).rest = src.rest.drop k := by
  simp [Source.rest]

/-- Reading a stretch of the source that is known to come next. -/
theorem Source.readBits_append {src : Source} {bits more : List Bool} (h : src.rest = bits ++ more) (hne : bits ≠ []) :
    src.readBits bits.length = (some (natOfBits bits), { src with rp := src.rp + bits.length }) ∧
      ({ src with rp := src.rp + bits.length } : Source).rest = more := by
  have hlen : src.size - src.rp = bits.length + more.length := by
    rw [← Source.rest_length, h, List.length_append]
  have hpos : 0 < bits.length := List.length_pos_iff.mpr hne
  refine ⟨?_, by rw [Source.rest_move, h, List.drop_left]⟩
  rw [Source.readBits_some (by omega), h, List.take_left]

/-! ## The sink -/

theorem wholeBytes_short {bits : List Bool} (h : bits.length < 8) : wholeBytes bits = [] := by
  rcases bits with _ | ⟨a, _ | ⟨b, _ | ⟨c, _ | ⟨d, _ | ⟨e, _ | ⟨f, _ | ⟨g, _ | ⟨i, rest⟩⟩⟩⟩⟩⟩⟩⟩ <;>
    simp_all [wholeBytes]
  omega

theorem wholeBytes_eight {bits : List Bool} (h : bits.length = 8) (more : List Bool) :
    wholeBytes (bits ++ more) = .byte (byteOfBits bits) :: wholeBytes more := by
  rcases bits with _ | ⟨a, _ | ⟨b, _ | ⟨c, _ | ⟨d, _ | ⟨e, _ | ⟨f, _ | ⟨g, _ | ⟨i, rest⟩⟩⟩⟩⟩⟩⟩⟩ <;>
    simp_all [wholeBytes]

/-- Whole bytes first, then the rest. -/
theorem wholeBytes_append (n : Nat) : ∀ {bits : List Bool}, bits.length = 8 * n → ∀ more : List Bool,
    wholeBytes (bits ++ more) = wholeBytes bits ++ wholeBytes more := by
  induction n with
  | zero => intro bits h more; simp [List.length_eq_zero_iff.mp (by omega : bits.length = 0), wholeBytes]
  | succ n ih =>
    intro bits h more
    have h8 : (bits.take 8).length = 8 := by simp; omega
    have hd : (bits.drop 8).length = 8 * n := by simp; omega
    rw [← List.take_append_drop 8 bits, List.append_assoc, wholeBytes_eight h8, wholeBytes_eight h8, ih hd]
    rfl

theorem wholeBytes_length (bits : List Bool) : (wholeBytes bits).length = bits.length / 8 := by
  induction hn : bits.length / 8 generalizing bits with
  | zero => rw [wholeBytes_short (by omega)]; rfl
  | succ n ih =>
    have h8 : (bits.take 8).length = 8 := by simp; omega
    rw [← List.take_append_drop 8 bits, wholeBytes_eight h8, List.length_cons, ih _ (by simp; omega)]

/-- One more bit: it completes a byte exactly when the count reaches a multiple of 8 (20_memory R47). -/
theorem wholeBytes_snoc (bits : List Bool) (b : Bool) :
    wholeBytes (bits ++ [b]) = wholeBytes bits ++
      if (bits ++ [b]).length % 8 = 0 then [.byte (byteOfBits ((bits ++ [b]).drop ((bits ++ [b]).length - 8)))] else [] := by
  have hlen : (bits.take (8 * (bits.length / 8))).length = 8 * (bits.length / 8) := by simp; omega
  have hsplit := List.take_append_drop (8 * (bits.length / 8)) bits
  have hdl : (bits.drop (8 * (bits.length / 8))).length = bits.length % 8 := by simp; omega
  have e1 : wholeBytes bits = wholeBytes (bits.take (8 * (bits.length / 8))) := by
    conv_lhs => rw [← hsplit]
    rw [wholeBytes_append _ hlen, wholeBytes_short (bits := bits.drop _) (by omega), List.append_nil]
  have e2 : wholeBytes (bits ++ [b]) =
      wholeBytes (bits.take (8 * (bits.length / 8))) ++ wholeBytes (bits.drop (8 * (bits.length / 8)) ++ [b]) := by
    conv_lhs => rw [← hsplit, List.append_assoc]
    rw [wholeBytes_append _ hlen]
  rw [e2, e1]
  congr 1
  have htl : (bits.drop (8 * (bits.length / 8)) ++ [b]).length = bits.length % 8 + 1 := by simp; omega
  by_cases h : (bits ++ [b]).length % 8 = 0
  · rw [if_pos h]
    simp only [List.length_append, List.length_singleton] at h
    have hk : (bits ++ [b]).length - 8 = 8 * (bits.length / 8) := by simp; omega
    have hd : (bits ++ [b]).drop ((bits ++ [b]).length - 8) = bits.drop (8 * (bits.length / 8)) ++ [b] := by
      rw [hk, List.drop_append_of_le_length (by omega)]
    rw [hd, ← List.append_nil (bits.drop (8 * (bits.length / 8)) ++ [b]), wholeBytes_eight (by omega)]
    rw [List.append_nil]; rfl
  · rw [if_neg h]
    simp only [List.length_append, List.length_singleton] at h
    exact wholeBytes_short (by omega)

@[simp] theorem Sink.push_out (snk : Sink) (b : Bool) : (snk.push b).out = snk.out ++ [b] := by
  simp only [Sink.push]; split <;> rfl

theorem Sink.push_port (snk : Sink) (b : Bool) :
    (snk.push b).port = snk.port ++
      if (snk.out ++ [b]).length % 8 = 0 then [.byte (byteOfBits ((snk.out ++ [b]).drop ((snk.out ++ [b]).length - 8)))]
      else [] := by
  simp only [Sink.push]; split <;> simp

@[simp] theorem Sink.append_nil (snk : Sink) : snk.append [] = snk := rfl

theorem Sink.append_cons (snk : Sink) (b : Bool) (bits : List Bool) : snk.append (b :: bits) = (snk.push b).append bits := rfl

theorem Sink.append_append (snk : Sink) (xs ys : List Bool) : snk.append (xs ++ ys) = (snk.append xs).append ys := by
  simp [Sink.append]

/-- WriteBits appends its bits to OUT (20_memory R47). -/
@[simp] theorem Sink.append_out (snk : Sink) (bits : List Bool) : (snk.append bits).out = snk.out ++ bits := by
  induction bits generalizing snk with
  | nil => simp
  | cons b bits ih => rw [Sink.append_cons, ih]; simp

/-- The sink port is given exactly the bytes that OUT completes (20_memory R47). -/
theorem Sink.append_port (snk : Sink) (bits : List Bool) :
    ∃ new, (snk.append bits).port = snk.port ++ new ∧ wholeBytes (snk.out ++ bits) = wholeBytes snk.out ++ new := by
  induction bits generalizing snk with
  | nil => exact ⟨[], by simp, by simp⟩
  | cons b bits ih =>
    obtain ⟨new, h1, h2⟩ := ih (snk.push b)
    rw [Sink.push_out, List.append_assoc, List.singleton_append] at h2
    refine ⟨_, by rw [Sink.append_cons, h1, Sink.push_port, List.append_assoc], ?_⟩
    rw [h2, wholeBytes_snoc, List.append_assoc]

/-- From an empty OUT the port is given the whole bytes written. -/
theorem Sink.append_port_empty (port : List PortEvent) (bits : List Bool) :
    ((⟨[], port⟩ : Sink).append bits).port = port ++ wholeBytes bits := by
  obtain ⟨new, h1, h2⟩ := Sink.append_port ⟨[], port⟩ bits
  simp only [List.nil_append, wholeBytes] at h2
  rw [h1, h2]

/-- SinkFlush fills OUT to a byte boundary with zeros (20_memory R48). -/
theorem Sink.close_out (snk : Sink) : snk.close.out = snk.out ++ List.replicate snk.padLength false := by
  simp [Sink.close]

theorem Sink.close_length (snk : Sink) : snk.close.out.length % 8 = 0 := by
  rw [Sink.close_out]; simp [Sink.padLength]; omega

/-! ## Whole bytes -/

/-- Every whole number of bytes of bits is the bits of some bytes. -/
theorem exists_bytes (n : Nat) : ∀ bits : List Bool, bits.length = 8 * n → ∃ bytes, bitsOfBytes bytes = bits := by
  induction n with
  | zero => exact fun bits h => ⟨[], (List.length_eq_zero_iff.mp (by omega)).symm⟩
  | succ n ih =>
    intro bits h
    obtain ⟨bytes, hb⟩ := ih (bits.drop 8) (by simp [h]; omega)
    have h8 : (bits.take 8).length = 8 := by simp [h]
    refine ⟨byteOfBits (bits.take 8) :: bytes, ?_⟩
    have hlt := natOfBits_lt (bits.take 8)
    rw [h8] at hlt
    have e : (byteOfBits (bits.take 8)).toNat = natOfBits (bits.take 8) := by
      simp only [byteOfBits, BitVec.toNat_ofNat]
      exact Nat.mod_eq_of_lt hlt
    have e2 := binOf_natOfBits (bits.take 8)
    rw [h8] at e2
    rw [bitsOfBytes_cons, hb, e, e2, List.take_append_drop]

theorem byteOfBits_binOf (b : Byte) : byteOfBits (binOf 8 b.toNat) = b := by
  apply BitVec.eq_of_toNat_eq
  rw [byteOfBits, natOfBits_binOf, BitVec.toNat_ofNat, Nat.mod_mod, Nat.mod_eq_of_lt b.isLt]

/-- The whole bytes of the bits of bytes are these bytes. -/
theorem wholeBytes_bitsOfBytes (bytes : List Byte) : wholeBytes (bitsOfBytes bytes) = bytes.map .byte := by
  induction bytes with
  | nil => rfl
  | cons b bs ih => rw [bitsOfBytes_cons, wholeBytes_eight (binOf_length _ _), ih, byteOfBits_binOf]; rfl

/-- SinkFlush on a sink that began empty: the bits, the pad, the whole bytes and the close at the port
(20_memory R47, R48). -/
theorem Sink.close_empty (port : List PortEvent) (bits : List Bool) :
    ((⟨[], port⟩ : Sink).append bits).close =
      ⟨bits ++ List.replicate ((8 - bits.length % 8) % 8) false,
        port ++ wholeBytes (bits ++ List.replicate ((8 - bits.length % 8) % 8) false) ++ [.close]⟩ := by
  have ho : ((⟨[], port⟩ : Sink).append bits).out = bits := by simp
  have h1 : (((⟨[], port⟩ : Sink).append bits).append (List.replicate ((⟨[], port⟩ : Sink).append bits).padLength false)) =
      (⟨[], port⟩ : Sink).append (bits ++ List.replicate ((8 - bits.length % 8) % 8) false) := by
    rw [Sink.append_append, Sink.padLength, ho]
  unfold Sink.close
  simp only [h1, Sink.append_port_empty, Sink.append_out, List.nil_append]

/-- Whole bytes into a sink that began empty need no pad. -/
theorem Sink.close_bytes (port : List PortEvent) (bytes : List Byte) :
    ((⟨[], port⟩ : Sink).append (bitsOfBytes bytes)).close =
      ⟨bitsOfBytes bytes, port ++ bytes.map .byte ++ [.close]⟩ := by
  have : (8 - (bitsOfBytes bytes).length % 8) % 8 = 0 := by rw [bitsOfBytes_length]; omega
  rw [Sink.close_empty, this, List.replicate_zero, List.append_nil, wholeBytes_bitsOfBytes]

/-- The first bytes are the first bits, eight to a byte. -/
theorem bitsOfBytes_take (bytes : List Byte) (k : Nat) : bitsOfBytes (bytes.take k) = (bitsOfBytes bytes).take (8 * k) := by
  induction bytes generalizing k with
  | nil => simp
  | cons b bs ih =>
    cases k with
    | zero => simp
    | succ k =>
      rw [List.take_succ_cons, bitsOfBytes_cons, bitsOfBytes_cons, ih, List.take_append, binOf_length,
        List.take_of_length_le (l := binOf 8 b.toNat) (by simp), show 8 * (k + 1) - 8 = 8 * k by omega]

end Sys2Proof.Machine
end

