-- ==== Sys2Proof/Laws/Tree.lean ====
section
/-! SUPPORT. The laws of the tree in the arena: how it hangs together, its serialization, its paths and codewords,
and what a decode walk does along a path. -/

namespace Sys2Proof.Machine

/-! ## The tree at an entry -/

theorem treeAt_leaf_entry {look : Nat → Node} {i : Nat} (h : (look i).leaf = true) (d : Nat) :
    treeAt look (d + 1) i = some (.leaf (look i).sym) := by
  simp [treeAt, h]

/-- Everything a tree at an entry says about the entry. -/
theorem treeAt_cases {look : Nat → Node} {d i : Nat} {t : Tree} (h : treeAt look d i = some t) :
    (∃ d', d = d' + 1 ∧ (look i).leaf = true ∧ t = .leaf (look i).sym) ∨
    (∃ d' l r, d = d' + 1 ∧ (look i).leaf = false ∧ t = .node l r ∧
      treeAt look d' (look i).l.toNat = some l ∧ treeAt look d' (look i).r.toNat = some r) := by
  cases d with
  | zero => cases h
  | succ d =>
    rw [treeAt] at h
    by_cases hl : (look i).leaf = true
    · simp only [hl, if_true] at h; cases h; exact .inl ⟨d, rfl, hl, rfl⟩
    · simp only [hl] at h
      cases h1 : treeAt look d (look i).l.toNat with
      | none => simp [h1] at h
      | some l =>
        cases h2 : treeAt look d (look i).r.toNat with
        | none => simp [h1, h2] at h
        | some r =>
          simp [h1, h2] at h
          exact .inr ⟨d, l, r, rfl, by simpa using hl, h.symm, h1, h2⟩

theorem treeAt_node {look : Nat → Node} {d i : Nat} {l r : Tree} (hi : (look i).leaf = false)
    (hl : treeAt look d (look i).l.toNat = some l) (hr : treeAt look d (look i).r.toNat = some r) :
    treeAt look (d + 1) i = some (.node l r) := by
  simp [treeAt, hi, hl, hr]

/-- More depth changes nothing. -/
theorem treeAt_mono {look : Nat → Node} {d d' i : Nat} {t : Tree} (h : treeAt look d i = some t) (hd : d ≤ d') :
    treeAt look d' i = some t := by
  induction d generalizing d' i t with
  | zero => cases h
  | succ d ih =>
    obtain ⟨d'', rfl⟩ : ∃ d'', d' = d'' + 1 := ⟨d' - 1, by omega⟩
    rcases treeAt_cases h with ⟨d₁, e, hl, rfl⟩ | ⟨d₁, l, r, e, hi, rfl, h1, h2⟩
    · exact treeAt_leaf_entry hl _
    · cases e
      exact treeAt_node hi (ih h1 (by omega)) (ih h2 (by omega))

/-! ## Leaves, paths and serialization -/

theorem Tree.leaves_pos (t : Tree) : 0 < t.leaves := by
  induction t with
  | leaf => simp [Tree.leaves]
  | node l r ihl ihr => simp only [Tree.leaves]; omega

@[simp] theorem Tree.symbols_length (t : Tree) : t.symbols.length = t.leaves := by
  induction t with
  | leaf => rfl
  | node l r ihl ihr => simp [Tree.symbols, Tree.leaves, ihl, ihr]

/-- The tree field is 11·L − 1 bits (30_encoding R76). -/
theorem Tree.serialize_length (t : Tree) : t.serialize.length + 1 = 11 * t.leaves := by
  induction t with
  | leaf => simp [Tree.serialize, Tree.leaves]
  | node l r ihl ihr => simp only [Tree.serialize, Tree.leaves, List.length_cons, List.length_append]; omega

theorem Tree.paths_symbols (t : Tree) : t.paths.map Prod.fst = t.symbols := by
  induction t with
  | leaf => rfl
  | node l r ihl ihr => rw [Tree.paths, Tree.symbols, List.map_append, List.map_map, List.map_map, ← ihl, ← ihr]; rfl

theorem Tree.mem_paths {t : Tree} {sym : Sym} {bits : List Bool} :
    (sym, bits) ∈ t.paths ↔ t.isPath bits sym = true := by
  induction t generalizing bits with
  | leaf s =>
    cases bits with
    | nil => simp only [Tree.paths, Tree.isPath, List.mem_singleton, Prod.mk.injEq, and_true, beq_iff_eq]; exact eq_comm
    | cons b bits => simp [Tree.paths, Tree.isPath]
  | node l r ihl ihr =>
    cases bits with
    | nil => simp [Tree.paths, Tree.isPath]
    | cons b bits => cases b <;> simp [Tree.paths, Tree.isPath, ihl, ihr]

/-- No path is longer than the leaves but one. -/
theorem Tree.path_length {t : Tree} {p : Sym × List Bool} (h : p ∈ t.paths) : p.2.length + 1 ≤ t.leaves := by
  induction t generalizing p with
  | leaf s => simp [Tree.paths] at h; simp [h, Tree.leaves]
  | node l r ihl ihr =>
    have hl := l.leaves_pos
    have hr := r.leaves_pos
    simp only [Tree.paths, List.mem_append, List.mem_map] at h
    rcases h with ⟨q, hq, rfl⟩ | ⟨q, hq, rfl⟩
    · have := ihl hq; simp only [Tree.leaves, List.length_cons]; omega
    · have := ihr hq; simp only [Tree.leaves, List.length_cons]; omega

/-- The paths of a tree are prefix-free: of two leaves' paths, one before the other only if they are one. -/
theorem Tree.path_prefixFree {t : Tree} {b1 b2 : List Bool} {s1 s2 : Sym} (h1 : t.isPath b1 s1 = true)
    (h2 : t.isPath b2 s2 = true) (h : b1 <+: b2) : b1 = b2 ∧ s1 = s2 := by
  induction t generalizing b1 b2 with
  | leaf s =>
    cases b1 <;> cases b2 <;> simp_all [Tree.isPath]
  | node l r ihl ihr =>
    cases b1 with
    | nil => simp [Tree.isPath] at h1
    | cons c b1 =>
      cases b2 with
      | nil => simp at h
      | cons d b2 =>
        obtain ⟨rfl, hp⟩ := List.cons_prefix_cons.mp h
        cases c
        · obtain ⟨rfl, rfl⟩ := ihl h1 h2 hp; exact ⟨rfl, rfl⟩
        · obtain ⟨rfl, rfl⟩ := ihr h1 h2 hp; exact ⟨rfl, rfl⟩

/-- Every leaf's symbol has a path. -/
theorem Tree.exists_path {t : Tree} {sym : Sym} (h : sym ∈ t.symbols) : ∃ bits, t.isPath bits sym = true := by
  rw [← Tree.paths_symbols, List.mem_map] at h
  obtain ⟨p, hp, rfl⟩ := h
  exact ⟨p.2, Tree.mem_paths.mp hp⟩

theorem Tree.path_symbol {t : Tree} {bits : List Bool} {sym : Sym} (h : t.isPath bits sym = true) : sym ∈ t.symbols := by
  rw [← Tree.paths_symbols, List.mem_map]
  exact ⟨_, Tree.mem_paths.mpr h, rfl⟩

/-! ## Codewords -/

/-- The codeword of a path that continues a string of `len` bits with value `val` (43_codegen R92). -/
def pathCode (len val : Nat) (bits : List Bool) : Code :=
  ⟨BitVec.ofNat 9 (len + bits.length), BitVec.ofNat 256 (val * 2 ^ bits.length + natOfBits bits)⟩

/-- GENCODES visits each leaf once, in order, with the codeword of its path (43_codegen R92). -/
theorem Tree.codes_eq (t : Tree) (len : Nat) (val : Nat) :
    t.codes len (BitVec.ofNat 256 val) = t.paths.map (fun p => (p.1, pathCode len val p.2)) := by
  induction t generalizing len val with
  | leaf s => simp [Tree.codes, Tree.paths, pathCode]
  | node l r ihl ihr =>
    have e0 : (2#256 * BitVec.ofNat 256 val) = BitVec.ofNat 256 (2 * val) := by
      rw [show (2#256) = BitVec.ofNat 256 2 from rfl, ← BitVec.ofNat_mul]
    have e1 : (2#256 * BitVec.ofNat 256 val + 1#256) = BitVec.ofNat 256 (2 * val + 1) := by
      rw [e0, show (1#256) = BitVec.ofNat 256 1 from rfl, ← BitVec.ofNat_add]
    rw [Tree.codes, e0, show BitVec.ofNat 256 (2 * val) + 1#256 = BitVec.ofNat 256 (2 * val + 1) from e0 ▸ e1, ihl, ihr, Tree.paths, List.map_append, List.map_map, List.map_map]
    congr 1
    · apply List.map_congr_left
      intro p _
      simp only [Function.comp_def, pathCode, natOfBits_cons, List.length_cons, pow_succ]
      congr 2
      · congr 1; omega
      · congr 1; simp; ring
    · apply List.map_congr_left
      intro p _
      simp only [Function.comp_def, pathCode, natOfBits_cons, List.length_cons, pow_succ]
      congr 2
      · congr 1; omega
      · congr 1; simp; ring

theorem Tree.codes_root (t : Tree) : t.codes 0 0#256 = t.paths.map (fun p => (p.1, pathCode 0 0 p.2)) :=
  Tree.codes_eq t 0 0

/-- The codeword of a path of at most 256 bits is the path. -/
theorem pathCode_bits {bits : List Bool} (h : bits.length ≤ 256) : (pathCode 0 0 bits).bits = bits := by
  have h1 : (pathCode 0 0 bits).len.toNat = bits.length := by
    simp only [pathCode, Nat.zero_add, BitVec.toNat_ofNat]; exact Nat.mod_eq_of_lt (by omega)
  have h2 : (pathCode 0 0 bits).val.toNat = natOfBits bits := by
    simp only [pathCode, Nat.zero_mul, Nat.zero_add, BitVec.toNat_ofNat]
    exact Nat.mod_eq_of_lt (lt_of_lt_of_le (natOfBits_lt bits) (Nat.pow_le_pow_right (by norm_num) h))
  rw [Code.bits, h1, h2, binOf_natOfBits]

theorem pathCode_len (bits : List Bool) : (pathCode 0 0 bits).len = BitVec.ofNat 9 bits.length := by
  simp [pathCode]

/-- The code table: each symbol has the codeword of the last visited leaf with it, or none (43_codegen R92). -/
theorem codeAt_codeTable (visited : List (Sym × Code)) (k : Nat) :
    Memory.wf Code.unset (codeTable visited) ∧
    codeAt (codeTable visited) k = ((visited.reverse.find? (fun e => symAddr e.1 == k)).map Prod.snd).getD Code.unset := by
  induction visited using List.reverseRecOn with
  | nil => exact ⟨memory_nil_wf, rfl⟩
  | append_singleton xs e ih =>
    obtain ⟨ih1, ih2⟩ := ih
    have hstep : codeTable (xs ++ [e]) = codeSet (codeTable xs) (symAddr e.1) e.2 := by simp [codeTable]
    refine ⟨by rw [hstep]; exact codeSet_wf ih1 _ _, ?_⟩
    rw [hstep, List.reverse_append, List.reverse_singleton, List.singleton_append, List.find?_cons]
    by_cases h : symAddr e.1 = k
    · subst h; simp [codeAt_codeSet_same ih1]
    · have hb : (symAddr e.1 == k) = false := by simpa using h
      rw [codeAt_codeSet_other _ (Ne.symm h), ih2, hb]

/-- A symbol of a tree with distinct symbols has its path as codeword; the tree has at most 257 leaves. -/
theorem codeAt_path {t : Tree} (hd : t.symbols.Nodup) {bits : List Bool} {sym : Sym} (hp : t.isPath bits sym = true) :
    codeAt (codeTable (t.codes 0 0#256)) (symAddr sym) = pathCode 0 0 bits := by
  rw [(codeAt_codeTable _ _).2, Tree.codes_root]
  have hmem : (sym, pathCode 0 0 bits) ∈ (t.paths.map (fun p => (p.1, pathCode 0 0 p.2))).reverse := by
    simp only [List.mem_reverse, List.mem_map]
    exact ⟨_, Tree.mem_paths.mpr hp, rfl⟩
  cases hf : ((t.paths.map (fun p => (p.1, pathCode 0 0 p.2))).reverse.find? (fun e => symAddr e.1 == symAddr sym)) with
  | none =>
    have := List.find?_eq_none.mp hf _ hmem
    simp at this
  | some e =>
    have he := List.find?_some hf
    have hm := List.mem_of_find?_eq_some hf
    simp only [List.mem_reverse, List.mem_map] at hm
    obtain ⟨p, hp1, rfl⟩ := hm
    have hs : p.1 = sym := by
      have : p.1.toNat = sym.toNat := by simpa [symAddr] using he
      exact BitVec.eq_of_toNat_eq this
    have hnd : (t.paths.map Prod.fst).Nodup := by rw [Tree.paths_symbols]; exact hd
    have : p = (sym, bits) := by
      have hinj := List.inj_on_of_nodup_map hnd
      exact hinj hp1 (Tree.mem_paths.mpr hp) hs
    subst this
    rfl

/-- A symbol with no leaf has no codeword. -/
theorem codeAt_absent {t : Tree} {k : Nat} (h : ∀ sym ∈ t.symbols, symAddr sym ≠ k) :
    codeAt (codeTable (t.codes 0 0#256)) k = Code.unset := by
  rw [(codeAt_codeTable _ _).2, Tree.codes_root]
  rw [List.find?_eq_none.mpr]
  · rfl
  · intro e he
    simp only [List.mem_reverse, List.mem_map] at he
    obtain ⟨p, hp, rfl⟩ := he
    have : p.1 ∈ t.symbols := by rw [← Tree.paths_symbols]; exact List.mem_map_of_mem hp
    simpa using h _ this

/-- Whatever codeword a symbol has is the path of a leaf with that symbol. -/
theorem codeAt_isPath {t : Tree} {k : Nat} (h : codeAt (codeTable (t.codes 0 0#256)) k ≠ Code.unset) :
    ∃ sym bits, symAddr sym = k ∧ t.isPath bits sym = true ∧
      codeAt (codeTable (t.codes 0 0#256)) k = pathCode 0 0 bits := by
  rw [(codeAt_codeTable _ _).2, Tree.codes_root] at h ⊢
  cases hf : ((t.paths.map (fun p => (p.1, pathCode 0 0 p.2))).reverse.find? (fun e => symAddr e.1 == k)) with
  | none => simp [hf] at h
  | some e =>
    have he := List.find?_some hf
    have hm := List.mem_of_find?_eq_some hf
    simp only [List.mem_reverse, List.mem_map] at hm
    obtain ⟨p, hp, rfl⟩ := hm
    exact ⟨p.1, p.2, by simpa using he, Tree.mem_paths.mp hp, rfl⟩

end Sys2Proof.Machine
end

