-- ==== Sys2Proof/Laws/Loops.lean ====
section
/-! SUPPORT. One specification lemma per loop of the commands: COUNT's, ENCODE's, the decode walk and DECODE's. -/

namespace Sys2Proof.Machine

/-! ## Reading bytes -/

@[simp] theorem Source.consumed_rest (src : Source) (k : Nat) : (src.consumed k).rest = src.rest.drop k := Source.rest_move src k

@[simp] theorem Source.consumed_size (src : Source) (k : Nat) : (src.consumed k).size = src.size := rfl

@[simp] theorem Source.consumed_exhausted (src : Source) (k : Nat) : (src.consumed k).exhausted = src.exhausted := rfl

@[simp] theorem Source.consumed_zero (src : Source) : src.consumed 0 = src := rfl

@[simp] theorem Source.consumed_consumed (src : Source) (j k : Nat) : (src.consumed j).consumed k = src.consumed (j + k) := by
  simp [Source.consumed, Nat.add_assoc]

theorem Source.readBits_ahead {src : Source} {bits more : List Bool} (h : src.rest = bits ++ more) (hne : bits ≠ []) :
    src.readBits bits.length = (some (natOfBits bits), src.consumed bits.length) := (Source.readBits_append h hne).1

theorem Source.readBits_eoi {src : Source} {k : Nat} (h : src.rest.length < k) : src.readBits k = (none, src.exhausted) := by
  rw [Source.rest_length] at h
  exact Source.readBits_none (by omega)

theorem Source.readByte {src : Source} {b : Byte} {more : List Bool} (h : src.rest = binOf 8 b.toNat ++ more) :
    src.readBits 8 = (some b.toNat, src.consumed 8) := by
  have := Source.readBits_ahead h (by simp [binOf])
  rw [binOf_length, natOfBits_binOf, Nat.mod_eq_of_lt b.isLt] at this
  exact this

theorem Source.readBit {src : Source} {b : Bool} {more : List Bool} (h : src.rest = b :: more) :
    src.readBits 1 = (some b.toNat, src.consumed 1) := by
  have := Source.readBits_ahead (bits := [b]) (more := more) h (by simp)
  simpa [natOfBits] using this

/-- After a rewind of a stable source all its bits are ahead. -/
theorem Source.rewind_rest (src : Source) : src.rewind.rest = bitsOfBytes src.rewind.bytes := by
  unfold Source.rewind; split <;> simp [Source.rest]

theorem Source.rewind_rp (src : Source) : src.rewind.rp = 0 := by
  unfold Source.rewind; split <;> rfl

theorem Source.rewind_stable {src : Source} (h : src.later = []) : src.rewind = { src with rp := 0 } := by
  simp [Source.rewind, h]

/-! ## COUNT -/

/-- How often a symbol occurs among bytes. -/
def occurrences (bytes : List Byte) (k : Nat) : Nat := bytes.countP (fun b => b.toNat == k)

theorem occurrences_cons (b : Byte) (bytes : List Byte) (k : Nat) :
    occurrences (b :: bytes) k = occurrences bytes k + if b.toNat = k then 1 else 0 := by
  simp [occurrences, List.countP_cons]

theorem occurrences_byte (bytes : List Byte) (b : Byte) : occurrences bytes b.toNat = bytes.count b := by
  rw [occurrences, List.count]
  congr 1
  funext x
  by_cases h : x = b
  · simp [h]
  · have : x.toNat ≠ b.toNat := fun e => h (BitVec.eq_of_toNat_eq e)
    simp [h, this]

/-- COUNT's loop over a stretch of the source in which no count overflows. -/
theorem countLoop_stretch (pre : List Byte) {turns : Nat} {freq : Memory Word} {src : Source} {more : List Bool}
    (hf : Memory.wf 0#32 freq) (hr : src.rest = bitsOfBytes pre ++ more) (ht : pre.length ≤ turns)
    (hc : ∀ k, (freqAt freq k).toNat + occurrences pre k < 2 ^ 32) :
    ∃ freq', countLoop turns freq src = countLoop (turns - pre.length) freq' (src.consumed (8 * pre.length)) ∧
      Memory.wf 0#32 freq' ∧ ∀ k, (freqAt freq' k).toNat = (freqAt freq k).toNat + occurrences pre k := by
  induction pre generalizing turns freq src with
  | nil => exact ⟨freq, by simp, hf, by simp [occurrences]⟩
  | cons b pre ih =>
    obtain ⟨turns, rfl⟩ : ∃ n, turns = n + 1 := ⟨turns - 1, by simp at ht; omega⟩
    rw [bitsOfBytes_cons, List.append_assoc] at hr
    have hb := hc b.toNat
    rw [occurrences_cons, if_pos rfl] at hb
    have hne : freqAt freq b.toNat ≠ 0xFFFFFFFF#32 := by
      intro e; rw [e] at hb; simp at hb; omega
    have hnext : ∀ k, (freqAt (freqSet freq b.toNat (freqAt freq b.toNat + 1#32)) k).toNat =
        (freqAt freq k).toNat + if b.toNat = k then 1 else 0 := by
      intro k
      by_cases hk : b.toNat = k
      · subst hk
        rw [freqAt_freqSet_same hf, if_pos rfl, BitVec.toNat_add]
        simp only [BitVec.toNat_ofNat]
        norm_num
        omega
      · rw [freqAt_freqSet_other _ (Ne.symm hk), if_neg hk, Nat.add_zero]
    obtain ⟨freq', h1, h2, h3⟩ := ih (turns := turns) (src := src.consumed 8) (freqSet_wf hf b.toNat _)
      (by rw [Source.consumed_rest, hr, List.drop_left' (by simp)]) (by simp at ht; omega)
      (by intro k; rw [hnext]; have := hc k; rw [occurrences_cons] at this; omega)
    refine ⟨freq', ?_, h2, ?_⟩
    · rw [countLoop, Source.readByte hr]
      simp only [hne, if_false]
      rw [h1, Source.consumed_consumed]
      congr 1
      · simp
      · simp [List.length_cons]; ring_nf
    · intro k; rw [h3, hnext, occurrences_cons]; omega

/-- A symbol below a bound is counted once among the symbols below it. -/
theorem sum_indicator (v n : Nat) : ((List.range n).map (fun k => if v = k then 1 else 0)).sum = if v < n then 1 else 0 := by
  induction n with
  | zero => simp
  | succ n ih =>
    rw [List.range_succ, List.map_append, List.sum_append, ih]
    simp only [List.map_cons, List.map_nil, List.sum_cons, List.sum_nil, Nat.add_zero]
    by_cases h1 : v < n
    · rw [if_pos h1, if_neg (by omega), if_pos (by omega)]
    · by_cases h2 : v = n
      · rw [if_neg h1, if_pos h2, if_pos (by omega)]
      · rw [if_neg h1, if_neg h2, if_neg (by omega)]

/-- The counts of all byte values sum to the number of bytes (41_count R87). -/
theorem sum_occurrences (bytes : List Byte) (n : Nat) (hn : 256 ≤ n) :
    ((List.range n).map (fun k => occurrences bytes k)).sum = bytes.length := by
  induction bytes with
  | nil => simp [occurrences]
  | cons b bytes ih =>
    have hb := b.isLt
    simp only [occurrences_cons, List.sum_map_add, ih, sum_indicator, List.length_cons]
    rw [if_pos (by omega)]

theorem occurrences_large (bytes : List Byte) {k : Nat} (hk : 256 ≤ k) : occurrences bytes k = 0 := by
  unfold occurrences
  rw [List.countP_eq_zero]
  intro b _
  have := b.isLt
  simp; omega

theorem occurrences_of_byte {bytes : List Byte} {n : Nat} (hn : 0 < n) (h : ∀ b : Byte, bytes.count b < n) (k : Nat) :
    occurrences bytes k < n := by
  by_cases hk : k < 256
  · have := h (BitVec.ofNat 8 k)
    rw [← occurrences_byte, BitVec.toNat_ofNat, Nat.mod_eq_of_lt (by omega)] at this
    exact this
  · rw [occurrences_large _ (by omega)]; exact hn

/-- COUNT's loop to the end of the source. -/
theorem countLoop_all {bytes : List Byte} {turns : Nat} {freq : Memory Word} {src : Source}
    (hf : Memory.wf 0#32 freq) (hr : src.rest = bitsOfBytes bytes) (ht : bytes.length < turns)
    (hc : ∀ k, (freqAt freq k).toNat + occurrences bytes k < 2 ^ 32) :
    ∃ freq', countLoop turns freq src = (none, freq', src.exhausted) ∧
      Memory.wf 0#32 freq' ∧ ∀ k, (freqAt freq' k).toNat = (freqAt freq k).toNat + occurrences bytes k := by
  obtain ⟨freq', h1, h2, h3⟩ := countLoop_stretch bytes (more := []) hf (by simpa using hr) ht.le hc
  refine ⟨freq', ?_, h2, h3⟩
  obtain ⟨n, hn⟩ : ∃ n, turns - bytes.length = n + 1 := ⟨turns - bytes.length - 1, by omega⟩
  have hend : (src.consumed (8 * bytes.length)).rest = [] := by
    rw [Source.consumed_rest, hr, ← bitsOfBytes_length, List.drop_length]
  rw [h1, hn, countLoop, Source.readBits_eoi (by rw [hend]; simp)]
  rfl

/-- COUNT's loop at a byte whose count is full. -/
theorem countLoop_overflow {pre : List Byte} {b : Byte} {turns : Nat} {freq : Memory Word} {src : Source}
    {more : List Bool} (hf : Memory.wf 0#32 freq) (hr : src.rest = bitsOfBytes (pre ++ [b]) ++ more)
    (ht : pre.length < turns) (hc : ∀ k, (freqAt freq k).toNat + occurrences pre k < 2 ^ 32)
    (hb : (freqAt freq b.toNat).toNat + occurrences pre b.toNat = 2 ^ 32 - 1) :
    ∃ freq', countLoop turns freq src = (some b.toNat, freq', src.consumed (8 * (pre.length + 1))) ∧
      Memory.wf 0#32 freq' ∧ ∀ k, (freqAt freq' k).toNat = (freqAt freq k).toNat + occurrences pre k := by
  have hsplit : bitsOfBytes (pre ++ [b]) = bitsOfBytes pre ++ binOf 8 b.toNat := by
    simp [bitsOfBytes]
  rw [hsplit, List.append_assoc] at hr
  obtain ⟨freq', h1, h2, h3⟩ := countLoop_stretch pre hf hr ht.le hc
  refine ⟨freq', ?_, h2, h3⟩
  obtain ⟨n, hn⟩ : ∃ n, turns - pre.length = n + 1 := ⟨turns - pre.length - 1, by omega⟩
  have hrest : (src.consumed (8 * pre.length)).rest = binOf 8 b.toNat ++ more := by
    rw [Source.consumed_rest, hr, List.drop_left' (by simp)]
  have hfull : freqAt freq' b.toNat = 0xFFFFFFFF#32 := by
    apply BitVec.eq_of_toNat_eq; rw [h3, hb]; rfl
  rw [h1, hn, countLoop, Source.readByte hrest]
  simp only [hfull, if_true, Source.consumed_consumed]
  congr 3

/-! ## ENCODE -/

/-- The codeword of a symbol in a code table. -/
def wordOf (code : Memory Code) (k : Nat) : List Bool := (codeAt code k).bits

theorem encSymTo_some {code : Memory Code} {k : Nat} (h : (codeAt code k).len ≠ 0#9) (snk : Sink) :
    encSymTo code k snk = some (snk.append (wordOf code k)) := by
  simp [encSymTo, h, wordOf]

theorem encSymTo_none {code : Memory Code} {k : Nat} (h : (codeAt code k).len = 0#9) (snk : Sink) :
    encSymTo code k snk = none := by
  simp [encSymTo, h]

/-- ENCODE's loop over a stretch of the source whose bytes all have codewords. -/
theorem encodeLoop_stretch (pre : List Byte) {code : Memory Code} {turns : Nat} {src : Source} {snk : Sink}
    {more : List Bool} (hr : src.rest = bitsOfBytes pre ++ more) (ht : pre.length ≤ turns)
    (hc : ∀ b ∈ pre, (codeAt code b.toNat).len ≠ 0#9) :
    encodeLoop code turns src snk = encodeLoop code (turns - pre.length) (src.consumed (8 * pre.length))
      (snk.append (pre.flatMap (fun b => wordOf code b.toNat))) := by
  induction pre generalizing turns src snk with
  | nil => simp
  | cons b pre ih =>
    obtain ⟨turns, rfl⟩ : ∃ n, turns = n + 1 := ⟨turns - 1, by simp at ht; omega⟩
    rw [bitsOfBytes_cons, List.append_assoc] at hr
    rw [encodeLoop, Source.readByte hr]
    simp only [encSymTo_some (hc b (by simp))]
    rw [ih (src := src.consumed 8) (by rw [Source.consumed_rest, hr, List.drop_left' (by simp)]) (by simp at ht; omega)
      (fun x hx => hc x (by simp [hx])), Source.consumed_consumed, List.flatMap_cons, Sink.append_append]
    congr 1
    · simp
    · simp [List.length_cons]; ring_nf

/-- ENCODE's loop to the end of the source. -/
theorem encodeLoop_all {bytes : List Byte} {code : Memory Code} {turns : Nat} {src : Source} {snk : Sink}
    (hr : src.rest = bitsOfBytes bytes) (ht : bytes.length < turns)
    (hc : ∀ b ∈ bytes, (codeAt code b.toNat).len ≠ 0#9) :
    encodeLoop code turns src snk =
      (none, src.exhausted, snk.append (bytes.flatMap (fun b => wordOf code b.toNat))) := by
  rw [encodeLoop_stretch bytes (more := []) (by simpa using hr) ht.le hc]
  obtain ⟨n, hn⟩ : ∃ n, turns - bytes.length = n + 1 := ⟨turns - bytes.length - 1, by omega⟩
  have hend : (src.consumed (8 * bytes.length)).rest = [] := by
    rw [Source.consumed_rest, hr, ← bitsOfBytes_length, List.drop_length]
  rw [hn, encodeLoop, Source.readBits_eoi (by rw [hend]; simp)]
  rfl

/-- ENCODE's loop at a byte with no codeword. -/
theorem encodeLoop_missing {pre : List Byte} {b : Byte} {code : Memory Code} {turns : Nat} {src : Source} {snk : Sink}
    {more : List Bool} (hr : src.rest = bitsOfBytes (pre ++ [b]) ++ more) (ht : pre.length < turns)
    (hc : ∀ x ∈ pre, (codeAt code x.toNat).len ≠ 0#9) (hb : (codeAt code b.toNat).len = 0#9) :
    encodeLoop code turns src snk = (some b.toNat, src.consumed (8 * (pre.length + 1)),
      snk.append (pre.flatMap (fun x => wordOf code x.toNat))) := by
  have hsplit : bitsOfBytes (pre ++ [b]) = bitsOfBytes pre ++ binOf 8 b.toNat := by
    simp [bitsOfBytes]
  rw [hsplit, List.append_assoc] at hr
  rw [encodeLoop_stretch pre hr ht.le hc]
  obtain ⟨n, hn⟩ : ∃ n, turns - pre.length = n + 1 := ⟨turns - pre.length - 1, by omega⟩
  have hrest : (src.consumed (8 * pre.length)).rest = binOf 8 b.toNat ++ more := by
    rw [Source.consumed_rest, hr, List.drop_left' (by simp)]
  rw [hn, encodeLoop, Source.readByte hrest]
  simp only [encSymTo_none hb, Source.consumed_consumed]
  congr 3

/-! ## The decode walk -/

/-- A walk along the path of a leaf reaches it and reads exactly the path (46_decode R102). -/
theorem walk_path {look : Nat → Node} {bits more : List Bool} {sym : Sym} {d i turns : Nat} {l r : Tree} {src : Source}
    (ht : treeAt look d i = some (.node l r)) (hp : (Tree.node l r).isPath bits sym = true)
    (hr : src.rest = bits ++ more) (hn : bits.length ≤ turns) :
    walk look turns i src = (some sym, src.consumed bits.length) := by
  induction bits generalizing d i turns l r src with
  | nil => simp [Tree.isPath] at hp
  | cons b bits ih =>
    obtain ⟨turns, rfl⟩ : ∃ n, turns = n + 1 := ⟨turns - 1, by simp at hn; omega⟩
    obtain ⟨d', l', r', -, -, e, hl, hr'⟩ | ⟨d', l', r', -, -, e, hl, hr'⟩ :
        (∃ d' l' r', d = d' + 1 ∧ (look i).leaf = false ∧ Tree.node l r = .node l' r' ∧
          treeAt look d' (look i).l.toNat = some l' ∧ treeAt look d' (look i).r.toNat = some r') ∨
        (∃ d' l' r', d = d' + 1 ∧ (look i).leaf = false ∧ Tree.node l r = .node l' r' ∧
          treeAt look d' (look i).l.toNat = some l' ∧ treeAt look d' (look i).r.toNat = some r') := by
      rcases treeAt_cases ht with ⟨_, _, _, e⟩ | h
      · cases e
      · exact .inl h
    all_goals
      cases e
      rw [walk, Source.readBit (by simpa using hr)]
      simp only
      have hrest : (src.consumed 1).rest = bits ++ more := by rw [Source.consumed_rest, hr]; rfl
      have key : ∀ (t : Tree) (j : Nat), treeAt look d' j = some t → t.isPath bits sym = true →
          (if (look j).leaf then (some (look j).sym, src.consumed 1) else walk look turns j (src.consumed 1)) =
            (some sym, src.consumed (b :: bits).length) := by
        intro t j hj hpj
        rcases treeAt_cases hj with ⟨_, _, hlf, rfl⟩ | ⟨_, l2, r2, _, hlf, rfl, _, _⟩
        · cases bits with
          | nil => simp [Tree.isPath] at hpj; simp [hlf, hpj]
          | cons c bits => simp [Tree.isPath] at hpj
        · simp only [hlf, Bool.false_eq_true, if_false]
          rw [ih hj hpj hrest (by simp at hn; omega), Source.consumed_consumed, List.length_cons, Nat.add_comm 1]
      cases b
      · exact key l _ hl (by simpa [Tree.isPath] using hp)
      · exact key r _ hr' (by simpa [Tree.isPath] using hp)

/-- A walk whose source ends inside a path finds EOI (46_decode R102). -/
theorem walk_truncated {look : Nat → Node} {bits more : List Bool} {sym : Sym} {d i turns : Nat} {l r : Tree}
    {src : Source} (ht : treeAt look d i = some (.node l r)) (hp : (Tree.node l r).isPath (bits ++ more) sym = true)
    (hm : more ≠ []) (hr : src.rest = bits) (hn : bits.length < turns) :
    walk look turns i src = (none, src.exhausted) := by
  induction bits generalizing d i turns l r src with
  | nil =>
    obtain ⟨turns, rfl⟩ : ∃ n, turns = n + 1 := ⟨turns - 1, by omega⟩
    rw [walk, Source.readBits_eoi (by rw [hr]; simp)]
  | cons b bits ih =>
    obtain ⟨turns, rfl⟩ : ∃ n, turns = n + 1 := ⟨turns - 1, by simp at hn; omega⟩
    rcases treeAt_cases ht with ⟨_, _, _, e⟩ | ⟨d', l', r', -, -, e, hl, hr'⟩
    · cases e
    · cases e
      rw [walk, Source.readBit hr]
      simp only
      have hrest : (src.consumed 1).rest = bits := by rw [Source.consumed_rest, hr]; rfl
      have key : ∀ (t : Tree) (j : Nat), treeAt look d' j = some t → t.isPath (bits ++ more) sym = true →
          (if (look j).leaf then (some (look j).sym, src.consumed 1) else walk look turns j (src.consumed 1)) =
            (none, src.exhausted) := by
        intro t j hj hpj
        rcases treeAt_cases hj with ⟨_, _, hlf, rfl⟩ | ⟨_, l2, r2, _, hlf, rfl, _, _⟩
        · cases hb : bits ++ more with
          | nil => simp at hb; exact absurd hb.2 hm
          | cons c cs => rw [hb] at hpj; simp [Tree.isPath] at hpj
        · simp only [hlf, Bool.false_eq_true, if_false]
          rw [ih hj hpj hrest (by simp at hn; omega), Source.consumed_exhausted]
      cases b
      · exact key l _ hl (by simpa [Tree.isPath] using hp)
      · exact key r _ hr' (by simpa [Tree.isPath] using hp)

/-- The bits left bound the turns of a walk. -/
theorem Source.turns_eq (src : Source) : src.turns = src.rest.length + 1 := by
  rw [Source.rest_length]; rfl

/-- One walk of the machine along a path: the symbol, RESULT, and RP moved past the path (46_decode R102). -/
theorem walkSym_path {s : State} {bits more : List Bool} {sym : Sym} {l r : Tree} (ht : s.tree = some (.node l r))
    (hp : (Tree.node l r).isPath bits sym = true) (hr : s.source.rest = bits ++ more) :
    s.walkSym = (some sym, { s with source := s.source.consumed bits.length, result := ⟨true, sym⟩ }) := by
  have hw := walk_path (turns := s.source.turns) ht hp hr (by rw [Source.turns_eq, hr, List.length_append]; omega)
  rw [State.walkSym, hw]

theorem walkSym_truncated {s : State} {bits more : List Bool} {sym : Sym} {l r : Tree} (ht : s.tree = some (.node l r))
    (hp : (Tree.node l r).isPath (bits ++ more) sym = true) (hm : more ≠ []) (hr : s.source.rest = bits) :
    s.walkSym = (none, { s with source := s.source.exhausted }) := by
  have hw := walk_truncated (turns := s.source.turns) ht hp hm hr (by rw [Source.turns_eq, hr]; omega)
  rw [State.walkSym, hw]

/-- Decoding looks only at the arena and ROOT, which a walk and an output byte leave alone. -/
@[simp] theorem tree_with_stream (s : State) (src : Source) (snk : Sink) (res : Result) :
    ({ s with source := src, sink := snk, result := res } : State).tree = s.tree := rfl

/-- DECODE over the paths of symbols other than 256 emits their bytes (46_decode R104, R105). -/
theorem decodeLoop_stretch {l r : Tree} (words : List (Sym × List Bool)) {s : State} {more : List Bool} {turns : Nat}
    (ht : s.tree = some (.node l r)) (hp : ∀ w ∈ words, (Tree.node l r).isPath w.2 w.1 = true)
    (he : ∀ w ∈ words, symAddr w.1 ≠ Config.pseudoEof)
    (hr : s.source.rest = words.flatMap Prod.snd ++ more) (hn : words.length ≤ turns) :
    decodeLoop turns s = decodeLoop (turns - words.length)
      { s with
        source := s.source.consumed (words.flatMap Prod.snd).length
        sink := s.sink.append (words.flatMap (fun w => binOf 8 w.1.toNat))
        result := match words.getLast? with | some w => ⟨true, w.1⟩ | none => s.result } := by
  induction words generalizing s turns with
  | nil => simp
  | cons w words ih =>
    obtain ⟨turns, rfl⟩ : ∃ n, turns = n + 1 := ⟨turns - 1, by simp at hn; omega⟩
    rw [List.flatMap_cons, List.append_assoc] at hr
    have hw := walkSym_path ht (hp w (by simp)) hr
    rw [decodeLoop, hw]
    simp only [he w (by simp), if_false, State.emitByte, Sink.writeBits]
    rw [ih (turns := turns)]
    · simp only [Source.consumed_consumed, List.flatMap_cons, List.length_append, Sink.append_append, List.length_cons,
        Nat.add_sub_add_right]
      congr 2
      cases words with
      | nil => simp
      | cons v vs => simp [List.getLast?_cons]
    · exact ht
    · exact fun x hx => hp x (by simp [hx])
    · exact fun x hx => he x (by simp [hx])
    · show (s.source.consumed _).rest = _; rw [Source.consumed_rest, hr, List.drop_left]
    · simp at hn; omega

end Sys2Proof.Machine
end

