-- ==== Sys2Proof/Laws/Parse.lean ====
section
/-! SUPPORT. What READ_TREE's parse does on the serialization of a tree and on one cut short, and what it has read when
it succeeds (44_header R97). -/

namespace Sys2Proof.Machine

/-- The number of nodes of a tree. -/
def Tree.nodes : Tree → Nat
  | .leaf _ => 1
  | .node l r => l.nodes + r.nodes + 1

theorem Tree.nodes_leaves (t : Tree) : t.nodes + 1 = 2 * t.leaves := by
  induction t with
  | leaf => rfl
  | node l r ihl ihr => simp only [Tree.nodes, Tree.leaves]; omega

theorem Tree.nodes_pos (t : Tree) : 0 < t.nodes := by cases t <;> simp [Tree.nodes]

/-- The arena entries READ_TREE gives a tree from index n on, in pre-order (44_header R97). -/
def Tree.layout : Tree → Nat → List Node
  | .leaf sym, _ => [Node.mkLeaf sym 0#64]
  | .node l r, n =>
    Node.mkInternal 0#64 (n + 1) (n + 1 + l.nodes) :: (l.layout (n + 1) ++ r.layout (n + 1 + l.nodes))

@[simp] theorem Tree.layout_length (t : Tree) (n : Nat) : (t.layout n).length = t.nodes := by
  induction t generalizing n with
  | leaf => rfl
  | node l r ihl ihr => simp [Tree.layout, Tree.nodes, ihl, ihr]

/-- Setting the links of an entry after its subtrees have been appended. -/
theorem setLinks_append (pre post : List Node) (w : BitVec 64) (a b li ri : Nat) :
    setLinks (pre ++ Node.mkInternal w a b :: post) pre.length li ri = pre ++ Node.mkInternal w li ri :: post := by
  induction pre with
  | nil => simp [setLinks, Node.mkInternal]
  | cons x pre ih =>
    simp only [setLinks] at ih
    simp only [setLinks, List.cons_append, List.length_cons, List.modify_succ_cons, ih]

/-- Parsing the serialization of a tree: the tree's entries in pre-order, and RP just after its last bit (R97). -/
theorem parse_serialize (t : Tree) {depth : Nat} {p : ParseState} {more : List Bool}
    (hr : p.source.rest = t.serialize ++ more) (hs : ∀ sym ∈ t.symbols, sym.toNat ≤ Config.pseudoEof)
    (hc : p.count + t.nodes ≤ Config.nodeCap) (hn : p.nodes.length = p.count) (hd : t.leaves ≤ depth) :
    parse depth p = (.ok p.count,
      { source := p.source.consumed t.serialize.length
        nodes := p.nodes ++ t.layout p.count
        count := p.count + t.nodes
        leaves := p.leaves + t.leaves }) := by
  induction t generalizing depth p more with
  | leaf sym =>
    obtain ⟨depth, rfl⟩ : ∃ n, depth = n + 1 := ⟨depth - 1, by simp [Tree.leaves] at hd; omega⟩
    have hcount : p.count ≠ Config.nodeCap := by simp [Tree.nodes] at hc; omega
    rw [Tree.serialize, List.cons_append] at hr
    rw [parse, Source.readBit hr]
    have hrest : (p.source.consumed 1).rest = binOf 9 sym.toNat ++ more := by rw [Source.consumed_rest, hr]; rfl
    have h9 := Source.readBits_ahead hrest (by simp [binOf])
    rw [binOf_length, natOfBits_binOf, Nat.mod_eq_of_lt sym.isLt] at h9
    have hsym := hs sym (by simp [Tree.symbols])
    simp only [hcount, if_false, Bool.toNat_true, if_true, h9, Nat.not_lt.mpr hsym, gt_iff_lt]
    simp [Tree.serialize, Tree.layout, Tree.nodes, Tree.leaves, Nat.add_comm]
  | node l r ihl ihr =>
    obtain ⟨depth, rfl⟩ : ∃ n, depth = n + 1 := ⟨depth - 1, by
      have := (Tree.node l r).leaves_pos; omega⟩
    have hlp := l.leaves_pos
    have hrp := r.leaves_pos
    have hcount : p.count ≠ Config.nodeCap := by simp [Tree.nodes] at hc; omega
    rw [Tree.serialize, List.cons_append, List.append_assoc] at hr
    rw [parse, Source.readBit hr]
    have hrest : (p.source.consumed 1).rest = l.serialize ++ (r.serialize ++ more) := by
      rw [Source.consumed_rest, hr]; rfl
    have hl := ihl (depth := depth)
      (p := { p with source := p.source.consumed 1, nodes := p.nodes ++ [Node.mkInternal 0#64 0 0], count := p.count + 1 })
      hrest (fun s h => hs s (by simp [Tree.symbols, h])) (by simp [Tree.nodes] at hc ⊢; omega) (by simp [hn])
      (by simp [Tree.leaves] at hd; omega)
    have hr2 := ihr (depth := depth)
      (p := { source := (p.source.consumed 1).consumed l.serialize.length
              nodes := p.nodes ++ [Node.mkInternal 0#64 0 0] ++ l.layout (p.count + 1)
              count := p.count + 1 + l.nodes
              leaves := p.leaves + l.leaves })
      (more := more) (by rw [Source.consumed_rest, hrest, List.drop_left])
      (fun s h => hs s (by simp [Tree.symbols, h])) (by simp [Tree.nodes] at hc ⊢; omega)
      (by simp [hn]; omega) (by simp [Tree.leaves] at hd; omega)
    simp only [hcount, if_false, Bool.toNat_false, Nat.zero_ne_one] at *
    rw [hl]
    simp only
    rw [hr2]
    simp only [Source.consumed_consumed, Prod.mk.injEq, true_and]
    have hlinks := setLinks_append p.nodes (l.layout (p.count + 1) ++ r.layout (p.count + 1 + l.nodes)) 0#64 0 0
      (p.count + 1) (p.count + 1 + l.nodes)
    rw [hn] at hlinks
    simp only [List.append_assoc, List.singleton_append, List.cons_append, List.nil_append] at *
    simp only [hlinks, Tree.layout, Tree.serialize, Tree.nodes, Tree.leaves, List.length_cons, List.length_append,
      ParseState.mk.injEq, true_and]
    refine ⟨?_, ?_, ?_⟩
    · congr 1; omega
    · omega
    · omega

/-- The layout of a tree holds the tree, if the arena shows it and the links fit their 10 bits. -/
theorem treeAt_layout (t : Tree) {look : Nat → Node} {n d : Nat} (h : ∀ j, j < t.nodes → look (n + j) = (t.layout n).getD j (look (n + j)))
    (hn : n + t.nodes ≤ 1024) (hd : t.leaves ≤ d) : treeAt look d n = some t := by
  induction t generalizing n d with
  | leaf sym =>
    obtain ⟨d, rfl⟩ : ∃ k, d = k + 1 := ⟨d - 1, by simp [Tree.leaves] at hd; omega⟩
    have h0 := h 0 (by simp [Tree.nodes])
    simp [Tree.layout] at h0
    rw [treeAt_leaf_entry (by rw [h0]; rfl), h0]; rfl
  | node l r ihl ihr =>
    obtain ⟨d, rfl⟩ : ∃ k, d = k + 1 := ⟨d - 1, by have := (Tree.node l r).leaves_pos; omega⟩
    have hlp := l.leaves_pos
    have hrp := r.leaves_pos
    have hln := l.nodes_pos
    have hrn := r.nodes_pos
    simp only [Tree.nodes, Tree.leaves] at hn hd h
    have h0 := h 0 (by omega)
    simp only [Tree.layout, Nat.add_zero, List.getD_cons_zero] at h0
    have hl : (look n).l.toNat = n + 1 := by
      rw [h0]; simp only [Node.mkInternal, BitVec.toNat_ofNat]; exact Nat.mod_eq_of_lt (by omega)
    have hr : (look n).r.toNat = n + 1 + l.nodes := by
      rw [h0]; simp only [Node.mkInternal, BitVec.toNat_ofNat]; exact Nat.mod_eq_of_lt (by omega)
    refine treeAt_node (by rw [h0]; rfl) ?_ ?_
    · rw [hl]
      refine ihl ?_ (by omega) (by omega)
      intro j hj
      have := h (j + 1) (by omega)
      rw [show n + (j + 1) = n + 1 + j by omega] at this
      rw [this, Tree.layout, List.getD_cons_succ, List.getD_append _ _ _ _ (by simpa using hj)]
      simp only [List.getD_eq_getElem?_getD, Tree.layout_length, hj, List.getElem?_eq_getElem, Option.getD_some]
    · rw [hr]
      refine ihr ?_ (by omega) (by omega)
      intro j hj
      have := h (l.nodes + j + 1) (by omega)
      rw [show n + (l.nodes + j + 1) = n + 1 + l.nodes + j by omega] at this
      rw [this, Tree.layout, List.getD_cons_succ, List.getD_append_right _ _ _ _ (by simp)]
      simp only [Tree.layout_length, Nat.add_sub_cancel_left, List.getD_eq_getElem?_getD, hj,
        List.getElem?_eq_getElem, Option.getD_some]

/-- A header cut short is MALFORMED_HEADER, whatever the cut (R97). -/
theorem parse_truncated (t : Tree) {depth : Nat} {p : ParseState} {more : List Bool}
    (hr : p.source.rest ++ more = t.serialize) (hm : more ≠ [])
    (hs : ∀ sym ∈ t.symbols, sym.toNat ≤ Config.pseudoEof)
    (hc : p.count + t.nodes ≤ Config.nodeCap) (hn : p.nodes.length = p.count) (hd : t.leaves ≤ depth) :
    ∃ q, parse depth p = (.error ⟨.malformedHeader, none⟩, q) ∧ q.source = p.source.exhausted := by
  induction t generalizing depth p more with
  | leaf sym =>
    obtain ⟨depth, rfl⟩ : ∃ n, depth = n + 1 := ⟨depth - 1, by simp [Tree.leaves] at hd; omega⟩
    have hcount : p.count ≠ Config.nodeCap := by simp [Tree.nodes] at hc; omega
    cases hrest : p.source.rest with
    | nil =>
      refine ⟨_, by rw [parse, Source.readBits_eoi (by rw [hrest]; simp)], rfl⟩
    | cons b rest =>
      rw [hrest, Tree.serialize, List.cons_append] at hr
      obtain ⟨rfl, hr'⟩ := List.cons.inj hr
      have hlen : rest.length < 9 := by
        have := congrArg List.length hr'
        have hp := List.length_pos_iff.mpr hm
        simp at this; omega
      have h9 : (p.source.consumed 1).readBits 9 = (none, (p.source.consumed 1).exhausted) :=
        Source.readBits_eoi (by rw [Source.consumed_rest, hrest]; simpa using hlen)
      refine ⟨_, by rw [parse, Source.readBit hrest]; simp only [hcount, if_false, Bool.toNat_true, if_true, h9]; rfl, ?_⟩
      simp
  | node l r ihl ihr =>
    obtain ⟨depth, rfl⟩ : ∃ n, depth = n + 1 := ⟨depth - 1, by
      have := (Tree.node l r).leaves_pos; omega⟩
    have hlp := l.leaves_pos
    have hrp := r.leaves_pos
    have hcount : p.count ≠ Config.nodeCap := by simp [Tree.nodes] at hc; omega
    cases hrest : p.source.rest with
    | nil =>
      refine ⟨_, by rw [parse, Source.readBits_eoi (by rw [hrest]; simp)], rfl⟩
    | cons b rest =>
      rw [hrest, Tree.serialize, List.cons_append] at hr
      obtain ⟨rfl, hr'⟩ := List.cons.inj hr
      clear hr
      have hrest1 : (p.source.consumed 1).rest = rest := by rw [Source.consumed_rest, hrest]; rfl
      have hcl : p.count + 1 + l.nodes ≤ Config.nodeCap := by simp [Tree.nodes] at hc; omega
      rw [parse, Source.readBit hrest]
      simp only [hcount, if_false, Bool.toNat_false, Nat.zero_ne_one]
      by_cases hcut : l.serialize.length ≤ rest.length
      · -- the left subtree is whole
        have hpre : rest = l.serialize ++ rest.drop l.serialize.length := by
          have h1 : rest.take l.serialize.length = l.serialize := by
            have := congrArg (List.take l.serialize.length) hr'
            rwa [List.take_append_of_le_length hcut, List.take_left] at this
          conv_lhs => rw [← List.take_append_drop l.serialize.length rest, h1]
        have hl := parse_serialize l (depth := depth)
          (p := { p with source := p.source.consumed 1, nodes := p.nodes ++ [Node.mkInternal 0#64 0 0], count := p.count + 1 })
          (more := rest.drop l.serialize.length) (by rw [← hpre]; exact hrest1)
          (fun s h => hs s (by simp [Tree.symbols, h])) hcl (by simp [hn])
          (by simp [Tree.leaves] at hd; omega)
        rw [hl]
        simp only
        obtain ⟨q, hq, hqs⟩ := ihr (depth := depth) (more := more)
          (p := { source := (p.source.consumed 1).consumed l.serialize.length
                  nodes := p.nodes ++ [Node.mkInternal 0#64 0 0] ++ l.layout (p.count + 1)
                  count := p.count + 1 + l.nodes
                  leaves := p.leaves + l.leaves })
          (by
            have h2 : ((p.source.consumed 1).consumed l.serialize.length).rest = rest.drop l.serialize.length := by
              rw [Source.consumed_rest, hrest1]
            rw [h2]
            rw [hpre, List.append_assoc] at hr'
            simpa using List.append_cancel_left hr')
          hm (fun s h => hs s (by simp [Tree.symbols, h]))
          (by simp [Tree.nodes] at hc ⊢; omega) (by simp [hn]; omega) (by simp [Tree.leaves] at hd; omega)
        exact ⟨q, by rw [hq], by rw [hqs]; simp⟩
      · -- the cut is in the left subtree
        have hpre : l.serialize = rest ++ l.serialize.drop rest.length := by
          have h1 : l.serialize.take rest.length = rest := by
            have := congrArg (List.take rest.length) hr'
            rw [List.take_left, List.take_append_of_le_length (by omega)] at this
            exact this.symm
          conv_lhs => rw [← List.take_append_drop rest.length l.serialize, h1]
        obtain ⟨q, hq, hqs⟩ := ihl (depth := depth) (more := l.serialize.drop rest.length)
          (p := { p with source := p.source.consumed 1, nodes := p.nodes ++ [Node.mkInternal 0#64 0 0], count := p.count + 1 })
          (by simp only [hrest1]; exact hpre.symm)
          (by intro h; have := congrArg List.length h; simp at this; omega)
          (fun s h => hs s (by simp [Tree.symbols, h])) hcl (by simp [hn])
          (by simp [Tree.leaves] at hd; omega)
        exact ⟨q, by rw [hq], by rw [hqs]; simp⟩

/-! ## Everything a parse can do -/

/-- A parse that succeeds has read the serialization of a tree (R97). -/
theorem parse_ok {depth : Nat} {p q : ParseState} {i : Nat} (h : parse depth p = (.ok i, q))
    (hn : p.nodes.length = p.count) (hle : p.count ≤ Config.nodeCap) :
    ∃ (t : Tree) (more : List Bool), p.source.rest = t.serialize ++ more ∧ (∀ sym ∈ t.symbols, sym.toNat ≤ Config.pseudoEof) ∧
      p.count + t.nodes ≤ Config.nodeCap ∧ i = p.count ∧
      q = { source := p.source.consumed t.serialize.length
            nodes := p.nodes ++ t.layout p.count
            count := p.count + t.nodes
            leaves := p.leaves + t.leaves } := by
  induction depth generalizing p q i with
  | zero => cases h
  | succ depth ih =>
    rw [parse] at h
    rcases Source.readBits_cases p.source 1 with ⟨hsz, e⟩ | ⟨hsz, e⟩
    · rw [e] at h
      simp only at h
      have hskip : ({ p.source with rp := p.source.rp + 1 } : Source) = p.source.consumed 1 := rfl
      rw [hskip] at h
      have hrl : 1 ≤ p.source.rest.length := by rw [Source.rest_length]; omega
      obtain ⟨b, rest, hrest⟩ : ∃ b rest, p.source.rest = b :: rest := by
        cases hb : p.source.rest with
        | nil => rw [hb] at hrl; simp at hrl
        | cons b rest => exact ⟨b, rest, rfl⟩
      have hrest1 : (p.source.consumed 1).rest = rest := by rw [Source.consumed_rest, hrest]; rfl
      have hval : natOfBits (p.source.rest.take 1) = b.toNat := by rw [hrest]; simp [natOfBits]
      rw [hval] at h
      split at h
      · cases h
      · next hcount =>
        cases b with
        | true =>
          simp only [Bool.toNat_true, if_true] at h
          rcases Source.readBits_cases (p.source.consumed 1) 9 with ⟨hsz9, e9⟩ | ⟨hsz9, e9⟩
          · rw [e9] at h
            simp only at h
            split at h
            · cases h
            · next hv =>
              cases h
              have hlen : ((p.source.consumed 1).rest.take 9).length = 9 := by
                rw [List.length_take, Source.rest_length]; simp at hsz9 ⊢; omega
              have hlt := natOfBits_lt ((p.source.consumed 1).rest.take 9)
              rw [hlen] at hlt
              have hbin : binOf 9 (natOfBits ((p.source.consumed 1).rest.take 9)) = (p.source.consumed 1).rest.take 9 := by
                have := binOf_natOfBits ((p.source.consumed 1).rest.take 9)
                rwa [hlen] at this
              have htn : (BitVec.ofNat 9 (natOfBits ((p.source.consumed 1).rest.take 9))).toNat =
                  natOfBits ((p.source.consumed 1).rest.take 9) := by
                rw [BitVec.toNat_ofNat]; exact Nat.mod_eq_of_lt hlt
              refine ⟨.leaf (BitVec.ofNat 9 (natOfBits ((p.source.consumed 1).rest.take 9))),
                (p.source.consumed 1).rest.drop 9, ?_, ?_, ?_, rfl, ?_⟩
              · rw [Tree.serialize, htn, hbin, List.cons_append, List.take_append_drop, hrest1, hrest]
              · intro s hs
                simp only [Tree.symbols, List.mem_singleton] at hs
                subst hs
                rw [htn]; omega
              · simp only [Tree.nodes]; omega
              · simp only [Tree.serialize, Tree.layout, Tree.nodes, Tree.leaves, List.length_cons, binOf_length]
                congr 1
          · rw [e9] at h; cases h
        | false =>
          simp only [Bool.toNat_false, Nat.zero_ne_one, if_false] at h
          split at h
          · cases h
          · next li p1 h1 =>
            split at h
            · cases h
            · next ri p2 h2 =>
              cases h
              obtain ⟨l, more1, hl1, hl2, hl3, rfl, rfl⟩ := ih h1 (by simp [hn]) (by simp; omega)
              simp only at hl1 hl3 h2
              obtain ⟨r, more2, hr1, hr2, hr3, rfl, rfl⟩ := ih h2 (by simp [hn]; omega) (by simp; omega)
              simp only [Source.consumed_rest] at hr1 hr3
              have hl1' : rest = l.serialize ++ more1 := by rw [← hrest1]; exact hl1
              have hr1' : more1 = r.serialize ++ more2 := by
                have : rest.drop l.serialize.length = r.serialize ++ more2 := by
                  rw [← hr1, hrest]; rfl
                rwa [hl1', List.drop_left] at this
              refine ⟨.node l r, more2, ?_, ?_, ?_, rfl, ?_⟩
              · rw [Tree.serialize, List.cons_append, List.append_assoc, hrest, hl1', hr1']
              · intro s hs
                rcases List.mem_append.mp hs with hs | hs
                · exact hl2 s hs
                · exact hr2 s hs
              · simp only [Tree.nodes] at *; omega
              · have hlinks := setLinks_append p.nodes (l.layout (p.count + 1) ++ r.layout (p.count + 1 + l.nodes))
                  0#64 0 0 (p.count + 1) (p.count + 1 + l.nodes)
                rw [hn] at hlinks
                simp only [List.append_assoc, List.cons_append, List.nil_append] at *
                simp only [hlinks, Tree.layout, Tree.serialize, Tree.nodes, Tree.leaves, List.length_cons,
                  List.length_append, ParseState.mk.injEq, true_and, Source.consumed_consumed]
                refine ⟨?_, ?_, ?_⟩
                · congr 1; omega
                · omega
                · omega
    · rw [e] at h; cases h

end Sys2Proof.Machine
end

