-- ==== Sys2Proof/Laws/Build.lean ====
section
/-! SUPPORT. What BUILD's queue and merge loop do: extraction takes the least key, and the loop turns L leaves into one
strictly binary tree of 2·L − 1 nodes over the same leaves (42_build R88, R89, R91). -/

namespace Sys2Proof.Machine

/-! ## Extraction -/

theorem Key.before_irrefl (k : Key) : k.before k = false := by simp [Key.before]

theorem Key.before_iff (a b : Key) :
    a.before b = true ↔ a.w.toNat < b.w.toNat ∨ (a.w.toNat = b.w.toNat ∧ a.i < b.i) := by
  simp [Key.before, BitVec.lt_def, BitVec.toNat_eq]

theorem leastKey_mem (k : Key) (ks : List Key) : leastKey k ks ∈ k :: ks := by
  induction ks generalizing k with
  | nil => simp [leastKey]
  | cons x xs ih =>
    rw [leastKey]
    split
    · exact List.mem_cons_of_mem _ (ih x)
    · rcases List.mem_cons.mp (ih k) with h | h
      · rw [h]; simp
      · simp [h]

/-- No element of the queue comes before the one extracted (R88). -/
theorem leastKey_least (k : Key) (ks : List Key) : ∀ x ∈ k :: ks, x.before (leastKey k ks) = false := by
  induction ks generalizing k with
  | nil => intro x hx; simp at hx; subst hx; exact Key.before_irrefl x
  | cons y ys ih =>
    intro x hx
    rw [leastKey]
    have trans : ∀ a b c : Key, a.before b = false → b.before c = false → a.before c = false := by
      intro a b c h1 h2
      simp only [← Bool.not_eq_true, Key.before_iff] at *
      omega
    have asymm : ∀ a b : Key, a.before b = true → b.before a = false := by
      intro a b h1
      simp only [← Bool.not_eq_true, Key.before_iff] at *
      omega
    split
    · next h =>
      rcases List.mem_cons.mp hx with rfl | hx
      · exact trans x y _ (asymm y x h) (ih y y (by simp))
      · exact ih y x hx
    · next h =>
      rcases List.mem_cons.mp hx with rfl | hx
      · exact ih x x (by simp)
      · rcases List.mem_cons.mp hx with rfl | hx
        · exact trans x k _ (by simpa using h) (ih k k (by simp))
        · exact ih k x (by simp [hx])

/-- Everything ExtractMin does (R88). -/
theorem extractMin_some {pq rest : List Key} {k : Key} (h : extractMin pq = some (k, rest)) :
    k ∈ pq ∧ (∀ x ∈ pq, x.before k = false) ∧ pq.Perm (k :: rest) ∧ rest = pq.erase k := by
  cases pq with
  | nil => cases h
  | cons x xs =>
    simp only [extractMin, Option.some.injEq, Prod.mk.injEq] at h
    obtain ⟨rfl, rfl⟩ := h
    exact ⟨leastKey_mem x xs, leastKey_least x xs, List.perm_cons_erase (leastKey_mem x xs), rfl⟩

theorem extractMin_none {pq : List Key} (h : extractMin pq = none) : pq = [] := by
  cases pq with
  | nil => rfl
  | cons x xs => cases h

/-! ## Arenas whose links point down -/

/-- Below n every entry is a leaf or has smaller children (R91 (b)). -/
def Descends (look : Nat → Node) (n : Nat) : Prop :=
  ∀ i, i < n → (look i).leaf = true ∨ ((look i).l.toNat < i ∧ (look i).r.toNat < i)

theorem Descends.exists_tree {look : Nat → Node} {n i d : Nat} (h : Descends look n) (hi : i < n) (hd : i < d) :
    ∃ t, treeAt look d i = some t := by
  induction i using Nat.strongRecOn generalizing d with
  | ind i ih =>
    obtain ⟨d, rfl⟩ : ∃ k, d = k + 1 := ⟨d - 1, by omega⟩
    by_cases hl : (look i).leaf = true
    · exact ⟨_, treeAt_leaf_entry hl d⟩
    · rcases h i hi with h' | ⟨h1, h2⟩
      · exact absurd h' hl
      · obtain ⟨tl, htl⟩ := ih _ h1 (by omega) (d := d) (by omega)
        obtain ⟨tr, htr⟩ := ih _ h2 (by omega) (d := d) (by omega)
        exact ⟨_, treeAt_node (by simpa using hl) htl htr⟩

theorem Descends.treeAt_congr {look look' : Nat → Node} {n i d : Nat} (h : Descends look n)
    (he : ∀ j, j < n → look' j = look j) (hi : i < n) : treeAt look' d i = treeAt look d i := by
  induction d generalizing i with
  | zero => rfl
  | succ d ih =>
    rw [treeAt, treeAt, he i hi]
    rcases h i hi with hl | ⟨h1, h2⟩
    · simp [hl]
    · rw [ih (i := (look i).l.toNat) (by omega), ih (i := (look i).r.toNat) (by omega)]

theorem Descends.visit_congr {look look' : Nat → Node} {n i d : Nat} (h : Descends look n)
    (he : ∀ j, j < n → look' j = look j) (hi : i < n) : visitOrder look' d i = visitOrder look d i := by
  induction d generalizing i with
  | zero => rfl
  | succ d ih =>
    rw [visitOrder, visitOrder, he i hi]
    rcases h i hi with hl | ⟨h1, h2⟩
    · simp [hl]
    · rw [ih (i := (look i).l.toNat) (by omega), ih (i := (look i).r.toNat) (by omega)]

/-- The visit of a tree does not depend on how much depth is left over. -/
theorem visitOrder_mono {look : Nat → Node} {d d' i : Nat} {t : Tree} (h : treeAt look d i = some t) (hd : d ≤ d') :
    visitOrder look d' i = visitOrder look d i := by
  induction d generalizing d' i t with
  | zero => cases h
  | succ d ih =>
    obtain ⟨d'', rfl⟩ : ∃ k, d' = k + 1 := ⟨d' - 1, by omega⟩
    rcases treeAt_cases h with ⟨_, _, hl, _⟩ | ⟨d₁, l, r, e, hi, _, h1, h2⟩
    · simp [visitOrder, hl]
    · cases e
      simp [visitOrder, hi, ih h1 (show d ≤ d'' by omega), ih h2 (show d ≤ d'' by omega)]

/-! ## The merge loop -/

/-- A list of nodes as an arena. -/
def lookIn (nodes : List Node) (i : Nat) : Node := nodes.getD i (Node.mkLeaf 0#9 0#64)

/-- The symbols of the tree at an entry. -/
def symbolsAt (look : Nat → Node) (i : Nat) : List Sym :=
  match treeAt look walkDepth i with
  | some t => t.symbols
  | none => []

/-- The loop's invariant over L leaves `lv`: every queue element is the root of a tree of its own, and together these
trees have every entry and every leaf once (R91). -/
structure MergeInv (lv nodes : List Node) (pq : List Key) : Prop where
  count : nodes.length + pq.length = 2 * lv.length
  leaves : nodes.take lv.length = lv
  fits : lv.length ≤ nodes.length
  down : Descends (lookIn nodes) nodes.length
  inner : ∀ i, lv.length ≤ i → i < nodes.length → (lookIn nodes i).leaf = false ∧ (lookIn nodes i).sym = 0#9 ∧
    (lookIn nodes i).w.toNat =
      (lookIn nodes (lookIn nodes i).l.toNat).w.toNat + (lookIn nodes (lookIn nodes i).r.toNat).w.toNat
  roots : ∀ k ∈ pq, k.i < nodes.length ∧ k.w = (lookIn nodes k.i).w
  entries : (pq.flatMap (fun k => visitOrder (lookIn nodes) walkDepth k.i)).Perm (List.range nodes.length)
  symbols : (pq.flatMap (fun k => symbolsAt (lookIn nodes) k.i)).Perm (lv.map Node.sym)
  weights : (pq.map (fun k => k.w.toNat)).sum = (lv.map (fun n => n.w.toNat)).sum

theorem lookIn_lt {nodes : List Node} {i : Nat} (h : i < nodes.length) (more : List Node) :
    lookIn (nodes ++ more) i = lookIn nodes i := by
  simp [lookIn, List.getElem?_append_left h]

theorem lookIn_snoc (nodes : List Node) (n : Node) : lookIn (nodes ++ [n]) nodes.length = n := by
  simp [lookIn]

/-- One merge keeps the invariant. -/
theorem MergeInv.merge {lv nodes : List Node} {pq pq1 pq2 : List Key} {a b : Key} (h : MergeInv lv nodes pq)
    (h1 : extractMin pq = some (a, pq1)) (h2 : extractMin pq1 = some (b, pq2)) (hL : lv.length ≤ 257)
    (hw : (lv.map (fun n => n.w.toNat)).sum < 2 ^ 64) :
    MergeInv lv (nodes ++ [Node.mkInternal (a.w + b.w) a.i b.i]) (⟨a.w + b.w, nodes.length⟩ :: pq2) := by
  obtain ⟨ha, _, hpa, _⟩ := extractMin_some h1
  obtain ⟨hb, _, hpb, _⟩ := extractMin_some h2
  have hperm : pq.Perm (a :: b :: pq2) := hpa.trans (hpb.cons a)
  have hbq : b ∈ pq := hperm.mem_iff.mpr (by simp)
  have hlen : pq.length = pq2.length + 2 := by rw [hperm.length_eq]; rfl
  have hn : nodes.length ≤ 512 := by have := h.count; omega
  obtain ⟨hai, haw⟩ := h.roots a ha
  obtain ⟨hbi, hbw⟩ := h.roots b hbq
  have hla : (Node.mkInternal (a.w + b.w) a.i b.i).l.toNat = a.i := by
    simp only [Node.mkInternal, BitVec.toNat_ofNat]; exact Nat.mod_eq_of_lt (by omega)
  have hlb : (Node.mkInternal (a.w + b.w) a.i b.i).r.toNat = b.i := by
    simp only [Node.mkInternal, BitVec.toNat_ofNat]; exact Nat.mod_eq_of_lt (by omega)
  generalize hnew : Node.mkInternal (a.w + b.w) a.i b.i = new at *
  have hnewleaf : new.leaf = false := by rw [← hnew]; rfl
  have hneww : new.w = a.w + b.w := by rw [← hnew]; rfl
  have hnewsym : new.sym = 0#9 := by rw [← hnew]; rfl
  have hsame : ∀ j, j < nodes.length → lookIn (nodes ++ [new]) j = lookIn nodes j := fun j hj => lookIn_lt hj _
  have hlast := lookIn_snoc nodes new
  have hdown : Descends (lookIn (nodes ++ [new])) (nodes ++ [new]).length := by
    intro i hi
    simp only [List.length_append, List.length_singleton] at hi
    by_cases he : i = nodes.length
    · subst he; rw [hlast, hla, hlb]; exact .inr ⟨hai, hbi⟩
    · rw [hsame i (by omega)]; exact h.down i (by omega)
  have htree : ∀ i, i < nodes.length → ∀ d, treeAt (lookIn (nodes ++ [new])) d i = treeAt (lookIn nodes) d i :=
    fun i hi d => h.down.treeAt_congr hsame hi
  have hvisit : ∀ i, i < nodes.length → ∀ d, visitOrder (lookIn (nodes ++ [new])) d i = visitOrder (lookIn nodes) d i :=
    fun i hi d => h.down.visit_congr hsame hi
  obtain ⟨ta, hta⟩ := h.down.exists_tree hai (d := 1023) (by omega)
  obtain ⟨tb, htb⟩ := h.down.exists_tree hbi (d := 1023) (by omega)
  have hta' := treeAt_mono hta (show 1023 ≤ walkDepth by decide)
  have htb' := treeAt_mono htb (show 1023 ≤ walkDepth by decide)
  have hnewtree : treeAt (lookIn (nodes ++ [new])) walkDepth nodes.length = some (.node ta tb) := by
    refine treeAt_node (d := 1023) (by rw [hlast]; exact hnewleaf) ?_ ?_
    · rw [hlast, hla, htree _ hai]; exact hta
    · rw [hlast, hlb, htree _ hbi]; exact htb
  have hnewvisit : visitOrder (lookIn (nodes ++ [new])) walkDepth nodes.length =
      nodes.length :: (visitOrder (lookIn nodes) walkDepth a.i ++ visitOrder (lookIn nodes) walkDepth b.i) := by
    rw [show walkDepth = 1023 + 1 from rfl, visitOrder, hlast, hnewleaf, hla, hlb, hvisit _ hai, hvisit _ hbi,
      visitOrder_mono hta (show 1023 ≤ 1023 + 1 by omega), visitOrder_mono htb (show 1023 ≤ 1023 + 1 by omega)]
    simp
  have hroots2 : ∀ k ∈ pq2, k.i < nodes.length ∧ k.w = (lookIn nodes k.i).w :=
    fun k hk => h.roots k (hperm.mem_iff.mpr (by simp [hk]))
  have hsum : a.w.toNat + b.w.toNat + (pq2.map (fun k => k.w.toNat)).sum = (lv.map (fun n => n.w.toNat)).sum := by
    rw [← h.weights, (hperm.map _).sum_eq]; simp [Nat.add_assoc]
  constructor
  · have := h.count; simp only [List.length_append, List.length_cons, List.length_nil]; omega
  · rw [List.take_append_of_le_length h.fits]; exact h.leaves
  · have := h.fits; simp; omega
  · exact hdown
  · intro i hlo hi
    simp only [List.length_append, List.length_singleton] at hi
    by_cases he : i = nodes.length
    · subst he
      rw [hlast, hla, hlb, hsame _ hai, hsame _ hbi, hneww, ← haw, ← hbw]
      refine ⟨hnewleaf, hnewsym, ?_⟩
      rw [BitVec.toNat_add]
      exact Nat.mod_eq_of_lt (by omega)
    · have hi' : i < nodes.length := by omega
      obtain ⟨g1, g2, g3⟩ := h.inner i hlo hi'
      rw [hsame i hi']
      rcases h.down i hi' with hl | ⟨hl, hr⟩
      · rw [hl] at g1; cases g1
      · rw [hsame _ (by omega), hsame _ (by omega)]; exact ⟨g1, g2, g3⟩
  · intro k hk
    rcases List.mem_cons.mp hk with rfl | hk
    · simp only [List.length_append, List.length_singleton]
      exact ⟨by omega, by rw [hlast, hneww]⟩
    · obtain ⟨g1, g2⟩ := hroots2 k hk
      rw [hsame _ g1]
      exact ⟨by simp; omega, g2⟩
  · have e1 : (pq2.flatMap (fun k => visitOrder (lookIn (nodes ++ [new])) walkDepth k.i)) =
        pq2.flatMap (fun k => visitOrder (lookIn nodes) walkDepth k.i) := by
      apply List.flatMap_congr; intro k hk; exact hvisit _ (hroots2 k hk).1 _
    have e2 : (pq.flatMap (fun k => visitOrder (lookIn nodes) walkDepth k.i)).Perm
        (visitOrder (lookIn nodes) walkDepth a.i ++ (visitOrder (lookIn nodes) walkDepth b.i ++
          pq2.flatMap (fun k => visitOrder (lookIn nodes) walkDepth k.i))) := by
      have := hperm.flatMap_right (fun k => visitOrder (lookIn nodes) walkDepth k.i)
      simpa using this
    rw [List.flatMap_cons, hnewvisit, e1, List.length_append, List.length_singleton, List.range_succ,
      List.cons_append, List.append_assoc]
    refine List.Perm.trans ?_ (List.perm_append_singleton _ _).symm
    exact (e2.symm.trans h.entries).cons _
  · have e1 : (pq2.flatMap (fun k => symbolsAt (lookIn (nodes ++ [new])) k.i)) =
        pq2.flatMap (fun k => symbolsAt (lookIn nodes) k.i) := by
      apply List.flatMap_congr; intro k hk; simp only [symbolsAt, htree _ (hroots2 k hk).1]
    have e2 : (pq.flatMap (fun k => symbolsAt (lookIn nodes) k.i)).Perm
        (symbolsAt (lookIn nodes) a.i ++ (symbolsAt (lookIn nodes) b.i ++
          pq2.flatMap (fun k => symbolsAt (lookIn nodes) k.i))) := by
      have := hperm.flatMap_right (fun k => symbolsAt (lookIn nodes) k.i)
      simpa using this
    have e3 : symbolsAt (lookIn (nodes ++ [new])) nodes.length =
        symbolsAt (lookIn nodes) a.i ++ symbolsAt (lookIn nodes) b.i := by
      simp only [symbolsAt, hnewtree, hta', htb', Tree.symbols]
    rw [List.flatMap_cons, e3, e1, List.append_assoc]
    exact e2.symm.trans h.symbols
  · rw [List.map_cons, List.sum_cons, ← hsum]
    have : (a.w + b.w).toNat = a.w.toNat + b.w.toNat := by
      rw [BitVec.toNat_add]; exact Nat.mod_eq_of_lt (by omega)
    simp only [this]

/-- The loop ends with one element, the last node made. -/
theorem mergeLoop_inv {lv : List Node} (hL : lv.length ≤ 257) (hw : (lv.map (fun n => n.w.toNat)).sum < 2 ^ 64) :
    ∀ (turns : Nat) {nodes : List Node} {pq : List Key}, MergeInv lv nodes pq → pq.length ≤ turns + 1 → pq ≠ [] →
      (pq.length = 1 → ∀ k ∈ pq, k.i + 1 = nodes.length) →
      ∃ nodes' k, mergeLoop turns nodes pq = (nodes', [k]) ∧ MergeInv lv nodes' [k] ∧ k.i + 1 = nodes'.length := by
  intro turns
  induction turns with
  | zero =>
    intro nodes pq h hlen hne hlast
    have h1 : pq.length = 1 := by have := List.length_pos_iff.mpr hne; omega
    obtain ⟨k, rfl⟩ := List.length_eq_one_iff.mp h1
    exact ⟨nodes, k, rfl, h, hlast rfl k (by simp)⟩
  | succ turns ih =>
    intro nodes pq h hlen hne hlast
    rw [mergeLoop]
    cases he : extractMin pq with
    | none => exact absurd (extractMin_none he) hne
    | some p =>
      obtain ⟨a, pq1⟩ := p
      obtain ⟨_, _, hpa, _⟩ := extractMin_some he
      cases he2 : extractMin pq1 with
      | none =>
        have hnil := extractMin_none he2
        have h1 : pq.length = 1 := by rw [hpa.length_eq, hnil]; rfl
        obtain ⟨k, rfl⟩ := List.length_eq_one_iff.mp h1
        simp only [he2]
        exact ⟨nodes, k, rfl, h, hlast rfl k (by simp)⟩
      | some p =>
        obtain ⟨b, pq2⟩ := p
        obtain ⟨_, _, hpb, _⟩ := extractMin_some he2
        have hl : pq.length = pq2.length + 2 := by rw [hpa.length_eq, List.length_cons, hpb.length_eq]; rfl
        simp only [he2]
        refine ih (h.merge he he2 hL hw) (by simp; omega) (by simp) ?_
        intro h1 k hk
        have : pq2 = [] := by simpa using h1
        subst this
        simp only [List.mem_singleton] at hk
        subst hk
        simp

/-- The invariant at the start. -/
theorem mergeInv_start {lv : List Node} (hleaf : ∀ n ∈ lv, n.leaf = true) : MergeInv lv lv (initialQueue lv) := by
  have hlen : (initialQueue lv).length = lv.length := by simp [initialQueue]
  have hq : initialQueue lv = (List.range lv.length).map (fun i => ⟨(lookIn lv i).w, i⟩) := by
    apply List.ext_getElem (by simp [initialQueue])
    intro i h1 h2
    simp only [initialQueue, List.getElem_mapIdx, List.getElem_map, List.getElem_range, lookIn]
    simp only [initialQueue, List.length_mapIdx] at h1
    simp [h1]
  have hl : ∀ i, i < lv.length → (lookIn lv i).leaf = true := by
    intro i hi
    have : lookIn lv i = lv[i] := by simp [lookIn, hi]
    rw [this]; exact hleaf _ (List.getElem_mem hi)
  have hsyms : ∀ i, i < lv.length → symbolsAt (lookIn lv) i = [(lookIn lv i).sym] := by
    intro i hi
    have := treeAt_leaf_entry (hl i hi) 1023
    simp only [symbolsAt, show walkDepth = 1023 + 1 from rfl, this, Tree.symbols]
  constructor
  · rw [hlen]; omega
  · simp
  · exact le_rfl
  · exact fun i hi => .inl (hl i hi)
  · intro i h1 h2; omega
  · intro k hk
    rw [hq] at hk
    simp only [List.mem_map, List.mem_range] at hk
    obtain ⟨i, hi, rfl⟩ := hk
    exact ⟨hi, rfl⟩
  · rw [hq, List.flatMap_map]
    have : (List.range lv.length).flatMap (fun i => visitOrder (lookIn lv) walkDepth i) =
        (List.range lv.length).flatMap (fun i => [i]) := by
      apply List.flatMap_congr
      intro i hi
      rw [show walkDepth = 1023 + 1 from rfl, visitOrder, hl i (List.mem_range.mp hi)]; rfl
    rw [this]; simp
  · rw [hq, List.flatMap_map]
    have : (List.range lv.length).flatMap (fun i => symbolsAt (lookIn lv) i) =
        (List.range lv.length).flatMap (fun i => [(lookIn lv i).sym]) := by
      apply List.flatMap_congr
      intro i hi
      exact hsyms i (List.mem_range.mp hi)
    rw [this]
    have : (List.range lv.length).flatMap (fun i => [(lookIn lv i).sym]) = lv.map Node.sym := by
      rw [← List.map_eq_flatMap]
      apply List.ext_getElem (by simp)
      intro i h1 h2
      simp only [List.length_map] at h2
      simp [lookIn, h2]
    rw [this]
  · rw [hq, List.map_map]
    congr 1
    apply List.ext_getElem (by simp)
    intro i h1 h2
    simp only [List.length_map] at h2
    simp [lookIn, h2]

/-- BUILD's loop over L ≥ 1 leaves (R89, R91): 2·L − 1 nodes, the root last, and one tree over the leaves. -/
theorem mergeLoop_build {lv : List Node} (hne : 1 < lv.length) (hL : lv.length ≤ 257) (hleaf : ∀ n ∈ lv, n.leaf = true)
    (hw : (lv.map (fun n => n.w.toNat)).sum < 2 ^ 64) :
    ∃ nodes k, mergeLoop lv.length lv (initialQueue lv) = (nodes, [k]) ∧ MergeInv lv nodes [k] ∧
      nodes.length = 2 * lv.length - 1 ∧ k.i = 2 * lv.length - 2 := by
  have hlen : (initialQueue lv).length = lv.length := by simp [initialQueue]
  obtain ⟨nodes, k, h1, h2, h3⟩ := mergeLoop_inv hL hw lv.length (mergeInv_start hleaf) (by omega)
    (by intro h; rw [h] at hlen; simp at hlen; omega) (by intro h; omega)
  have hc := h2.count
  simp only [List.length_singleton] at hc
  exact ⟨nodes, k, h1, h2, by omega, by omega⟩

/-! ## BUILD's leaves -/

theorem usedSymbols_length (freq : Memory Word) : (usedSymbols freq).length ≤ 257 := by
  have := List.length_filter_le (fun s => freqAt freq s != 0#32) (List.range Config.numSymbols)
  simpa [usedSymbols, Config.numSymbols] using this

theorem mem_usedSymbols {freq : Memory Word} {k : Nat} : k ∈ usedSymbols freq ↔ k < 257 ∧ freqAt freq k ≠ 0#32 := by
  simp [usedSymbols, Config.numSymbols]

/-- The leaves BUILD makes when FREQ[256] is not 0: two or more, of distinct symbols up to 256 (R89, R90). -/
theorem buildLeaves_spec {freq : Memory Word} (h : freqAt freq 256 ≠ 0#32) :
    1 < (buildLeaves freq).length ∧ (buildLeaves freq).length ≤ 257 ∧ (∀ n ∈ buildLeaves freq, n.leaf = true) ∧
    ((buildLeaves freq).map (fun n => n.w.toNat)).sum < 2 ^ 64 ∧
    (buildLeaves freq).map (fun n => n.sym.toNat) =
      (if (usedSymbols freq).length = 1 then [0, 256] else usedSymbols freq) := by
  have h256 : 256 ∈ usedSymbols freq := mem_usedSymbols.mpr ⟨by norm_num, h⟩
  have hpos : 0 < (usedSymbols freq).length := List.length_pos_of_mem h256
  have hmap : (usedSymbols freq).map (fun s => (BitVec.ofNat 9 s).toNat) = usedSymbols freq := by
    conv_rhs => rw [← List.map_id (usedSymbols freq)]
    apply List.map_congr_left
    intro s hs
    rw [BitVec.toNat_ofNat]
    exact Nat.mod_eq_of_lt (by have := (mem_usedSymbols.mp hs).1; omega)
  have hsum : ∀ l : List Nat, (l.map (fun s => ((freqAt freq s).setWidth 64).toNat)).sum ≤ l.length * (2 ^ 32 - 1) := by
    intro l
    induction l with
    | nil => simp
    | cons x xs ih =>
      have h1 : ((freqAt freq x).setWidth 64).toNat ≤ 2 ^ 32 - 1 := by
        rw [BitVec.toNat_setWidth]
        have := (freqAt freq x).isLt
        rw [Nat.mod_eq_of_lt (by omega)]; omega
      simp only [List.map_cons, List.sum_cons, List.length_cons]
      have : (xs.length + 1) * (2 ^ 32 - 1) = xs.length * (2 ^ 32 - 1) + (2 ^ 32 - 1) := by ring
      omega
  have hle := usedSymbols_length freq
  unfold buildLeaves
  simp only [List.length_map]
  by_cases h1 : (usedSymbols freq).length = 1
  · simp only [h1, if_true]
    obtain ⟨x, hx⟩ := List.length_eq_one_iff.mp h1
    have hx256 : x = 256 := by
      rw [hx] at h256
      have : 256 = x := by simpa using h256
      exact this.symm
    subst hx256
    refine ⟨by simp [hx], by simp [hx], ?_, ?_, ?_⟩
    · intro n hn; rw [hx] at hn; simp [symbolLeaf] at hn; rcases hn with rfl | rfl <;> rfl
    · have := hsum [256]
      simp only [hx, symbolLeaf, Node.mkLeaf, List.map_cons, List.map_nil, List.sum_cons, List.sum_nil] at *
      simp at *
      omega
    · simp [hx, symbolLeaf, Node.mkLeaf]
  · simp only [h1, if_false]
    refine ⟨by simp; omega, by simpa using hle, ?_, ?_, ?_⟩
    · intro n hn
      simp only [List.mem_map] at hn
      obtain ⟨s, _, rfl⟩ := hn
      rfl
    · have := hsum (usedSymbols freq)
      simp only [List.map_map, Function.comp_def, symbolLeaf, Node.mkLeaf]
      have h2 : (usedSymbols freq).length * (2 ^ 32 - 1) ≤ 257 * (2 ^ 32 - 1) := Nat.mul_le_mul_right _ hle
      omega
    · simp only [List.map_map, Function.comp_def, symbolLeaf, Node.mkLeaf]
      exact hmap

/-- Each leaf holds its symbol's count (42_build R89, R90). -/
theorem buildLeaves_leaf {freq : Memory Word} (h : freqAt freq 256 ≠ 0#32) {n : Node} (hn : n ∈ buildLeaves freq) :
    n.leaf = true ∧ n.l = 0#10 ∧ n.r = 0#10 ∧ n.w.toNat = (freqAt freq n.sym.toNat).toNat := by
  have hs : ∀ n ∈ (usedSymbols freq).map (symbolLeaf freq),
      n.leaf = true ∧ n.l = 0#10 ∧ n.r = 0#10 ∧ n.w.toNat = (freqAt freq n.sym.toNat).toNat := by
    intro n hn
    simp only [List.mem_map] at hn
    obtain ⟨k, hk, rfl⟩ := hn
    have hk := (mem_usedSymbols.mp hk).1
    have := (freqAt freq k).isLt
    refine ⟨rfl, rfl, rfl, ?_⟩
    simp only [symbolLeaf, Node.mkLeaf, BitVec.toNat_setWidth, BitVec.toNat_ofNat]
    rw [Nat.mod_eq_of_lt (a := k) (by omega), Nat.mod_eq_of_lt (by omega)]
  unfold buildLeaves at hn
  simp only [List.length_map] at hn
  split at hn
  · next h1 =>
    rcases List.mem_cons.mp hn with rfl | hn
    · have h0 : freqAt freq 0 = 0#32 := by
        by_contra h0
        obtain ⟨x, hx⟩ := List.length_eq_one_iff.mp h1
        have m0 : 0 ∈ usedSymbols freq := mem_usedSymbols.mpr ⟨by norm_num, h0⟩
        have m256 : 256 ∈ usedSymbols freq := mem_usedSymbols.mpr ⟨by norm_num, h⟩
        rw [hx] at m0 m256
        simp at m0 m256
        omega
      simp [Node.mkLeaf, h0]
    · exact hs n hn
  · exact hs n hn

/-- The weights of the leaves sum to the counts (42_build R91 (c)). -/
theorem buildLeaves_sum (freq : Memory Word) :
    ((buildLeaves freq).map (fun n => n.w.toNat)).sum = ((List.range 257).map (fun k => (freqAt freq k).toNat)).sum := by
  have hw : ∀ k, (symbolLeaf freq k).w.toNat = (freqAt freq k).toNat := by
    intro k
    have := (freqAt freq k).isLt
    simp only [symbolLeaf, Node.mkLeaf, BitVec.toNat_setWidth]
    exact Nat.mod_eq_of_lt (by omega)
  have hf : ∀ l : List Nat, ((l.filter (fun k => freqAt freq k != 0#32)).map (fun k => (freqAt freq k).toNat)).sum =
      (l.map (fun k => (freqAt freq k).toNat)).sum := by
    intro l
    induction l with
    | nil => rfl
    | cons x xs ih =>
      by_cases hx : freqAt freq x = 0#32
      · rw [List.filter_cons_of_neg (by simp [hx]), ih, List.map_cons, List.sum_cons, hx]; simp
      · rw [List.filter_cons_of_pos (by simp [hx]), List.map_cons, List.sum_cons, ih, List.map_cons, List.sum_cons]
  have hm : (((usedSymbols freq).map (symbolLeaf freq)).map (fun n => n.w.toNat)).sum =
      ((List.range 257).map (fun k => (freqAt freq k).toNat)).sum := by
    rw [List.map_map, ← hf (List.range 257)]
    exact congrArg List.sum (List.map_congr_left (fun k _ => hw k))
  unfold buildLeaves
  simp only
  split
  · rw [List.map_cons, List.sum_cons, hm]; simp [Node.mkLeaf]
  · exact hm

/-- The first nodes of a merged arena are the leaves. -/
theorem MergeInv.leaf_at {lv nodes : List Node} {pq : List Key} (h : MergeInv lv nodes pq) {j : Nat} (hj : j < lv.length) :
    lookIn nodes j = lv[j] := by
  have h2 : nodes[j]? = lv[j]? := by
    conv_rhs => rw [← h.leaves]
    rw [List.getElem?_take_of_lt hj]
  rw [lookIn, List.getD_eq_getElem?_getD, h2, List.getElem?_eq_getElem hj]; rfl

end Sys2Proof.Machine
end

