-- ==== Sys2Proof/Laws/State.lean ====
section
/-! SUPPORT. One lemma per field of State per named update, each true by rfl but where a field's own update is deep, so that no proof unfolds an update. -/

namespace Sys2Proof.Machine

variable (s : State)

/-! ## complete -/

@[simp] theorem complete_seq : (complete s).seq = .idle := rfl

@[simp] theorem complete_ctrl : (complete s).ctrl = s.ctrl := rfl

@[simp] theorem complete_status : (complete s).status = s.status.completed := rfl

@[simp] theorem complete_irq : (complete s).irq = { s.irq with doneIrq := true } := rfl

@[simp] theorem complete_err : (complete s).err = s.err := rfl

@[simp] theorem complete_magic : (complete s).magic = s.magic := rfl

@[simp] theorem complete_result : (complete s).result = s.result := rfl

@[simp] theorem complete_nodeCount : (complete s).nodeCount = s.nodeCount := rfl

@[simp] theorem complete_root : (complete s).root = s.root := rfl

@[simp] theorem complete_leafCount : (complete s).leafCount = s.leafCount := rfl

@[simp] theorem complete_hdrBits : (complete s).hdrBits = s.hdrBits := rfl

@[simp] theorem complete_freq : (complete s).freq = s.freq := rfl

@[simp] theorem complete_arena : (complete s).arena = s.arena := rfl

@[simp] theorem complete_code : (complete s).code = s.code := rfl

@[simp] theorem complete_source : (complete s).source = s.source := rfl

@[simp] theorem complete_sink : (complete s).sink = s.sink := rfl

@[simp] theorem complete_host : (complete s).host = s.host := rfl

@[simp] theorem complete_reply : (complete s).reply = s.reply := rfl

@[simp] theorem complete_taken : (complete s).taken = s.taken := rfl

@[simp] theorem complete_sinkFrom : (complete s).sinkFrom = s.sinkFrom := rfl

@[simp] theorem complete_resets : (complete s).resets = s.resets := rfl

@[simp] theorem complete_draws : (complete s).draws = s.draws := rfl

/-! ## raiseError -/

@[simp] theorem raiseError_seq (e : Raise) : (raiseError e s).seq = .idle := rfl

@[simp] theorem raiseError_ctrl (e : Raise) : (raiseError e s).ctrl = s.ctrl := rfl

@[simp] theorem raiseError_status (e : Raise) : (raiseError e s).status = s.status.failed := rfl

@[simp] theorem raiseError_irq (e : Raise) : (raiseError e s).irq = { s.irq with errIrq := true } := rfl

@[simp] theorem raiseError_err (e : Raise) : (raiseError e s).err = e.record := rfl

@[simp] theorem raiseError_magic (e : Raise) : (raiseError e s).magic = s.magic := rfl

@[simp] theorem raiseError_result (e : Raise) : (raiseError e s).result = s.result := rfl

@[simp] theorem raiseError_nodeCount (e : Raise) : (raiseError e s).nodeCount = s.nodeCount := rfl

@[simp] theorem raiseError_root (e : Raise) : (raiseError e s).root = s.root := rfl

@[simp] theorem raiseError_leafCount (e : Raise) : (raiseError e s).leafCount = s.leafCount := rfl

@[simp] theorem raiseError_hdrBits (e : Raise) : (raiseError e s).hdrBits = s.hdrBits := rfl

@[simp] theorem raiseError_freq (e : Raise) : (raiseError e s).freq = s.freq := rfl

@[simp] theorem raiseError_arena (e : Raise) : (raiseError e s).arena = s.arena := rfl

@[simp] theorem raiseError_code (e : Raise) : (raiseError e s).code = s.code := rfl

@[simp] theorem raiseError_source (e : Raise) : (raiseError e s).source = s.source := rfl

@[simp] theorem raiseError_sink (e : Raise) : (raiseError e s).sink = s.sink := rfl

@[simp] theorem raiseError_host (e : Raise) : (raiseError e s).host = s.host := rfl

@[simp] theorem raiseError_reply (e : Raise) : (raiseError e s).reply = s.reply := rfl

@[simp] theorem raiseError_taken (e : Raise) : (raiseError e s).taken = s.taken := rfl

@[simp] theorem raiseError_sinkFrom (e : Raise) : (raiseError e s).sinkFrom = s.sinkFrom := rfl

@[simp] theorem raiseError_resets (e : Raise) : (raiseError e s).resets = s.resets := rfl

@[simp] theorem raiseError_draws (e : Raise) : (raiseError e s).draws = s.draws := rfl

/-! ## leaveError -/

@[simp] theorem leaveError_seq : (leaveError s).seq = s.seq := rfl

@[simp] theorem leaveError_ctrl : (leaveError s).ctrl = s.ctrl := rfl

@[simp] theorem leaveError_status : (leaveError s).status = { s.status with err := false } := rfl

@[simp] theorem leaveError_irq : (leaveError s).irq = s.irq := rfl

@[simp] theorem leaveError_err : (leaveError s).err = ErrRecord.clear := rfl

@[simp] theorem leaveError_magic : (leaveError s).magic = s.magic := rfl

@[simp] theorem leaveError_result : (leaveError s).result = s.result := rfl

@[simp] theorem leaveError_nodeCount : (leaveError s).nodeCount = s.nodeCount := rfl

@[simp] theorem leaveError_root : (leaveError s).root = s.root := rfl

@[simp] theorem leaveError_leafCount : (leaveError s).leafCount = s.leafCount := rfl

@[simp] theorem leaveError_hdrBits : (leaveError s).hdrBits = s.hdrBits := rfl

@[simp] theorem leaveError_freq : (leaveError s).freq = s.freq := rfl

@[simp] theorem leaveError_arena : (leaveError s).arena = s.arena := rfl

@[simp] theorem leaveError_code : (leaveError s).code = s.code := rfl

@[simp] theorem leaveError_source : (leaveError s).source = s.source := rfl

@[simp] theorem leaveError_sink : (leaveError s).sink = s.sink := rfl

@[simp] theorem leaveError_host : (leaveError s).host = s.host := rfl

@[simp] theorem leaveError_reply : (leaveError s).reply = s.reply := rfl

@[simp] theorem leaveError_taken : (leaveError s).taken = s.taken := rfl

@[simp] theorem leaveError_sinkFrom : (leaveError s).sinkFrom = s.sinkFrom := rfl

@[simp] theorem leaveError_resets : (leaveError s).resets = s.resets := rfl

@[simp] theorem leaveError_draws : (leaveError s).draws = s.draws := rfl

/-! ## clearDatapath -/

@[simp] theorem clearDatapath_seq : (clearDatapath s).seq = s.seq := rfl

@[simp] theorem clearDatapath_ctrl : (clearDatapath s).ctrl = s.ctrl := rfl

@[simp] theorem clearDatapath_status : (clearDatapath s).status = s.status.cleared := rfl

@[simp] theorem clearDatapath_irq : (clearDatapath s).irq = s.irq := rfl

@[simp] theorem clearDatapath_err : (clearDatapath s).err = s.err := rfl

@[simp] theorem clearDatapath_magic : (clearDatapath s).magic = s.magic := rfl

@[simp] theorem clearDatapath_result : (clearDatapath s).result = ⟨false, 0#9⟩ := rfl

@[simp] theorem clearDatapath_nodeCount : (clearDatapath s).nodeCount = 0#10 := rfl

@[simp] theorem clearDatapath_root : (clearDatapath s).root = 0#10 := rfl

@[simp] theorem clearDatapath_leafCount : (clearDatapath s).leafCount = 0#9 := rfl

@[simp] theorem clearDatapath_hdrBits : (clearDatapath s).hdrBits = 0#32 := rfl

@[simp] theorem clearDatapath_freq : (clearDatapath s).freq = [] := rfl

@[simp] theorem clearDatapath_arena : (clearDatapath s).arena = s.arena := rfl

@[simp] theorem clearDatapath_code : (clearDatapath s).code = [] := rfl

@[simp] theorem clearDatapath_source : (clearDatapath s).source = s.source.rewind := rfl

@[simp] theorem clearDatapath_sink : (clearDatapath s).sink = s.sink.reopen := rfl

@[simp] theorem clearDatapath_host : (clearDatapath s).host = s.host := rfl

@[simp] theorem clearDatapath_reply : (clearDatapath s).reply = s.reply := rfl

@[simp] theorem clearDatapath_taken : (clearDatapath s).taken = s.taken := rfl

@[simp] theorem clearDatapath_sinkFrom : (clearDatapath s).sinkFrom = s.sinkFrom := rfl

@[simp] theorem clearDatapath_resets : (clearDatapath s).resets = s.resets := rfl

@[simp] theorem clearDatapath_draws : (clearDatapath s).draws = s.draws := rfl

/-! ## commitParse -/

@[simp] theorem commitParse_seq (p : ParseState) : (commitParse s p).seq = s.seq := rfl

@[simp] theorem commitParse_ctrl (p : ParseState) : (commitParse s p).ctrl = s.ctrl := rfl

@[simp] theorem commitParse_status (p : ParseState) : (commitParse s p).status = s.status.treeReadStart := rfl

@[simp] theorem commitParse_irq (p : ParseState) : (commitParse s p).irq = s.irq := rfl

@[simp] theorem commitParse_err (p : ParseState) : (commitParse s p).err = s.err := rfl

@[simp] theorem commitParse_magic (p : ParseState) : (commitParse s p).magic = s.magic := rfl

@[simp] theorem commitParse_result (p : ParseState) : (commitParse s p).result = s.result := rfl

@[simp] theorem commitParse_nodeCount (p : ParseState) : (commitParse s p).nodeCount = BitVec.ofNat 10 p.count := rfl

@[simp] theorem commitParse_root (p : ParseState) : (commitParse s p).root = 0#10 := rfl

@[simp] theorem commitParse_leafCount (p : ParseState) : (commitParse s p).leafCount = BitVec.ofNat 9 p.leaves := rfl

@[simp] theorem commitParse_hdrBits (p : ParseState) : (commitParse s p).hdrBits = BitVec.ofNat 32 (p.source.rp - s.source.rp) := rfl

@[simp] theorem commitParse_freq (p : ParseState) : (commitParse s p).freq = s.freq := rfl

@[simp] theorem commitParse_arena (p : ParseState) : (commitParse s p).arena = arenaWrite p.nodes s.arena := rfl

@[simp] theorem commitParse_code (p : ParseState) : (commitParse s p).code = s.code := rfl

@[simp] theorem commitParse_source (p : ParseState) : (commitParse s p).source = p.source := rfl

@[simp] theorem commitParse_sink (p : ParseState) : (commitParse s p).sink = s.sink := rfl

@[simp] theorem commitParse_host (p : ParseState) : (commitParse s p).host = s.host := rfl

@[simp] theorem commitParse_reply (p : ParseState) : (commitParse s p).reply = s.reply := rfl

@[simp] theorem commitParse_taken (p : ParseState) : (commitParse s p).taken = s.taken := rfl

@[simp] theorem commitParse_sinkFrom (p : ParseState) : (commitParse s p).sinkFrom = s.sinkFrom := rfl

@[simp] theorem commitParse_resets (p : ParseState) : (commitParse s p).resets = s.resets := rfl

@[simp] theorem commitParse_draws (p : ParseState) : (commitParse s p).draws = s.draws := rfl

/-! ## sawEof -/

@[simp] theorem sawEof_seq : (s.sawEof).seq = s.seq := rfl

@[simp] theorem sawEof_ctrl : (s.sawEof).ctrl = s.ctrl := rfl

@[simp] theorem sawEof_status : (s.sawEof).status = { s.status with eofSeen := true } := rfl

@[simp] theorem sawEof_irq : (s.sawEof).irq = s.irq := rfl

@[simp] theorem sawEof_err : (s.sawEof).err = s.err := rfl

@[simp] theorem sawEof_magic : (s.sawEof).magic = s.magic := rfl

@[simp] theorem sawEof_result : (s.sawEof).result = s.result := rfl

@[simp] theorem sawEof_nodeCount : (s.sawEof).nodeCount = s.nodeCount := rfl

@[simp] theorem sawEof_root : (s.sawEof).root = s.root := rfl

@[simp] theorem sawEof_leafCount : (s.sawEof).leafCount = s.leafCount := rfl

@[simp] theorem sawEof_hdrBits : (s.sawEof).hdrBits = s.hdrBits := rfl

@[simp] theorem sawEof_freq : (s.sawEof).freq = s.freq := rfl

@[simp] theorem sawEof_arena : (s.sawEof).arena = s.arena := rfl

@[simp] theorem sawEof_code : (s.sawEof).code = s.code := rfl

@[simp] theorem sawEof_source : (s.sawEof).source = s.source := rfl

@[simp] theorem sawEof_sink : (s.sawEof).sink = s.sink := rfl

@[simp] theorem sawEof_host : (s.sawEof).host = s.host := rfl

@[simp] theorem sawEof_reply : (s.sawEof).reply = s.reply := rfl

@[simp] theorem sawEof_taken : (s.sawEof).taken = s.taken := rfl

@[simp] theorem sawEof_sinkFrom : (s.sawEof).sinkFrom = s.sinkFrom := rfl

@[simp] theorem sawEof_resets : (s.sawEof).resets = s.resets := rfl

@[simp] theorem sawEof_draws : (s.sawEof).draws = s.draws := rfl

/-! ## emitByte -/

@[simp] theorem emitByte_seq (sym : Sym) : (s.emitByte sym).seq = s.seq := by simp only [State.emitByte]

@[simp] theorem emitByte_ctrl (sym : Sym) : (s.emitByte sym).ctrl = s.ctrl := by simp only [State.emitByte]

@[simp] theorem emitByte_status (sym : Sym) : (s.emitByte sym).status = s.status := by simp only [State.emitByte]

@[simp] theorem emitByte_irq (sym : Sym) : (s.emitByte sym).irq = s.irq := by simp only [State.emitByte]

@[simp] theorem emitByte_err (sym : Sym) : (s.emitByte sym).err = s.err := by simp only [State.emitByte]

@[simp] theorem emitByte_magic (sym : Sym) : (s.emitByte sym).magic = s.magic := by simp only [State.emitByte]

@[simp] theorem emitByte_result (sym : Sym) : (s.emitByte sym).result = s.result := by simp only [State.emitByte]

@[simp] theorem emitByte_nodeCount (sym : Sym) : (s.emitByte sym).nodeCount = s.nodeCount := by simp only [State.emitByte]

@[simp] theorem emitByte_root (sym : Sym) : (s.emitByte sym).root = s.root := by simp only [State.emitByte]

@[simp] theorem emitByte_leafCount (sym : Sym) : (s.emitByte sym).leafCount = s.leafCount := by simp only [State.emitByte]

@[simp] theorem emitByte_hdrBits (sym : Sym) : (s.emitByte sym).hdrBits = s.hdrBits := by simp only [State.emitByte]

@[simp] theorem emitByte_freq (sym : Sym) : (s.emitByte sym).freq = s.freq := by simp only [State.emitByte]

@[simp] theorem emitByte_arena (sym : Sym) : (s.emitByte sym).arena = s.arena := by simp only [State.emitByte]

@[simp] theorem emitByte_code (sym : Sym) : (s.emitByte sym).code = s.code := by simp only [State.emitByte]

@[simp] theorem emitByte_source (sym : Sym) : (s.emitByte sym).source = s.source := by simp only [State.emitByte]

@[simp] theorem emitByte_sink (sym : Sym) : (s.emitByte sym).sink = s.sink.writeBits 8 sym.toNat := by simp only [State.emitByte]

@[simp] theorem emitByte_host (sym : Sym) : (s.emitByte sym).host = s.host := by simp only [State.emitByte]

@[simp] theorem emitByte_reply (sym : Sym) : (s.emitByte sym).reply = s.reply := by simp only [State.emitByte]

@[simp] theorem emitByte_taken (sym : Sym) : (s.emitByte sym).taken = s.taken := by simp only [State.emitByte]

@[simp] theorem emitByte_sinkFrom (sym : Sym) : (s.emitByte sym).sinkFrom = s.sinkFrom := by simp only [State.emitByte]

@[simp] theorem emitByte_resets (sym : Sym) : (s.emitByte sym).resets = s.resets := by simp only [State.emitByte]

@[simp] theorem emitByte_draws (sym : Sym) : (s.emitByte sym).draws = s.draws := by simp only [State.emitByte]

/-! ## acceptCommand -/

@[simp] theorem acceptCommand_seq (v : Word) : (acceptCommand v s).seq = .exec v := rfl

@[simp] theorem acceptCommand_ctrl (v : Word) : (acceptCommand v s).ctrl = s.ctrl := rfl

@[simp] theorem acceptCommand_status (v : Word) : (acceptCommand v s).status = s.status.accepted v := rfl

@[simp] theorem acceptCommand_irq (v : Word) : (acceptCommand v s).irq = s.irq := rfl

@[simp] theorem acceptCommand_err (v : Word) : (acceptCommand v s).err = s.err := rfl

@[simp] theorem acceptCommand_magic (v : Word) : (acceptCommand v s).magic = s.magic := rfl

@[simp] theorem acceptCommand_result (v : Word) : (acceptCommand v s).result = s.result := rfl

@[simp] theorem acceptCommand_nodeCount (v : Word) : (acceptCommand v s).nodeCount = s.nodeCount := rfl

@[simp] theorem acceptCommand_root (v : Word) : (acceptCommand v s).root = s.root := rfl

@[simp] theorem acceptCommand_leafCount (v : Word) : (acceptCommand v s).leafCount = s.leafCount := rfl

@[simp] theorem acceptCommand_hdrBits (v : Word) : (acceptCommand v s).hdrBits = s.hdrBits := rfl

@[simp] theorem acceptCommand_freq (v : Word) : (acceptCommand v s).freq = s.freq := rfl

@[simp] theorem acceptCommand_arena (v : Word) : (acceptCommand v s).arena = s.arena := rfl

@[simp] theorem acceptCommand_code (v : Word) : (acceptCommand v s).code = s.code := rfl

@[simp] theorem acceptCommand_source (v : Word) : (acceptCommand v s).source = s.source := rfl

@[simp] theorem acceptCommand_sink (v : Word) : (acceptCommand v s).sink = s.sink := rfl

@[simp] theorem acceptCommand_host (v : Word) : (acceptCommand v s).host = s.host := rfl

@[simp] theorem acceptCommand_reply (v : Word) : (acceptCommand v s).reply = s.reply := rfl

@[simp] theorem acceptCommand_taken (v : Word) : (acceptCommand v s).taken = 0 := rfl

@[simp] theorem acceptCommand_sinkFrom (v : Word) : (acceptCommand v s).sinkFrom = s.sinkFrom := rfl

@[simp] theorem acceptCommand_resets (v : Word) : (acceptCommand v s).resets = s.resets := rfl

@[simp] theorem acceptCommand_draws (v : Word) : (acceptCommand v s).draws = s.draws := rfl

/-! ## dropCommand -/

@[simp] theorem dropCommand_seq : (dropCommand s).seq = s.seq := rfl

@[simp] theorem dropCommand_ctrl : (dropCommand s).ctrl = s.ctrl := rfl

@[simp] theorem dropCommand_status : (dropCommand s).status = { s.status with cmdDropped := true } := rfl

@[simp] theorem dropCommand_irq : (dropCommand s).irq = s.irq := rfl

@[simp] theorem dropCommand_err : (dropCommand s).err = s.err := rfl

@[simp] theorem dropCommand_magic : (dropCommand s).magic = s.magic := rfl

@[simp] theorem dropCommand_result : (dropCommand s).result = s.result := rfl

@[simp] theorem dropCommand_nodeCount : (dropCommand s).nodeCount = s.nodeCount := rfl

@[simp] theorem dropCommand_root : (dropCommand s).root = s.root := rfl

@[simp] theorem dropCommand_leafCount : (dropCommand s).leafCount = s.leafCount := rfl

@[simp] theorem dropCommand_hdrBits : (dropCommand s).hdrBits = s.hdrBits := rfl

@[simp] theorem dropCommand_freq : (dropCommand s).freq = s.freq := rfl

@[simp] theorem dropCommand_arena : (dropCommand s).arena = s.arena := rfl

@[simp] theorem dropCommand_code : (dropCommand s).code = s.code := rfl

@[simp] theorem dropCommand_source : (dropCommand s).source = s.source := rfl

@[simp] theorem dropCommand_sink : (dropCommand s).sink = s.sink := rfl

@[simp] theorem dropCommand_host : (dropCommand s).host = s.host := rfl

@[simp] theorem dropCommand_reply : (dropCommand s).reply = s.reply := rfl

@[simp] theorem dropCommand_taken : (dropCommand s).taken = s.taken := rfl

@[simp] theorem dropCommand_sinkFrom : (dropCommand s).sinkFrom = s.sinkFrom := rfl

@[simp] theorem dropCommand_resets : (dropCommand s).resets = s.resets := rfl

@[simp] theorem dropCommand_draws : (dropCommand s).draws = s.draws := rfl

/-! ## softReset -/

@[simp] theorem softReset_seq : (softReset s).seq = .init := rfl

@[simp] theorem softReset_ctrl : (softReset s).ctrl = ⟨false, false⟩ := rfl

@[simp] theorem softReset_status : (softReset s).status = State.reset.status := rfl

@[simp] theorem softReset_irq : (softReset s).irq = ⟨false, false⟩ := rfl

@[simp] theorem softReset_err : (softReset s).err = ⟨0#8, false, 0#32⟩ := rfl

@[simp] theorem softReset_magic : (softReset s).magic = Config.huffMagic := rfl

@[simp] theorem softReset_result : (softReset s).result = ⟨false, 0#9⟩ := rfl

@[simp] theorem softReset_nodeCount : (softReset s).nodeCount = 0#10 := rfl

@[simp] theorem softReset_root : (softReset s).root = 0#10 := rfl

@[simp] theorem softReset_leafCount : (softReset s).leafCount = 0#9 := rfl

@[simp] theorem softReset_hdrBits : (softReset s).hdrBits = 0#32 := rfl

@[simp] theorem softReset_freq : (softReset s).freq = [] := rfl

@[simp] theorem softReset_arena : (softReset s).arena = [] := rfl

@[simp] theorem softReset_code : (softReset s).code = [] := rfl

@[simp] theorem softReset_source : (softReset s).source = s.source.rewind := rfl

@[simp] theorem softReset_sink : (softReset s).sink = ⟨[], portSeen (letTimePass s)⟩ := rfl

@[simp] theorem softReset_host : (softReset s).host = s.host := rfl

@[simp] theorem softReset_reply : (softReset s).reply = s.reply := rfl

@[simp] theorem softReset_taken : (softReset s).taken = 0 := rfl

@[simp] theorem softReset_sinkFrom : (softReset s).sinkFrom = s.sinkFrom := rfl

@[simp] theorem softReset_resets : (softReset s).resets = s.resets + 1 := rfl

@[simp] theorem softReset_draws : (softReset s).draws = (letTimePass s).draws := rfl

/-! ## letTimePass -/

@[simp] theorem letTimePass_seq : (letTimePass s).seq = s.seq := by
  unfold letTimePass; split <;> rfl

@[simp] theorem letTimePass_ctrl : (letTimePass s).ctrl = s.ctrl := by
  unfold letTimePass; split <;> rfl

@[simp] theorem letTimePass_status : (letTimePass s).status = s.status := by
  unfold letTimePass; split <;> rfl

@[simp] theorem letTimePass_irq : (letTimePass s).irq = s.irq := by
  unfold letTimePass; split <;> rfl

@[simp] theorem letTimePass_err : (letTimePass s).err = s.err := by
  unfold letTimePass; split <;> rfl

@[simp] theorem letTimePass_magic : (letTimePass s).magic = s.magic := by
  unfold letTimePass; split <;> rfl

@[simp] theorem letTimePass_result : (letTimePass s).result = s.result := by
  unfold letTimePass; split <;> rfl

@[simp] theorem letTimePass_nodeCount : (letTimePass s).nodeCount = s.nodeCount := by
  unfold letTimePass; split <;> rfl

@[simp] theorem letTimePass_root : (letTimePass s).root = s.root := by
  unfold letTimePass; split <;> rfl

@[simp] theorem letTimePass_leafCount : (letTimePass s).leafCount = s.leafCount := by
  unfold letTimePass; split <;> rfl

@[simp] theorem letTimePass_hdrBits : (letTimePass s).hdrBits = s.hdrBits := by
  unfold letTimePass; split <;> rfl

@[simp] theorem letTimePass_freq : (letTimePass s).freq = s.freq := by
  unfold letTimePass; split <;> rfl

@[simp] theorem letTimePass_arena : (letTimePass s).arena = s.arena := by
  unfold letTimePass; split <;> rfl

@[simp] theorem letTimePass_code : (letTimePass s).code = s.code := by
  unfold letTimePass; split <;> rfl

@[simp] theorem letTimePass_source : (letTimePass s).source = s.source := by
  unfold letTimePass; split <;> rfl

@[simp] theorem letTimePass_sink : (letTimePass s).sink = s.sink := by
  unfold letTimePass; split <;> rfl

@[simp] theorem letTimePass_host : (letTimePass s).host = s.host := by
  unfold letTimePass; split <;> rfl

@[simp] theorem letTimePass_reply : (letTimePass s).reply = s.reply := by
  unfold letTimePass; split <;> rfl

@[simp] theorem letTimePass_sinkFrom : (letTimePass s).sinkFrom = s.sinkFrom := by
  unfold letTimePass; split <;> rfl

@[simp] theorem letTimePass_resets : (letTimePass s).resets = s.resets := by
  unfold letTimePass; split <;> rfl

/-! ## sinkFlush -/

@[simp] theorem sinkFlush_seq : s.sinkFlush.seq = s.seq := by
  unfold State.sinkFlush; split <;> rfl

@[simp] theorem sinkFlush_ctrl : s.sinkFlush.ctrl = s.ctrl := by
  unfold State.sinkFlush; split <;> rfl

@[simp] theorem sinkFlush_irq : s.sinkFlush.irq = s.irq := by
  unfold State.sinkFlush; split <;> rfl

@[simp] theorem sinkFlush_err : s.sinkFlush.err = s.err := by
  unfold State.sinkFlush; split <;> rfl

@[simp] theorem sinkFlush_magic : s.sinkFlush.magic = s.magic := by
  unfold State.sinkFlush; split <;> rfl

@[simp] theorem sinkFlush_result : s.sinkFlush.result = s.result := by
  unfold State.sinkFlush; split <;> rfl

@[simp] theorem sinkFlush_nodeCount : s.sinkFlush.nodeCount = s.nodeCount := by
  unfold State.sinkFlush; split <;> rfl

@[simp] theorem sinkFlush_root : s.sinkFlush.root = s.root := by
  unfold State.sinkFlush; split <;> rfl

@[simp] theorem sinkFlush_leafCount : s.sinkFlush.leafCount = s.leafCount := by
  unfold State.sinkFlush; split <;> rfl

@[simp] theorem sinkFlush_hdrBits : s.sinkFlush.hdrBits = s.hdrBits := by
  unfold State.sinkFlush; split <;> rfl

@[simp] theorem sinkFlush_freq : s.sinkFlush.freq = s.freq := by
  unfold State.sinkFlush; split <;> rfl

@[simp] theorem sinkFlush_arena : s.sinkFlush.arena = s.arena := by
  unfold State.sinkFlush; split <;> rfl

@[simp] theorem sinkFlush_code : s.sinkFlush.code = s.code := by
  unfold State.sinkFlush; split <;> rfl

@[simp] theorem sinkFlush_source : s.sinkFlush.source = s.source := by
  unfold State.sinkFlush; split <;> rfl

@[simp] theorem sinkFlush_host : s.sinkFlush.host = s.host := by
  unfold State.sinkFlush; split <;> rfl

@[simp] theorem sinkFlush_reply : s.sinkFlush.reply = s.reply := by
  unfold State.sinkFlush; split <;> rfl

@[simp] theorem sinkFlush_taken : s.sinkFlush.taken = s.taken := by
  unfold State.sinkFlush; split <;> rfl

@[simp] theorem sinkFlush_sinkFrom : s.sinkFlush.sinkFrom = s.sinkFrom := by
  unfold State.sinkFlush; split <;> rfl

@[simp] theorem sinkFlush_resets : s.sinkFlush.resets = s.resets := by
  unfold State.sinkFlush; split <;> rfl

@[simp] theorem sinkFlush_draws : s.sinkFlush.draws = s.draws := by
  unfold State.sinkFlush; split <;> rfl

theorem sinkFlush_closed (h : s.status.sinkClosed = true) : s.sinkFlush = s := by
  simp [State.sinkFlush, h]

theorem sinkFlush_open (h : s.status.sinkClosed = false) :
    s.sinkFlush = { s with sink := s.sink.close, status := { s.status with sinkClosed := true } } := by
  simp [State.sinkFlush, h]

/-! ## bindSink -/

@[simp] theorem bindSink_seq : (bindSink s).seq = s.seq := letTimePass_seq s

@[simp] theorem bindSink_ctrl : (bindSink s).ctrl = s.ctrl := letTimePass_ctrl s

@[simp] theorem bindSink_status : (bindSink s).status = s.status := letTimePass_status s

@[simp] theorem bindSink_irq : (bindSink s).irq = s.irq := letTimePass_irq s

@[simp] theorem bindSink_err : (bindSink s).err = s.err := letTimePass_err s

@[simp] theorem bindSink_magic : (bindSink s).magic = s.magic := letTimePass_magic s

@[simp] theorem bindSink_result : (bindSink s).result = s.result := letTimePass_result s

@[simp] theorem bindSink_nodeCount : (bindSink s).nodeCount = s.nodeCount := letTimePass_nodeCount s

@[simp] theorem bindSink_root : (bindSink s).root = s.root := letTimePass_root s

@[simp] theorem bindSink_leafCount : (bindSink s).leafCount = s.leafCount := letTimePass_leafCount s

@[simp] theorem bindSink_hdrBits : (bindSink s).hdrBits = s.hdrBits := letTimePass_hdrBits s

@[simp] theorem bindSink_freq : (bindSink s).freq = s.freq := letTimePass_freq s

@[simp] theorem bindSink_arena : (bindSink s).arena = s.arena := letTimePass_arena s

@[simp] theorem bindSink_code : (bindSink s).code = s.code := letTimePass_code s

@[simp] theorem bindSink_source : (bindSink s).source = s.source := letTimePass_source s

@[simp] theorem bindSink_sink : (bindSink s).sink = s.sink := letTimePass_sink s

@[simp] theorem bindSink_host : (bindSink s).host = s.host := letTimePass_host s

@[simp] theorem bindSink_reply : (bindSink s).reply = s.reply := letTimePass_reply s

@[simp] theorem bindSink_taken : (bindSink s).taken = (letTimePass s).taken := rfl

@[simp] theorem bindSink_sinkFrom : (bindSink s).sinkFrom = (portSeen (letTimePass s)).length := rfl

@[simp] theorem bindSink_resets : (bindSink s).resets = s.resets := letTimePass_resets s

@[simp] theorem bindSink_draws : (bindSink s).draws = (letTimePass s).draws := rfl

/-! ## bindSource -/

@[simp] theorem bindSource_seq (bytes : List Byte) (later : List (List Byte)) : (bindSource s bytes later).seq = s.seq := rfl

@[simp] theorem bindSource_ctrl (bytes : List Byte) (later : List (List Byte)) : (bindSource s bytes later).ctrl = s.ctrl := rfl

@[simp] theorem bindSource_status (bytes : List Byte) (later : List (List Byte)) : (bindSource s bytes later).status = s.status := rfl

@[simp] theorem bindSource_irq (bytes : List Byte) (later : List (List Byte)) : (bindSource s bytes later).irq = s.irq := rfl

@[simp] theorem bindSource_err (bytes : List Byte) (later : List (List Byte)) : (bindSource s bytes later).err = s.err := rfl

@[simp] theorem bindSource_magic (bytes : List Byte) (later : List (List Byte)) : (bindSource s bytes later).magic = s.magic := rfl

@[simp] theorem bindSource_result (bytes : List Byte) (later : List (List Byte)) : (bindSource s bytes later).result = s.result := rfl

@[simp] theorem bindSource_nodeCount (bytes : List Byte) (later : List (List Byte)) : (bindSource s bytes later).nodeCount = s.nodeCount := rfl

@[simp] theorem bindSource_root (bytes : List Byte) (later : List (List Byte)) : (bindSource s bytes later).root = s.root := rfl

@[simp] theorem bindSource_leafCount (bytes : List Byte) (later : List (List Byte)) : (bindSource s bytes later).leafCount = s.leafCount := rfl

@[simp] theorem bindSource_hdrBits (bytes : List Byte) (later : List (List Byte)) : (bindSource s bytes later).hdrBits = s.hdrBits := rfl

@[simp] theorem bindSource_freq (bytes : List Byte) (later : List (List Byte)) : (bindSource s bytes later).freq = s.freq := rfl

@[simp] theorem bindSource_arena (bytes : List Byte) (later : List (List Byte)) : (bindSource s bytes later).arena = s.arena := rfl

@[simp] theorem bindSource_code (bytes : List Byte) (later : List (List Byte)) : (bindSource s bytes later).code = s.code := rfl

@[simp] theorem bindSource_bytes (bytes : List Byte) (later : List (List Byte)) : (bindSource s bytes later).source.bytes = bytes := rfl

@[simp] theorem bindSource_later (bytes : List Byte) (later : List (List Byte)) :
    (bindSource s bytes later).source.later = later := rfl

/-- RP stays where the new source reaches it, and is within the source in any case (20_memory R57, 10_state R39). -/
theorem bindSource_rp (bytes : List Byte) (later : List (List Byte)) :
    (bindSource s bytes later).source.rp ≤ 8 * bytes.length ∧
    (s.source.rp ≤ 8 * bytes.length → (bindSource s bytes later).source.rp = s.source.rp) := by
  unfold bindSource
  split
  · next h => exact ⟨h, fun _ => rfl⟩
  · next h => exact ⟨Nat.le_of_lt_succ (Nat.mod_lt _ (by omega)), fun h' => absurd h' h⟩

@[simp] theorem bindSource_sink (bytes : List Byte) (later : List (List Byte)) : (bindSource s bytes later).sink = s.sink := rfl

@[simp] theorem bindSource_host (bytes : List Byte) (later : List (List Byte)) : (bindSource s bytes later).host = s.host := rfl

@[simp] theorem bindSource_reply (bytes : List Byte) (later : List (List Byte)) : (bindSource s bytes later).reply = s.reply := rfl

@[simp] theorem bindSource_taken (bytes : List Byte) (later : List (List Byte)) : (bindSource s bytes later).taken = s.taken := rfl

@[simp] theorem bindSource_sinkFrom (bytes : List Byte) (later : List (List Byte)) : (bindSource s bytes later).sinkFrom = s.sinkFrom := rfl

@[simp] theorem bindSource_resets (bytes : List Byte) (later : List (List Byte)) : (bindSource s bytes later).resets = s.resets := rfl

@[simp] theorem bindSource_draws (bytes : List Byte) (later : List (List Byte)) : (bindSource s bytes later).draws = s.draws + 1 := rfl

/-- A flushed sink is closed (20_memory R48). -/
@[simp] theorem sinkFlush_sinkClosed : s.sinkFlush.status.sinkClosed = true := by
  unfold State.sinkFlush; split
  · assumption
  · rfl

end Sys2Proof.Machine
end

