-- ==== Sys2Proof/Laws/Ops.lean ====
section
/-! SUPPORT. What the shared frame of the commands can do: one inversion lemma for `execute`, one for each of its
three exits, and the laws of running one body after another. -/

namespace Sys2Proof.Machine

/-! ## Running bodies -/

@[simp] theorem Run.andThen_ok (s : State) (f : State → Run) : (Run.ok s).andThen f = f s := rfl

@[simp] theorem Run.andThen_raise (e : Raise) (s : State) (f : State → Run) : (Run.raise e s).andThen f = .raise e s := rfl

@[simp] theorem Run.andThen_diverge (f : State → Run) : Run.diverge.andThen f = .diverge := rfl

@[simp] theorem Run.finish_ok (s : State) : (Run.ok s).finish = .next (complete s) := rfl

@[simp] theorem Run.finish_raise (e : Raise) (s : State) : (Run.raise e s).finish = .next (raiseError e s) := rfl

@[simp] theorem Run.finish_diverge : Run.diverge.finish = .fault .treeWalkDiverges := rfl

@[simp] theorem Run.flushOnRaise_ok (s : State) : (Run.ok s).flushOnRaise = .ok s := rfl

@[simp] theorem Run.flushOnRaise_raise (e : Raise) (s : State) :
    (Run.raise e s).flushOnRaise = .raise e s.sinkFlush := rfl

@[simp] theorem Run.flushOnRaise_diverge : Run.diverge.flushOnRaise = .diverge := rfl

/-- A body that ends well after another did: both ended well. -/
theorem Run.andThen_eq_ok {r : Run} {f : State → Run} {t : State} (h : r.andThen f = .ok t) :
    ∃ s, r = .ok s ∧ f s = .ok t := by
  cases r with
  | ok s => exact ⟨s, rfl, h⟩
  | raise e s => cases h
  | diverge => cases h

/-- A body that raises after another: one of the two raised. -/
theorem Run.andThen_eq_raise {r : Run} {f : State → Run} {e : Raise} {t : State} (h : r.andThen f = .raise e t) :
    r = .raise e t ∨ ∃ s, r = .ok s ∧ f s = .raise e t := by
  cases r with
  | ok s => exact .inr ⟨s, rfl, h⟩
  | raise e' s => cases h; exact .inl rfl
  | diverge => cases h

/-! ## Executing a command -/

variable {i : Instr} {body : State → Run} {s t : State}

/-- A legal command whose precondition holds runs its body (40_control R80). -/
theorem execute_body (hi : i.wellFormed = true) (hp : pre i s.status = true) : execute i body s = (body s).finish := by
  simp [execute, hi, hp]

/-- A legal command whose precondition fails ends with SEQUENCE before its body changes any state (40_control R81). -/
theorem execute_sequence (hi : i.wellFormed = true) (hp : pre i s.status = false) :
    execute i body s = .next (raiseError ⟨.sequence, some (encode i)⟩ s) := by
  simp [execute, hi, hp]

/-- An illegal command ends with ILLEGAL_COMMAND (40_control R80). -/
theorem execute_illegal (hi : i.wellFormed = false) :
    execute i body s = .next (raiseError ⟨.illegalCommand, some (encode i)⟩ s) := by
  simp [execute, hi]

/-- Everything a command can do when it ends. -/
theorem execute_next (h : execute i body s = .next t) :
    (pre i s.status = true ∧ ∃ u, body s = .ok u ∧ t = complete u) ∨
    (pre i s.status = true ∧ ∃ e u, body s = .raise e u ∧ t = raiseError e u) ∨
    (∃ e, t = raiseError e s) := by
  unfold execute at h
  split at h
  · split at h
    · next hp =>
      cases hb : body s with
      | ok u => rw [hb] at h; cases h; exact .inl ⟨hp, u, rfl, rfl⟩
      | raise e u => rw [hb] at h; cases h; exact .inr (.inl ⟨hp, e, u, rfl, rfl⟩)
      | diverge => rw [hb] at h; cases h
    · cases h; exact .inr (.inr ⟨_, rfl⟩)
  · cases h; exact .inr (.inr ⟨_, rfl⟩)

/-- The only fault of a command is a walk that never ends. -/
theorem execute_fault {r : Fault} (h : execute i body s = .fault r) : body s = .diverge ∧ r = .treeWalkDiverges := by
  unfold execute at h
  split at h
  · split at h
    · cases hb : body s with
      | ok u => rw [hb] at h; cases h
      | raise e u => rw [hb] at h; cases h
      | diverge => rw [hb] at h; cases h; exact ⟨rfl, rfl⟩
    · cases h
  · cases h

/-- A command is never refused. -/
theorem execute_not_refused {r : Refusal} : execute i body s ≠ .refused r := by
  unfold execute
  split
  · split
    · cases hb : body s <;> simp [Run.finish]
    · simp
  · simp

end Sys2Proof.Machine
end

