-- ==== Sys2Proof/Laws/Shapes.lean ====
section
/-! SUPPORT. What each command's body can leave behind, whether it ends well or raises: one lemma per body that names
every field it may write. -/

namespace Sys2Proof.Machine

/-- The body ended in this state, well or with a raise. -/
def Run.Ends (r : Run) (u : State) : Prop := r = .ok u ∨ ∃ e, r = .raise e u

theorem Run.ends_ok {s u : State} : (Run.ok s).Ends u ↔ u = s := by
  constructor
  · rintro (h | ⟨e, h⟩)
    · cases h; rfl
    · cases h
  · rintro rfl; exact .inl rfl

theorem Run.ends_raise {e : Raise} {s u : State} : (Run.raise e s).Ends u ↔ u = s := by
  constructor
  · rintro (h | ⟨e, h⟩)
    · cases h
    · cases h; rfl
  · rintro rfl; exact .inr ⟨e, rfl⟩

theorem Run.ends_diverge {u : State} : ¬ Run.diverge.Ends u := by
  rintro (h | ⟨e, h⟩) <;> cases h

/-- A body after another ends where the first raised, or where the second ends. -/
theorem Run.ends_andThen {r : Run} {f : State → Run} {u : State} (h : (r.andThen f).Ends u) :
    (∃ e, r = .raise e u) ∨ ∃ s, r = .ok s ∧ (f s).Ends u := by
  cases r with
  | ok s => exact .inr ⟨s, rfl, h⟩
  | raise e s => rw [Run.andThen_raise, Run.ends_raise] at h; exact .inl ⟨e, by rw [h]⟩
  | diverge => exact absurd h Run.ends_diverge

/-! ## Reading on -/

/-- The same bytes, and the bit pointer not behind and not beyond the end. -/
def Source.MovedOn (src src' : Source) : Prop :=
  src'.bytes = src.bytes ∧ src'.later = src.later ∧ (src.rp ≤ src.size → src.rp ≤ src'.rp ∧ src'.rp ≤ src.size)

theorem Source.MovedOn.refl (src : Source) : src.MovedOn src := ⟨rfl, rfl, fun h => ⟨le_rfl, h⟩⟩

theorem Source.MovedOn.trans {a b c : Source} (h1 : a.MovedOn b) (h2 : b.MovedOn c) : a.MovedOn c := by
  obtain ⟨hb, hl, hp⟩ := h1
  obtain ⟨hb', hl', hp'⟩ := h2
  have hs : b.size = a.size := by simp [Source.size, hb]
  refine ⟨hb'.trans hb, hl'.trans hl, fun h => ?_⟩
  obtain ⟨x, y⟩ := hp h
  obtain ⟨z, w⟩ := hp' (by rw [hs]; exact y)
  exact ⟨x.trans z, by rw [← hs]; exact w⟩

theorem Source.MovedOn.eq {a b : Source} (h : a.MovedOn b) : b = { a with rp := b.rp } := by
  obtain ⟨h1, h2, _⟩ := h
  cases b; simp_all

theorem Source.movedOn_readBits (src : Source) (k : Nat) : src.MovedOn (src.readBits k).2 := by
  rcases Source.readBits_cases src k with ⟨h, e⟩ | ⟨h, e⟩ <;> rw [e] <;> refine ⟨rfl, rfl, fun h' => ⟨?_, ?_⟩⟩ <;>
    simp <;> omega

theorem Source.readBits_movedOn {src src' : Source} {k : Nat} {v : Option Nat} (h : src.readBits k = (v, src')) :
    src.MovedOn src' := by
  have := Source.movedOn_readBits src k
  rw [h] at this; exact this

theorem Source.rewind_ok (src : Source) : src.rewind.rp ≤ src.rewind.size := by
  rw [Source.rewind_rp]; exact Nat.zero_le _

/-! ## The loops -/

theorem countLoop_shape {turns : Nat} {freq freq' : Memory Word} {src src' : Source} {v : Option Nat}
    (h : countLoop turns freq src = (v, freq', src')) :
    src.MovedOn src' ∧
    (Memory.wf 0#32 freq ∧ (∀ e ∈ freq, e.1 < 257) → Memory.wf 0#32 freq' ∧ ∀ e ∈ freq', e.1 < 257) := by
  induction turns generalizing freq src with
  | zero => cases h; exact ⟨.refl _, id⟩
  | succ turns ih =>
    rw [countLoop] at h
    split at h
    · next hr => cases h; exact ⟨Source.readBits_movedOn hr, id⟩
    · next b src1 hr =>
      split at h
      · cases h; exact ⟨Source.readBits_movedOn hr, id⟩
      · obtain ⟨h1, h2⟩ := ih h
        refine ⟨(Source.readBits_movedOn hr).trans h1, fun hf => h2 ⟨freqSet_wf hf.1 _ _, ?_⟩⟩
        intro e he
        have hb : b < 256 := by
          rcases Source.readBits_cases src 8 with ⟨hle, e⟩ | ⟨_, e⟩
          · rw [e] at hr
            cases hr
            refine lt_of_lt_of_le (natOfBits_lt _) ?_
            have := List.length_take_le 8 src.rest
            calc 2 ^ (List.take 8 src.rest).length ≤ 2 ^ 8 := Nat.pow_le_pow_right (by norm_num) this
              _ = 256 := by norm_num
          · rw [e] at hr; cases hr
        rcases Memory.mem_write he with hm | rfl
        · exact hf.2 _ hm
        · show b < 257; omega

theorem encodeLoop_shape {code : Memory Code} {turns : Nat} {src src' : Source} {snk snk' : Sink} {v : Option Nat}
    (h : encodeLoop code turns src snk = (v, src', snk')) :
    src.MovedOn src' ∧ ∃ bits, snk' = snk.append bits := by
  induction turns generalizing src snk with
  | zero => cases h; exact ⟨.refl _, [], rfl⟩
  | succ turns ih =>
    rw [encodeLoop] at h
    split at h
    · next hr => cases h; exact ⟨Source.readBits_movedOn hr, [], rfl⟩
    · next b src1 hr =>
      split at h
      · cases h; exact ⟨Source.readBits_movedOn hr, [], rfl⟩
      · next snk1 he =>
        obtain ⟨h1, bits, h2⟩ := ih h
        refine ⟨(Source.readBits_movedOn hr).trans h1, ?_⟩
        unfold encSymTo at he
        split at he
        · cases he
        · cases he; exact ⟨_, by rw [h2, ← Sink.append_append]⟩

theorem walk_shape {look : Nat → Node} {turns i : Nat} {src src' : Source} {v : Option Sym}
    (h : walk look turns i src = (v, src')) : src.MovedOn src' := by
  induction turns generalizing i src with
  | zero => cases h; exact .refl _
  | succ turns ih =>
    rw [walk] at h
    split at h
    · next hr => cases h; exact Source.readBits_movedOn hr
    · next b src1 hr =>
      by_cases hl : (look (if b = 0 then (look i).l.toNat else (look i).r.toNat)).leaf = true
      · simp only [hl, if_true] at h; cases h; exact Source.readBits_movedOn hr
      · simp only [hl, Bool.false_eq_true, if_false] at h; exact (Source.readBits_movedOn hr).trans (ih h)

/-- A walk changes the source and, on a leaf, RESULT. -/
theorem walkSym_shape {s t : State} {v : Option Sym} (h : s.walkSym = (v, t)) :
    ∃ src res, s.source.MovedOn src ∧ t = { s with source := src, result := res } ∧
      (res = match v with | none => s.result | some sym => ⟨true, sym⟩) := by
  unfold State.walkSym at h
  split at h
  · next src hw => cases h; exact ⟨src, s.result, walk_shape hw, rfl, rfl⟩
  · next sym src hw => cases h; exact ⟨src, _, walk_shape hw, rfl, rfl⟩

theorem decodeLoop_shape {turns : Nat} {s u : State} (h : (decodeLoop turns s).Ends u) :
    ∃ src bits res eof, s.source.MovedOn src ∧ bits.length % 8 = 0 ∧
      u = { s with source := src, sink := s.sink.append bits, result := res,
                   status := { s.status with eofSeen := s.status.eofSeen || eof } } := by
  induction turns generalizing s with
  | zero => rw [decodeLoop, Run.ends_raise] at h; exact ⟨s.source, [], s.result, false, .refl _, rfl, by rw [h]; simp⟩
  | succ turns ih =>
    rw [decodeLoop] at h
    split at h
    · next t hw =>
      obtain ⟨src, res, h1, rfl, _⟩ := walkSym_shape hw
      rw [Run.ends_raise] at h; subst h
      exact ⟨src, [], res, false, h1, rfl, by simp⟩
    · next sym t hw =>
      obtain ⟨src, res, h1, rfl, _⟩ := walkSym_shape hw
      split at h
      · rw [Run.ends_ok] at h; subst h
        exact ⟨src, [], res, true, h1, rfl, by simp [State.sawEof]⟩
      · obtain ⟨src', bits, res', eof, h2, h3, rfl⟩ := ih h
        refine ⟨src', binOf 8 sym.toNat ++ bits, res', eof, h1.trans h2, by simp; omega, ?_⟩
        simp only [State.emitByte, Sink.writeBits, Sink.append_append]

/-! ## The bodies -/

theorem countBody_shape {s u : State} (h : (countBody s).Ends u) :
    ∃ freq src, s.source.rewind.MovedOn src ∧ (Memory.wf 0#32 freq ∧ ∀ e ∈ freq, e.1 < 257) ∧
      u = { s with freq := freq, source := src } := by
  unfold countBody at h
  split at h
  · next v freq src hl =>
    rw [Run.ends_raise] at h; subst h
    obtain ⟨h1, h2⟩ := countLoop_shape hl
    exact ⟨freq, src, h1, h2 ⟨memory_nil_wf, by simp⟩, rfl⟩
  · next freq src hl =>
    rw [Run.ends_ok] at h; subst h
    obtain ⟨h1, h2⟩ := countLoop_shape hl
    obtain ⟨h2, h3⟩ := h2 ⟨memory_nil_wf, by simp⟩
    refine ⟨_, src, h1, ⟨freqSet_wf h2 _ _, ?_⟩, rfl⟩
    intro e he
    rcases Memory.mem_write he with hm | rfl
    · exact h3 _ hm
    · show 256 < 257; omega

theorem readMagicBody_shape {s u : State} (h : (readMagicBody s).Ends u) :
    ∃ src ok, s.source.MovedOn src ∧ u = { s with source := src, status := { s.status with magicOk := ok } } := by
  unfold readMagicBody at h
  split at h
  · next src hr => rw [Run.ends_raise] at h; exact ⟨src, false, Source.readBits_movedOn hr, h⟩
  · next v src hr =>
    split at h
    · rw [Run.ends_ok] at h; exact ⟨src, true, Source.readBits_movedOn hr, h⟩
    · rw [Run.ends_raise] at h; exact ⟨src, false, Source.readBits_movedOn hr, h⟩

/-- What every parse keeps: it only reads on, and the node counts stay within the arena. -/
theorem parse_shape {depth : Nat} {p : ParseState} (hle : p.count ≤ Config.nodeCap) (hn : p.nodes.length ≤ p.count)
    (hl : p.leaves ≤ p.count) :
    p.source.MovedOn (parse depth p).2.source ∧ (parse depth p).2.count ≤ Config.nodeCap ∧
      (parse depth p).2.nodes.length ≤ (parse depth p).2.count ∧ (parse depth p).2.leaves ≤ (parse depth p).2.count := by
  induction depth generalizing p with
  | zero => exact ⟨.refl _, hle, hn, hl⟩
  | succ depth ih =>
    rw [parse]
    cases h1 : p.source.readBits 1 with
    | mk v src =>
      have m1 := Source.readBits_movedOn h1
      cases v with
      | none => exact ⟨m1, hle, hn, hl⟩
      | some b =>
        simp only
        split
        · exact ⟨m1, hle, hn, hl⟩
        · next hcount =>
          split
          · cases h9 : src.readBits 9 with
            | mk v9 src9 =>
              have m9 := m1.trans (Source.readBits_movedOn h9)
              cases v9 with
              | none => exact ⟨m9, by simp; omega, by simp; omega, by simp; omega⟩
              | some v =>
                simp only
                split
                · exact ⟨m9, by simp; omega, by simp; omega, by simp; omega⟩
                · exact ⟨m9, by simp; omega, by simp; omega, by simp; omega⟩
          · have i1 := ih (p := { p with source := src, nodes := p.nodes ++ [Node.mkInternal 0#64 0 0], count := p.count + 1 })
              (by simp; omega) (by simp; omega) (by simp; omega)
            cases hp1 : parse depth { p with source := src, nodes := p.nodes ++ [Node.mkInternal 0#64 0 0], count := p.count + 1 } with
            | mk r1 p1 =>
              rw [hp1] at i1
              obtain ⟨a1, a2, a3, a4⟩ := i1
              cases r1 with
              | error e => exact ⟨m1.trans a1, a2, a3, a4⟩
              | ok li =>
                simp only
                have i2 := ih (p := p1) a2 a3 a4
                cases hp2 : parse depth p1 with
                | mk r2 p2 =>
                  rw [hp2] at i2
                  obtain ⟨b1, b2, b3, b4⟩ := i2
                  cases r2 with
                  | error e => exact ⟨(m1.trans a1).trans b1, b2, b3, b4⟩
                  | ok ri => exact ⟨(m1.trans a1).trans b1, b2, by simpa [setLinks] using b3, b4⟩

/-- READ_TREE: where the parse stops, and what it leaves. -/
theorem readTreeBody_shape {s u : State} (h : (readTreeBody s).Ends u) :
    ∃ p made, p = (parse 514 ⟨s.source, [], 0, 0⟩).2 ∧ s.source.MovedOn p.source ∧ p.count ≤ Config.nodeCap ∧
      p.nodes.length ≤ p.count ∧ p.leaves ≤ p.count ∧
      u = { commitParse s p with
              status := { s.status.treeReadStart with treeValid := made, treeSrc := made || s.status.treeSrc } } := by
  obtain ⟨h1, h2, h3, h4⟩ := parse_shape (depth := 514) (p := ⟨s.source, [], 0, 0⟩) (Nat.zero_le _) le_rfl le_rfl
  unfold readTreeBody at h
  split at h
  · next e p hp =>
    rw [hp] at h1 h2 h3 h4
    rw [Run.ends_raise] at h
    exact ⟨p, false, by rw [hp], h1, h2, h3, h4, by rw [h]; simp [commitParse, Status.treeReadStart]⟩
  · next i p hp =>
    rw [hp] at h1 h2 h3 h4
    simp only at h
    split at h
    · rw [Run.ends_raise] at h
      exact ⟨p, false, by rw [hp], h1, h2, h3, h4, by rw [h]; simp [commitParse, Status.treeReadStart]⟩
    · rw [Run.ends_ok] at h
      exact ⟨p, true, by rw [hp], h1, h2, h3, h4, by rw [h]; simp [commitParse, Status.treeReadStart, Status.treeMade]⟩

theorem buildBody_shape {s u : State} (h : (buildBody s).Ends u) :
    u = s ∨ ∃ nodes root leaves,
      u = { s with
              arena := arenaWrite nodes s.arena
              nodeCount := BitVec.ofNat 10 nodes.length
              root := root
              leafCount := leaves
              status := { s.status with treeValid := true, treeSrc := false, codesValid := false } } := by
  unfold buildBody at h
  split at h
  · rw [Run.ends_raise] at h; exact .inl h
  · rw [Run.ends_ok] at h; exact .inr ⟨_, _, _, h⟩

theorem gencodesBody_shape {s u : State} (h : (gencodesBody s).Ends u) :
    ∃ t, s.tree = some t ∧
      u = { s with code := codeTable (t.codes 0 0#256), status := { s.status with codesValid := true } } := by
  unfold gencodesBody at h
  split at h
  · exact absurd h Run.ends_diverge
  · next t ht => rw [Run.ends_ok] at h; exact ⟨t, ht, h⟩

theorem writeMagicBody_shape {s u : State} (h : (writeMagicBody s).Ends u) :
    u = { s with sink := s.sink.append (binOf 32 s.magic.toNat) } := by
  rw [writeMagicBody, Run.ends_ok] at h; exact h

theorem writeTreeBody_shape {s u : State} (h : (writeTreeBody s).Ends u) :
    ∃ t hdr, s.tree = some t ∧ u = { s with sink := s.sink.append t.serialize, hdrBits := hdr } := by
  unfold writeTreeBody at h
  split at h
  · exact absurd h Run.ends_diverge
  · next t ht => rw [Run.ends_ok] at h; exact ⟨t, _, ht, h⟩

theorem encSymBody_shape {k : Nat} {s u : State} (h : (encSymBody k s).Ends u) :
    ∃ bits, u = { s with sink := s.sink.append bits } := by
  unfold encSymBody encSymTo at h
  split at h
  · rw [Run.ends_raise] at h; exact ⟨[], by rw [h]; rfl⟩
  · next snk he =>
    rw [Run.ends_ok] at h
    split at he
    · cases he
    · cases he; exact ⟨_, h⟩

theorem encodeBody_shape {s u : State} (h : (encodeBody s).Ends u) :
    ∃ src bits, s.source.rewind.MovedOn src ∧ u = { s with source := src, sink := s.sink.append bits } := by
  unfold encodeBody at h
  split at h
  · next v src snk hl =>
    rw [Run.ends_raise] at h; subst h
    obtain ⟨h1, bits, rfl⟩ := encodeLoop_shape hl
    exact ⟨src, bits, h1, rfl⟩
  · next src snk hl =>
    obtain ⟨h1, bits, rfl⟩ := encodeLoop_shape hl
    obtain ⟨bits', rfl⟩ := encSymBody_shape h
    exact ⟨src, bits ++ bits', h1, by simp [Sink.append_append]⟩

theorem flushBody_shape {s u : State} (h : (flushBody s).Ends u) : u = s.sinkFlush := by
  rw [flushBody, Run.ends_ok] at h; exact h

theorem decSymBody_shape {s u : State} (h : (decSymBody s).Ends u) :
    ∃ src bits res eof, s.source.MovedOn src ∧ bits.length % 8 = 0 ∧
      u = { s with source := src, sink := s.sink.append bits, result := res,
                   status := { s.status with eofSeen := eof } } := by
  unfold decSymBody at h
  split at h
  · next t hw =>
    obtain ⟨src, res, h1, rfl, _⟩ := walkSym_shape hw
    rw [Run.ends_raise] at h; subst h
    exact ⟨src, [], res, false, h1, rfl, by simp⟩
  · next sym t hw =>
    obtain ⟨src, res, h1, rfl, _⟩ := walkSym_shape hw
    split at h
    · rw [Run.ends_ok] at h; subst h
      exact ⟨src, [], res, true, h1, rfl, by simp [State.sawEof]⟩
    · rw [Run.ends_ok] at h; subst h
      exact ⟨src, binOf 8 sym.toNat, res, false, h1, by simp, by simp [State.emitByte, Sink.writeBits]⟩

theorem decodeBody_shape {s u : State} (h : (decodeBody s).Ends u) :
    ∃ src bits res eof, s.source.MovedOn src ∧ bits.length % 8 = 0 ∧
      u = { s with source := src, sink := s.sink.append bits, result := res,
                   status := { s.status with eofSeen := eof } } := by
  unfold decodeBody at h
  obtain ⟨src, bits, res, eof, h1, h2, rfl⟩ := decodeLoop_shape h
  exact ⟨src, bits, res, eof, h1, h2, by simp⟩

theorem clearBody_shape {s u : State} (h : (clearBody s).Ends u) : u = leaveError (clearDatapath s) := by
  rw [clearBody, Run.ends_ok] at h; exact h

/-! ## What bodies keep -/

/-- Wherever the body ends, P still holds. -/
def Keeps (P : State → Prop) (body : State → Run) : Prop := ∀ s u, P s → (body s).Ends u → P u

theorem Keeps.andThen {P : State → Prop} {f g : State → Run} (hf : Keeps P f) (hg : Keeps P g) :
    Keeps P (fun s => (f s).andThen g) := by
  intro s u hs h
  rcases Run.ends_andThen h with ⟨e, h⟩ | ⟨t, h, h'⟩
  · exact hf s u hs (.inr ⟨e, h⟩)
  · exact hg t u (hf s t hs (.inl h)) h'

theorem Run.ends_flushOnRaise {r : Run} {u : State} (h : r.flushOnRaise.Ends u) :
    r = .ok u ∨ ∃ e s, r = .raise e s ∧ u = s.sinkFlush := by
  cases r with
  | ok s => rw [Run.flushOnRaise_ok, Run.ends_ok] at h; exact .inl (by rw [h])
  | raise e s => rw [Run.flushOnRaise_raise, Run.ends_raise] at h; exact .inr ⟨e, s, rfl, h⟩
  | diverge => exact absurd h Run.ends_diverge

/-- What COMPRESS leaves: P kept by the six bodies before FLUSH, and what P becomes with the flush (47_macro R106). -/
theorem compressBody_keeps {P Q : State → Prop} (h1 : Keeps P countBody) (h2 : Keeps P buildBody)
    (h3 : Keeps P gencodesBody) (h4 : Keeps P writeMagicBody) (h5 : Keeps P writeTreeBody) (h6 : Keeps P encodeBody)
    (hf : ∀ s, P s → Q s.sinkFlush) {s u : State} (hs : P s) (h : (compressBody s).Ends u) : Q u := by
  have all := ((((h1.andThen h2).andThen h3).andThen h4).andThen h5).andThen h6
  rcases Run.ends_flushOnRaise h with h' | ⟨e, t, h', rfl⟩
  · obtain ⟨t, h1, ht⟩ := Run.andThen_eq_ok h'
    cases ht
    exact hf t (all s t hs (.inl h1))
  · rcases Run.andThen_eq_raise h' with h1 | ⟨t', _, h1⟩
    · exact hf t (all s t hs (.inr ⟨e, h1⟩))
    · cases h1

/-- What DECOMPRESS leaves: P kept by its rewind and the three bodies before FLUSH, and what P becomes with the flush
(47_macro R107). -/
theorem decompressBody_keeps {P Q : State → Prop} (h0 : ∀ s, P s → P (decompressStart s))
    (h1 : Keeps P readMagicBody) (h2 : Keeps P readTreeBody) (h3 : Keeps P decodeBody)
    (hf : ∀ s, P s → Q s.sinkFlush) {s u : State} (hs : P s) (h : (decompressBody s).Ends u) : Q u := by
  have all := (h1.andThen h2).andThen h3
  rcases Run.ends_flushOnRaise h with h' | ⟨e, t, h', rfl⟩
  · obtain ⟨t, h1, ht⟩ := Run.andThen_eq_ok h'
    cases ht
    exact hf t (all _ t (h0 s hs) (.inl h1))
  · rcases Run.andThen_eq_raise h' with h1 | ⟨t', _, h1⟩
    · exact hf t (all _ t (h0 s hs) (.inr ⟨e, h1⟩))
    · cases h1

theorem Source.MovedOn.rewind_eq {a b : Source} (h : a.MovedOn b) : b.rewind = a.rewind := by
  obtain ⟨h1, h2, _⟩ := h
  simp only [Source.rewind, h2]
  split <;> simp [h1]

/-- A macro ends with its sink flushed, whether its bodies ended well or raised (47_macro R106, R107). -/
theorem Run.ends_flush {r : Run} {u : State} (h : ((r.andThen flushBody).flushOnRaise).Ends u) :
    ∃ t, r.Ends t ∧ u = t.sinkFlush := by
  rcases Run.ends_flushOnRaise h with h' | ⟨e, t, h', rfl⟩
  · obtain ⟨t, h1, ht⟩ := Run.andThen_eq_ok h'
    cases ht
    exact ⟨t, .inl h1, rfl⟩
  · rcases Run.andThen_eq_raise h' with h1 | ⟨t', _, h1⟩
    · exact ⟨t, .inr ⟨e, h1⟩, rfl⟩
    · cases h1

end Sys2Proof.Machine
end

