-- ==== Sys2Proof/Laws/Exec.lean ====
section
/-! SUPPORT. Every command through one door: its body, what `exec` can answer, and what any body keeps. -/

namespace Sys2Proof.Machine

/-- The body of each command (files 40 to 47 of the spec). -/
def bodyOf : Instr → State → Run
  | .nop => nopBody
  | .clear => clearBody
  | .count => countBody
  | .build => buildBody
  | .gencodes => gencodesBody
  | .writeMagic => writeMagicBody
  | .writeTree => writeTreeBody
  | .readMagic => readMagicBody
  | .readTree => readTreeBody
  | .encSym sym => encSymBody (symAddr sym)
  | .encode => encodeBody
  | .flush => flushBody
  | .decSym => decSymBody
  | .decode => decodeBody
  | .compress => compressBody
  | .decompress => decompressBody

theorem exec_eq (i : Instr) (s : State) : exec i s = execute i (bodyOf i) s := by cases i <;> rfl

/-- Everything a command that ends can have done (40_control R80). -/
theorem exec_next {i : Instr} {s t : State} (h : exec i s = .next t) :
    (pre i s.status = true ∧ ∃ u, bodyOf i s = .ok u ∧ t = complete u) ∨
    (pre i s.status = true ∧ ∃ e u, bodyOf i s = .raise e u ∧ t = raiseError e u) ∨
    (∃ e, e.kind = .illegalCommand ∧ i.wellFormed = false ∧ t = raiseError e s) ∨
    (∃ e, e.kind = .sequence ∧ pre i s.status = false ∧ t = raiseError e s) := by
  rw [exec_eq] at h
  unfold execute at h
  split at h
  · split at h
    · next hp =>
      cases hb : bodyOf i s with
      | ok u => rw [hb] at h; cases h; exact .inl ⟨hp, u, rfl, rfl⟩
      | raise e u => rw [hb] at h; cases h; exact .inr (.inl ⟨hp, e, u, rfl, rfl⟩)
      | diverge => rw [hb] at h; cases h
    · next hp => cases h; exact .inr (.inr (.inr ⟨_, rfl, by simpa using hp, rfl⟩))
  · next hi => cases h; exact .inr (.inr (.inl ⟨_, rfl, by simpa using hi, rfl⟩))

/-- A command with its precondition and a body that ends well completes. -/
theorem exec_ok {i : Instr} {s u : State} (hi : i.wellFormed = true) (hp : pre i s.status = true)
    (h : bodyOf i s = .ok u) : exec i s = .next (complete u) := by
  rw [exec_eq, execute_body hi hp, h]; rfl

/-- A command with its precondition and a body that raises ends with the error entry. -/
theorem exec_raise {i : Instr} {s u : State} {e : Raise} (hi : i.wellFormed = true) (hp : pre i s.status = true)
    (h : bodyOf i s = .raise e u) : exec i s = .next (raiseError e u) := by
  rw [exec_eq, execute_body hi hp, h]; rfl

/-- A relation that every command's body establishes, kept by completing and by the error entry, holds of every end. -/
theorem exec_keeps {i : Instr} {s t : State} {P Q : State → Prop} (h : exec i s = .next t)
    (hs : P s) (hb : pre i s.status = true → ∀ u, (bodyOf i s).Ends u → P u)
    (hc : ∀ u, P u → Q (complete u)) (hr : ∀ e u, P u → Q (raiseError e u)) : Q t := by
  rcases exec_next h with ⟨hp, u, hu, rfl⟩ | ⟨hp, e, u, hu, rfl⟩ | ⟨e, _, _, rfl⟩ | ⟨e, _, _, rfl⟩
  · exact hc u (hb hp u (.inl hu))
  · exact hr e u (hb hp u (.inr ⟨e, hu⟩))
  · exact hr e s hs
  · exact hr e s hs

/-- The precondition of each command, in words (40_control R81). -/
theorem pre_iff (i : Instr) (s : State) : pre i s.status = true ↔ Requires i s := by
  cases i <;> simp [pre, Requires]

theorem complete_eq (s : State) : complete s = s.completed := rfl

theorem raiseError_eq (e : Raise) (s : State) : raiseError e s = s.errored e.kind.code e.info := by
  cases e with
  | mk kind info => cases info <;> rfl

/-- No error code is 0 (60_exceptions R111). -/
theorem ErrorKind.code_ne_zero (k : ErrorKind) : k.code ≠ 0#8 := by cases k <;> decide

theorem ErrorKind.code_mem (k : ErrorKind) : k.code ∈ errorCodes := by cases k <;> decide

/-! ## What no body touches -/

/-- The fields that no command's body writes, and ERR with its record, which only CLEAR's body writes. -/
def SameAround (s u : State) : Prop :=
  u.ctrl = s.ctrl ∧ u.irq = s.irq ∧ u.magic = s.magic ∧ u.host = s.host ∧ u.reply = s.reply ∧ u.taken = s.taken ∧
  u.sinkFrom = s.sinkFrom ∧ u.resets = s.resets ∧ u.draws = s.draws ∧ u.seq = s.seq ∧ u.status.done = s.status.done ∧
  u.status.cmdDropped = s.status.cmdDropped

def SameError (s u : State) : Prop := u.status.err = s.status.err ∧ u.err = s.err

theorem sinkFlush_around {s u : State} (h : SameAround s u ∧ SameError s u) :
    SameAround s u.sinkFlush ∧ SameError s u.sinkFlush := by
  unfold State.sinkFlush; split <;> exact h

theorem keeps_count (s : State) : Keeps (fun u => SameAround s u ∧ SameError s u) countBody := by
  intro t u h h'; obtain ⟨_, _, _, _, rfl⟩ := countBody_shape h'; exact h

theorem keeps_build (s : State) : Keeps (fun u => SameAround s u ∧ SameError s u) buildBody := by
  intro t u h h'; obtain rfl | ⟨_, _, _, rfl⟩ := buildBody_shape h' <;> exact h

theorem keeps_gencodes (s : State) : Keeps (fun u => SameAround s u ∧ SameError s u) gencodesBody := by
  intro t u h h'; obtain ⟨_, _, rfl⟩ := gencodesBody_shape h'; exact h

theorem keeps_writeMagic (s : State) : Keeps (fun u => SameAround s u ∧ SameError s u) writeMagicBody := by
  intro t u h h'
  obtain ⟨snk, rfl⟩ : ∃ snk, u = { t with sink := snk } := ⟨_, writeMagicBody_shape h'⟩
  exact h

theorem keeps_writeTree (s : State) : Keeps (fun u => SameAround s u ∧ SameError s u) writeTreeBody := by
  intro t u h h'; obtain ⟨_, _, _, rfl⟩ := writeTreeBody_shape h'; exact h

theorem keeps_encode (s : State) : Keeps (fun u => SameAround s u ∧ SameError s u) encodeBody := by
  intro t u h h'; obtain ⟨_, _, _, rfl⟩ := encodeBody_shape h'; exact h

theorem keeps_readMagic (s : State) : Keeps (fun u => SameAround s u ∧ SameError s u) readMagicBody := by
  intro t u h h'; obtain ⟨_, _, _, rfl⟩ := readMagicBody_shape h'; exact h

theorem keeps_readTree (s : State) : Keeps (fun u => SameAround s u ∧ SameError s u) readTreeBody := by
  intro t u h h'; obtain ⟨_, _, _, _, _, _, _, rfl⟩ := readTreeBody_shape h'; exact h

theorem keeps_decode (s : State) : Keeps (fun u => SameAround s u ∧ SameError s u) decodeBody := by
  intro t u h h'; obtain ⟨_, _, _, _, _, _, rfl⟩ := decodeBody_shape h'; exact h

/-- What every body leaves alone; CLEAR alone touches the error. -/
theorem bodyOf_around {i : Instr} {s u : State} (h : (bodyOf i s).Ends u) :
    SameAround s u ∧ (i ≠ .clear → SameError s u) := by
  have self : SameAround s s ∧ SameError s s := by simp [SameAround, SameError]
  have done : ∀ {u}, SameAround s u ∧ SameError s u → SameAround s u ∧ (i ≠ .clear → SameError s u) :=
    fun h => ⟨h.1, fun _ => h.2⟩
  cases i with
  | nop => rw [bodyOf, nopBody, Run.ends_ok] at h; subst h; exact done self
  | clear => obtain rfl := clearBody_shape h; exact ⟨self.1, fun h => absurd rfl h⟩
  | count => exact done (keeps_count s s u self h)
  | build => exact done (keeps_build s s u self h)
  | gencodes => exact done (keeps_gencodes s s u self h)
  | writeMagic => exact done (keeps_writeMagic s s u self h)
  | writeTree => exact done (keeps_writeTree s s u self h)
  | readMagic => exact done (keeps_readMagic s s u self h)
  | readTree => exact done (keeps_readTree s s u self h)
  | encSym sym => obtain ⟨_, rfl⟩ := encSymBody_shape h; exact done self
  | encode => exact done (keeps_encode s s u self h)
  | flush => obtain rfl := flushBody_shape h; exact done (sinkFlush_around self)
  | decSym => obtain ⟨_, _, _, _, _, _, rfl⟩ := decSymBody_shape h; exact done self
  | decode => exact done (keeps_decode s s u self h)
  | compress =>
    exact done (compressBody_keeps (Q := fun u => SameAround s u ∧ SameError s u) (keeps_count s) (keeps_build s) (keeps_gencodes s) (keeps_writeMagic s)
      (keeps_writeTree s) (keeps_encode s) (fun _ => sinkFlush_around) self h)
  | decompress =>
    exact done (decompressBody_keeps (P := fun u => SameAround s u ∧ SameError s u)
      (Q := fun u => SameAround s u ∧ SameError s u) (fun _ h => h) (keeps_readMagic s) (keeps_readTree s) (keeps_decode s)
      (fun _ => sinkFlush_around) self h)

/-! ## Which errors a body raises -/

/-- An error of the datapath: neither ILLEGAL_COMMAND nor SEQUENCE, which come before any body (40_control R80). -/
def Raise.OfBody (e : Raise) : Prop := e.kind ≠ .illegalCommand ∧ e.kind ≠ .sequence

/-- The body raises errors of the datapath only. -/
def RaisesOwn (body : State → Run) : Prop := ∀ s e u, body s = .raise e u → e.OfBody

theorem RaisesOwn.andThen {f g : State → Run} (hf : RaisesOwn f) (hg : RaisesOwn g) :
    RaisesOwn (fun s => (f s).andThen g) := by
  intro s e u h
  rcases Run.andThen_eq_raise h with h | ⟨t, _, h⟩
  · exact hf s e u h
  · exact hg t e u h

theorem Run.flushOnRaise_eq_raise {r : Run} {e : Raise} {u : State} (h : r.flushOnRaise = .raise e u) :
    ∃ s, r = .raise e s ∧ u = s.sinkFlush := by
  cases r with
  | ok s => cases h
  | raise e' s => cases h; exact ⟨s, rfl, rfl⟩
  | diverge => cases h

theorem parse_raises {depth : Nat} {p q : ParseState} {e : Raise} (h : parse depth p = (.error e, q)) : e.OfBody := by
  induction depth generalizing p q with
  | zero => cases h; exact ⟨by decide, by decide⟩
  | succ depth ih =>
    rw [parse] at h
    split at h
    · cases h; exact ⟨by decide, by decide⟩
    · split at h
      · cases h; exact ⟨by decide, by decide⟩
      · split at h
        · split at h
          · cases h; exact ⟨by decide, by decide⟩
          · split at h
            · cases h; exact ⟨by simp, by simp⟩
            · cases h
        · split at h
          · next h1 => cases h; exact ih h1
          · split at h
            · next h2 => cases h; exact ih h2
            · cases h

theorem countBody_raises : RaisesOwn countBody := by
  intro s e u h
  unfold countBody at h
  split at h
  · cases h; exact ⟨by simp, by simp⟩
  · cases h

theorem buildBody_raises : RaisesOwn buildBody := by
  intro s e u h
  unfold buildBody at h
  split at h
  · cases h; exact ⟨by simp, by simp⟩
  · cases h

theorem gencodesBody_raises : RaisesOwn gencodesBody := by
  intro s e u h; unfold gencodesBody at h; split at h <;> cases h

theorem writeTreeBody_raises : RaisesOwn writeTreeBody := by
  intro s e u h; unfold writeTreeBody at h; split at h <;> cases h

theorem writeMagicBody_raises : RaisesOwn writeMagicBody := by intro s e u h; cases h

theorem flushBody_raises : RaisesOwn flushBody := by intro s e u h; cases h

theorem readMagicBody_raises : RaisesOwn readMagicBody := by
  intro s e u h
  unfold readMagicBody at h
  split at h
  · cases h; exact ⟨by simp, by simp⟩
  · split at h
    · cases h
    · cases h; exact ⟨by simp, by simp⟩

theorem readTreeBody_raises : RaisesOwn readTreeBody := by
  intro s e u h
  unfold readTreeBody at h
  split at h
  · next hp => cases h; exact parse_raises hp
  · simp only at h
    split at h
    · cases h; exact ⟨by simp, by simp⟩
    · cases h

theorem encSymBody_raises (k : Nat) : RaisesOwn (encSymBody k) := by
  intro s e u h
  unfold encSymBody at h
  split at h
  · cases h; exact ⟨by simp, by simp⟩
  · cases h

theorem encodeBody_raises : RaisesOwn encodeBody := by
  intro s e u h
  unfold encodeBody at h
  split at h
  · cases h; exact ⟨by simp, by simp⟩
  · exact encSymBody_raises _ _ _ _ h

theorem decSymBody_raises : RaisesOwn decSymBody := by
  intro s e u h
  unfold decSymBody at h
  split at h
  · cases h; exact ⟨by simp, by simp⟩
  · split at h <;> cases h

theorem decodeLoop_raises {turns : Nat} {s u : State} {e : Raise} (h : decodeLoop turns s = .raise e u) :
    e = ⟨.truncatedStream, none⟩ := by
  induction turns generalizing s with
  | zero => cases h; rfl
  | succ turns ih =>
    rw [decodeLoop] at h
    split at h
    · cases h; rfl
    · split at h
      · cases h
      · exact ih h

theorem decodeBody_raises : RaisesOwn decodeBody := by
  intro s e u h
  rw [decodeLoop_raises h]; exact ⟨by simp, by simp⟩

theorem bodyOf_raises (i : Instr) : RaisesOwn (bodyOf i) := by
  cases i with
  | nop => intro s e u h; cases h
  | clear => intro s e u h; cases h
  | count => exact countBody_raises
  | build => exact buildBody_raises
  | gencodes => exact gencodesBody_raises
  | writeMagic => exact writeMagicBody_raises
  | writeTree => exact writeTreeBody_raises
  | readMagic => exact readMagicBody_raises
  | readTree => exact readTreeBody_raises
  | encSym sym => exact encSymBody_raises _
  | encode => exact encodeBody_raises
  | flush => exact flushBody_raises
  | decSym => exact decSymBody_raises
  | decode => exact decodeBody_raises
  | compress =>
    intro s e u h
    obtain ⟨t, h, _⟩ := Run.flushOnRaise_eq_raise h
    exact ((((((countBody_raises.andThen buildBody_raises).andThen gencodesBody_raises).andThen
      writeMagicBody_raises).andThen writeTreeBody_raises).andThen encodeBody_raises).andThen flushBody_raises) s e t h
  | decompress =>
    intro s e u h
    obtain ⟨t, h, _⟩ := Run.flushOnRaise_eq_raise h
    exact (((readMagicBody_raises.andThen readTreeBody_raises).andThen decodeBody_raises).andThen flushBody_raises)
      _ e t h

end Sys2Proof.Machine
end

