-- ==== Sys2Proof/Laws/Trees.lean ====
section
/-! SUPPORT. The trees BUILD and READ_TREE leave in the arena (42_build R89–R91, 44_header R97), and that each meets
the arena invariant (10_state R36). -/

namespace Sys2Proof.Machine

/-! ## Arena entries -/

theorem node_written {s : State} {new old : List Node} {i : Nat} (h : s.arena = arenaWrite new old) (hi : i < new.length) :
    s.node i = new[i] := by
  rw [State.node, h, arenaWrite, List.getElem?_append_left hi, List.getElem?_eq_getElem hi]

/-- Entries above the written ones keep what they held. -/
theorem node_above {s t : State} {new : List Node} {i : Nat} (h : t.arena = arenaWrite new s.arena)
    (hr : t.resets = s.resets) (hi : new.length ≤ i) : t.node i = s.node i := by
  rw [State.node, State.node, h, arenaWrite, List.getElem?_append_right hi, List.getElem?_drop, hr,
    show new.length + (i - new.length) = i by omega]

theorem arenaWrite_length (new old : List Node) : (arenaWrite new old).length = max new.length old.length := by
  simp [arenaWrite]; omega

/-- The tree depends on the entries only. -/
theorem tree_congr {s t : State} (hn : ∀ i, t.node i = s.node i) (hr : t.root = s.root) : t.tree = s.tree := by
  have : t.node = s.node := funext hn
  rw [State.tree, State.tree, this, hr]

/-- The arena invariant depends on the arena, its registers and the reset count only. -/
theorem TreeOk.congr {s t : State} (h : TreeOk s) (ha : t.arena = s.arena) (hs : t.resets = s.resets)
    (hr : t.root = s.root) (hn : t.nodeCount = s.nodeCount) (hl : t.leafCount = s.leafCount) : TreeOk t := by
  have hnode : t.node = s.node := by funext i; rw [State.node, State.node, ha, hs]
  unfold TreeOk at *
  rw [tree_congr (s := s) (fun i => by rw [hnode]) hr, hnode, hr, hn, hl, ha]
  exact h

/-- A valid tree has at most 257 leaves when NODE_COUNT is within the arena. -/
theorem TreeOk.leaves_le {s : State} (h : TreeOk s) (hc : s.nodeCount.toNat ≤ Config.nodeCap) :
    s.leafCount.toNat ≤ 257 ∧ 2 ≤ s.leafCount.toNat := by
  obtain ⟨l, r, _, _, h1, h2, _⟩ := h
  have hl := l.leaves_pos
  have hr := r.leaves_pos
  simp only [Tree.leaves] at h1
  simp only [Config.nodeCap] at hc
  omega

/-! ## BUILD -/

/-- What BUILD leaves when FREQ[256] is not 0 (42_build R89). -/
theorem buildBody_ok {s : State} (h : freqAt s.freq 256 ≠ 0#32) :
    ∃ nodes k, mergeLoop (buildLeaves s.freq).length (buildLeaves s.freq) (initialQueue (buildLeaves s.freq)) = (nodes, [k]) ∧
      MergeInv (buildLeaves s.freq) nodes [k] ∧ nodes.length = 2 * (buildLeaves s.freq).length - 1 ∧
      k.i = 2 * (buildLeaves s.freq).length - 2 ∧
      buildBody s = .ok
        { s with
          arena := arenaWrite nodes s.arena
          nodeCount := BitVec.ofNat 10 (2 * (buildLeaves s.freq).length - 1)
          root := BitVec.ofNat 10 (2 * (buildLeaves s.freq).length - 2)
          leafCount := BitVec.ofNat 9 (buildLeaves s.freq).length
          status := { s.status with treeValid := true, treeSrc := false, codesValid := false } } := by
  obtain ⟨h1, h2, h3, h4, _⟩ := buildLeaves_spec h
  obtain ⟨nodes, k, hm, hi, hn, hk⟩ := mergeLoop_build h1 h2 h3 h4
  refine ⟨nodes, k, hm, hi, hn, hk, ?_⟩
  unfold buildBody
  rw [if_neg (show ¬ freqAt s.freq Config.pseudoEof = 0#32 from h)]
  simp only [hm, queueRoot, hn, hk, Status.treeDropped, Status.treeMade]

theorem buildBody_badFreq {s : State} (h : freqAt s.freq 256 = 0#32) :
    buildBody s = .raise ⟨.badFreq, some 256#32⟩ s := by
  unfold buildBody
  rw [if_pos (show freqAt s.freq Config.pseudoEof = 0#32 from h)]
  rfl

/-- Reading a merged arena through the state. -/
theorem merged_node {s : State} {nodes old : List Node} (h : s.arena = arenaWrite nodes old) {i : Nat} (hi : i < nodes.length) :
    s.node i = lookIn nodes i := by
  rw [node_written h hi, lookIn, List.getD_eq_getElem _ _ hi]

/-- The tree BUILD makes (42_build R89, R91). -/
theorem merged_treeOk {s : State} {nodes old : List Node} {lv : List Node} {k : Key} (h : MergeInv lv nodes [k])
    (ha : s.arena = arenaWrite nodes old) (hn : nodes.length = 2 * lv.length - 1) (hk : k.i = 2 * lv.length - 2)
    (h1 : 1 < lv.length) (h2 : lv.length ≤ 257) (hsym : ∀ n ∈ lv, n.sym.toNat ≤ 256)
    (hnc : s.nodeCount = BitVec.ofNat 10 (2 * lv.length - 1)) (hroot : s.root = BitVec.ofNat 10 (2 * lv.length - 2))
    (hlc : s.leafCount = BitVec.ofNat 9 lv.length) :
    TreeOk s ∧ ∃ tr, s.tree = some tr ∧ tr.symbols.Perm (lv.map Node.sym) := by
  have hroot' : s.root.toNat = k.i := by
    rw [hroot, hk, BitVec.toNat_ofNat]; exact Nat.mod_eq_of_lt (by omega)
  have hlook : ∀ j, j < nodes.length → s.node j = lookIn nodes j := fun j hj => merged_node ha hj
  have hki : k.i < nodes.length := by omega
  obtain ⟨t, ht⟩ := h.down.exists_tree hki (d := 1024) (by omega)
  have htree : s.tree = some t := by
    rw [State.tree, hroot', h.down.treeAt_congr hlook hki]; exact ht
  have hvis : visitOrder s.node walkDepth s.root.toNat = visitOrder (lookIn nodes) walkDepth k.i := by
    rw [hroot', h.down.visit_congr hlook hki]
  have hperm : (visitOrder (lookIn nodes) walkDepth k.i).Perm (List.range nodes.length) := by
    have := h.entries; simpa using this
  have hsyms : t.symbols.Perm (lv.map Node.sym) := by
    have := h.symbols
    simp only [List.flatMap_cons, List.flatMap_nil, List.append_nil, symbolsAt] at this
    rw [show treeAt (lookIn nodes) walkDepth k.i = some t from ht] at this
    exact this
  have hleaves : t.leaves = lv.length := by rw [← Tree.symbols_length, hsyms.length_eq, List.length_map]
  refine ⟨?_, t, htree, hsyms⟩
  cases t with
  | leaf sym => simp [Tree.leaves] at hleaves; omega
  | node l r =>
    refine ⟨l, r, htree, ?_, ?_, ?_, ?_, ?_⟩
    · intro sym hs
      have := hsyms.mem_iff.mp hs
      simp only [List.mem_map] at this
      obtain ⟨n, hn, rfl⟩ := this
      exact hsym n hn
    · rw [hleaves, hlc, BitVec.toNat_ofNat]; exact (Nat.mod_eq_of_lt (by omega)).symm
    · rw [hnc, hlc, BitVec.toNat_ofNat, BitVec.toNat_ofNat, Nat.mod_eq_of_lt (by omega), Nat.mod_eq_of_lt (by omega)]
    · rw [hvis, hnc, BitVec.toNat_ofNat, Nat.mod_eq_of_lt (by omega), ← hn]; exact hperm
    · rw [hnc, BitVec.toNat_ofNat, Nat.mod_eq_of_lt (by omega), ha, arenaWrite_length]; omega

/-- The symbols of BUILD's leaves are legal. -/
theorem buildLeaves_sym {freq : Memory Word} : ∀ n ∈ buildLeaves freq, n.sym.toNat ≤ 256 := by
  intro n hn
  have hs : ∀ n ∈ (usedSymbols freq).map (symbolLeaf freq), n.sym.toNat ≤ 256 := by
    intro n hn
    simp only [List.mem_map] at hn
    obtain ⟨k, hk, rfl⟩ := hn
    have := (mem_usedSymbols.mp hk).1
    simp only [symbolLeaf, Node.mkLeaf, BitVec.toNat_ofNat]
    omega
  unfold buildLeaves at hn
  simp only at hn
  split at hn
  · rcases List.mem_cons.mp hn with rfl | hn
    · simp [Node.mkLeaf]
    · exact hs n hn
  · exact hs n hn

/-- BUILD leaves a valid tree over the used symbols (42_build R91). -/
theorem buildBody_tree {s u : State} (h : buildBody s = .ok u) :
    TreeOk u ∧ u.status.treeValid = true ∧ ∃ tr, u.tree = some tr ∧ tr.symbols.Perm ((buildLeaves s.freq).map Node.sym) := by
  by_cases hf : freqAt s.freq 256 = 0#32
  · rw [buildBody_badFreq hf] at h; cases h
  · obtain ⟨nodes, k, _, hi, hn, hk, hb⟩ := buildBody_ok hf
    obtain ⟨h1, h2, _⟩ := buildLeaves_spec hf
    rw [hb] at h; cases h
    obtain ⟨g1, g2⟩ := merged_treeOk hi (s := { s with
          arena := arenaWrite nodes s.arena
          nodeCount := BitVec.ofNat 10 (2 * (buildLeaves s.freq).length - 1)
          root := BitVec.ofNat 10 (2 * (buildLeaves s.freq).length - 2)
          leafCount := BitVec.ofNat 9 (buildLeaves s.freq).length
          status := { s.status with treeValid := true, treeSrc := false, codesValid := false } })
      rfl hn hk h1 h2 buildLeaves_sym rfl rfl rfl
    exact ⟨g1, rfl, g2⟩

/-! ## READ_TREE -/

/-- The visit of a laid-out tree is in index order: READ_TREE numbers in pre-order (44_header R97). -/
theorem visitOrder_layout (t : Tree) {look : Nat → Node} {n d : Nat}
    (h : ∀ j, j < t.nodes → look (n + j) = (t.layout n).getD j (look (n + j)))
    (hn : n + t.nodes ≤ 1024) (hd : t.leaves ≤ d) : visitOrder look d n = List.range' n t.nodes := by
  induction t generalizing n d with
  | leaf sym =>
    obtain ⟨d, rfl⟩ : ∃ k, d = k + 1 := ⟨d - 1, by simp [Tree.leaves] at hd; omega⟩
    have h0 := h 0 (by simp [Tree.nodes])
    simp [Tree.layout] at h0
    rw [visitOrder, h0]
    simp [Node.mkLeaf, Tree.nodes]
  | node l r ihl ihr =>
    have pl := l.leaves_pos
    have pr := r.leaves_pos
    have hnl := l.nodes_pos
    have hnr := r.nodes_pos
    simp only [Tree.nodes, Tree.leaves] at *
    obtain ⟨d, rfl⟩ : ∃ k, d = k + 1 := ⟨d - 1, by omega⟩
    have h0 := h 0 (by omega)
    simp [Tree.layout] at h0
    rw [visitOrder, h0]
    have e1 : (BitVec.ofNat 10 (n + 1)).toNat = n + 1 := by rw [BitVec.toNat_ofNat]; exact Nat.mod_eq_of_lt (by omega)
    have e2 : (BitVec.ofNat 10 (n + 1 + l.nodes)).toNat = n + 1 + l.nodes := by
      rw [BitVec.toNat_ofNat]; exact Nat.mod_eq_of_lt (by omega)
    simp only [Node.mkInternal, Bool.false_eq_true, if_false, e1, e2]
    rw [ihl (n := n + 1) ?_ (by omega) (by omega), ihr (n := n + 1 + l.nodes) ?_ (by omega) (by omega)]
    · rw [List.range'_append_1]
      have : l.nodes + r.nodes + 1 = (l.nodes + r.nodes) + 1 := rfl
      rw [this, List.range'_succ]
    · intro j hj
      have := h (1 + l.nodes + j) (by omega)
      rw [show n + (1 + l.nodes + j) = n + 1 + l.nodes + j by omega] at this
      rw [this]
      simp only [Tree.layout]
      rw [show 1 + l.nodes + j = (l.nodes + j) + 1 by omega, List.getD_cons_succ,
        List.getD_append_right _ _ _ _ (by simp), Tree.layout_length, show l.nodes + j - l.nodes = j by omega]
      rw [List.getD_eq_getElem _ _ (by simpa using hj), List.getD_eq_getElem _ _ (by simpa using hj)]
    · intro j hj
      have := h (1 + j) (by omega)
      rw [show n + (1 + j) = n + 1 + j by omega] at this
      rw [this]
      simp only [Tree.layout]
      rw [show 1 + j = j + 1 by omega, List.getD_cons_succ, List.getD_append _ _ _ _ (by simpa using hj)]
      rw [List.getD_eq_getElem _ _ (by simpa using hj), List.getD_eq_getElem _ _ (by simpa using hj)]

/-- The arena after a parse that gave a tree: valid, and numbered in pre-order. -/
theorem layout_treeOk {s : State} {l r : Tree} {old : List Node} (ha : s.arena = arenaWrite ((Tree.node l r).layout 0) old)
    (hs : ∀ sym ∈ (Tree.node l r).symbols, sym.toNat ≤ 256) (hn : (Tree.node l r).nodes ≤ 513)
    (hroot : s.root = 0#10) (hnc : s.nodeCount = BitVec.ofNat 10 (Tree.node l r).nodes)
    (hlc : s.leafCount = BitVec.ofNat 9 (Tree.node l r).leaves) :
    TreeOk s ∧ s.tree = some (.node l r) ∧ visitOrder s.node walkDepth 0 = List.range (Tree.node l r).nodes := by
  have hnl := (Tree.node l r).nodes_leaves
  have hlook : ∀ j, j < (Tree.node l r).nodes → s.node (0 + j) = ((Tree.node l r).layout 0).getD j (s.node (0 + j)) := by
    intro j hj
    rw [Nat.zero_add, node_written ha (by simpa using hj), List.getD_eq_getElem _ _ (by simpa using hj)]
  have ht : s.tree = some (.node l r) := by
    rw [State.tree, hroot]; exact treeAt_layout (n := 0) _ hlook (by omega) (by simp only [walkDepth]; omega)
  have hv : visitOrder s.node walkDepth 0 = List.range (Tree.node l r).nodes := by
    rw [visitOrder_layout _ hlook (by omega) (by simp only [walkDepth]; omega), List.range_eq_range']
  have e1 : (BitVec.ofNat 10 (Tree.node l r).nodes).toNat = (Tree.node l r).nodes := by
    rw [BitVec.toNat_ofNat]; exact Nat.mod_eq_of_lt (by omega)
  have e2 : (BitVec.ofNat 9 (Tree.node l r).leaves).toNat = (Tree.node l r).leaves := by
    rw [BitVec.toNat_ofNat]; exact Nat.mod_eq_of_lt (by omega)
  refine ⟨⟨l, r, ht, hs, ?_, ?_, ?_, ?_⟩, ht, hv⟩
  · rw [hlc, e2]
  · rw [hnc, hlc, e1, e2]; omega
  · rw [hroot, hnc, e1]; exact hv ▸ List.Perm.refl _
  · rw [hnc, e1, ha, arenaWrite_length, Tree.layout_length]; omega

/-- What READ_TREE leaves where the source holds a tree's string (44_header R97). -/
theorem readTreeBody_ok {s : State} {l r : Tree} {more : List Bool} (hr : s.source.rest = (Tree.node l r).serialize ++ more)
    (hs : ∀ sym ∈ (Tree.node l r).symbols, sym.toNat ≤ 256) (hL : (Tree.node l r).leaves ≤ 257) :
    readTreeBody s = .ok
      { s with
        arena := arenaWrite ((Tree.node l r).layout 0) s.arena
        source := s.source.consumed (11 * (Tree.node l r).leaves - 1)
        nodeCount := BitVec.ofNat 10 (Tree.node l r).nodes
        root := 0#10
        leafCount := BitVec.ofNat 9 (Tree.node l r).leaves
        hdrBits := BitVec.ofNat 32 (11 * (Tree.node l r).leaves - 1)
        status := { s.status with treeValid := true, treeSrc := true, codesValid := false, eofSeen := false } } := by
  have hnl := (Tree.node l r).nodes_leaves
  have hser := (Tree.node l r).serialize_length
  have hp := parse_serialize (Tree.node l r) (depth := 514) (p := ⟨s.source, [], 0, 0⟩) hr hs
    (by simp [Config.nodeCap]; omega) rfl (by omega)
  unfold readTreeBody
  rw [hp]
  have hlen : (Tree.node l r).serialize.length = 11 * (Tree.node l r).leaves - 1 := by omega
  have hleaf : ∀ q : State, q.arena = arenaWrite ([] ++ (Tree.node l r).layout 0) s.arena → (q.node 0).leaf = false := by
    intro q hq
    rw [node_written hq (by simp [Tree.nodes])]; simp [Tree.layout, Node.mkInternal]
  simp only
  rw [if_neg (by rw [hleaf _ rfl]; simp)]
  simp only [commitParse, Status.treeMade, Status.treeReadStart, List.nil_append, Nat.zero_add, hlen, Source.consumed,
    Source.consumed, Nat.add_sub_cancel_left]

/-- Whatever tree READ_TREE accepts is valid (44_header R97, 10_state R36). -/
theorem readTreeBody_tree {s u : State} (h : readTreeBody s = .ok u) : TreeOk u ∧ u.status.treeValid = true := by
  unfold readTreeBody at h
  split at h
  · cases h
  · next i p hp =>
    simp only at h
    split at h
    · cases h
    · next hl =>
      cases h
      obtain ⟨t, more, hrest, hs, hc, hi, hq⟩ := parse_ok hp rfl (Nat.zero_le _)
      subst hq
      cases t with
      | leaf sym =>
        exfalso
        apply hl
        rw [node_written (s := commitParse s _) (new := (Tree.leaf sym).layout 0) (old := s.arena) (by simp [commitParse])
          (by simp [Tree.layout])]
        rfl
      | node l r =>
        simp only [Nat.zero_add, Config.nodeCap] at hc
        exact ⟨(layout_treeOk (old := s.arena) (by simp [commitParse]) hs hc rfl (by simp [commitParse]) (by simp [commitParse])).1, rfl⟩

end Sys2Proof.Machine
end

