-- ==== Sys2Proof/Laws/Codes.lean ====
section
/-! SUPPORT. The codewords of a tree (43_codegen R92, R93): the last leaf of a symbol gives its codeword, the codewords
fill the code space, and what the code invariant says of each symbol (10_state R38). -/

namespace Sys2Proof.Machine

theorem pathCode_len_toNat {bits : List Bool} (h : bits.length ≤ 256) : (pathCode 0 0 bits).len.toNat = bits.length := by
  rw [pathCode_len, BitVec.toNat_ofNat]
  exact Nat.mod_eq_of_lt (by omega)

theorem pathCode_val_toNat {bits : List Bool} (h : bits.length ≤ 256) : (pathCode 0 0 bits).val.toNat = natOfBits bits := by
  simp only [pathCode, Nat.zero_mul, Nat.zero_add, BitVec.toNat_ofNat]
  exact Nat.mod_eq_of_lt (lt_of_lt_of_le (natOfBits_lt bits) (Nat.pow_le_pow_right (by norm_num) h))

/-- The last leaf of a symbol, in visiting order, gives its codeword (43_codegen R92). -/
theorem codeAt_last {t : Tree} {earlier later : List (Sym × List Bool)} {sym : Sym} {path : List Bool}
    (h : t.paths = earlier ++ (sym, path) :: later) (hl : ∀ p ∈ later, p.1 ≠ sym) :
    codeAt (codeTable (t.codes 0 0#256)) sym.toNat = pathCode 0 0 path := by
  rw [(codeAt_codeTable _ _).2, Tree.codes_root, h]
  simp only [List.map_append, List.map_cons, List.reverse_append, List.reverse_cons, List.append_assoc]
  rw [List.find?_append, List.find?_eq_none.mpr]
  · simp [symAddr]
  · intro e he
    rw [List.mem_reverse, List.mem_map] at he
    obtain ⟨p, hp, rfl⟩ := he
    have := hl p hp
    simp only [symAddr, beq_iff_eq]
    exact fun e => this (BitVec.eq_of_toNat_eq e)

theorem Tree.path_node_ne_nil {l r : Tree} {bits : List Bool} {sym : Sym} (h : (Tree.node l r).isPath bits sym = true) :
    bits ≠ [] := by
  rintro rfl; cases h

/-- In the code table of a tree, a symbol has the path of a leaf of its, or no codeword and no leaf. -/
theorem codeword_cases {l r : Tree} (hL : (Tree.node l r).leaves ≤ 257) {code : Memory Code}
    (hc : code = codeTable ((Tree.node l r).codes 0 0#256)) (k : Nat) :
    (codeAt code k = Code.unset ∧ ∀ sym ∈ (Tree.node l r).symbols, sym.toNat ≠ k) ∨
    (∃ sym bits, sym.toNat = k ∧ (Tree.node l r).isPath bits sym = true ∧ (codeAt code k).bits = bits ∧
      (codeAt code k).len.toNat = bits.length ∧ bits ≠ [] ∧ bits.length + 1 ≤ (Tree.node l r).leaves) := by
  subst hc
  by_cases hu : codeAt (codeTable ((Tree.node l r).codes 0 0#256)) k = Code.unset
  · refine .inl ⟨hu, fun sym hs e => ?_⟩
    subst e
    -- a symbol of the tree has a last leaf
    have hm : ∃ p ∈ (Tree.node l r).paths, p.1 = sym := by
      rw [← Tree.paths_symbols, List.mem_map] at hs
      exact hs
    have hlast : ∀ ps : List (Sym × List Bool), (∃ p ∈ ps, p.1 = sym) →
        ∃ earlier path later, ps = earlier ++ (sym, path) :: later ∧ ∀ p ∈ later, p.1 ≠ sym := by
      intro ps
      induction ps using List.reverseRecOn with
      | nil => rintro ⟨p, hp, _⟩; cases hp
      | append_singleton xs x ih =>
        rintro ⟨p, hp, hps⟩
        by_cases hx : x.1 = sym
        · exact ⟨xs, x.2, [], by rw [← hx], by simp⟩
        · have : p ∈ xs := by
            rcases List.mem_append.mp hp with h | h
            · exact h
            · rw [List.mem_singleton] at h; subst h; exact absurd hps hx
          obtain ⟨e, path, later, h1, h2⟩ := ih ⟨p, this, hps⟩
          refine ⟨e, path, later ++ [x], by rw [h1]; simp, ?_⟩
          intro q hq
          rcases List.mem_append.mp hq with h | h
          · exact h2 q h
          · rw [List.mem_singleton] at h; subst h; exact hx
    obtain ⟨e, path, later, h1, h2⟩ := hlast _ hm
    have hp : (Tree.node l r).isPath path sym = true := Tree.mem_paths.mp (by rw [h1]; simp)
    have hlen := Tree.path_length (Tree.mem_paths.mpr hp)
    rw [codeAt_last h1 h2] at hu
    have h3 := pathCode_len_toNat (bits := path) (by simp only at hlen; omega)
    rw [hu] at h3
    exact Tree.path_node_ne_nil hp (List.length_eq_zero_iff.mp (h3.symm.trans rfl))
  · obtain ⟨sym, bits, h1, h2, h3⟩ := codeAt_isPath hu
    have hlen := Tree.path_length (Tree.mem_paths.mpr h2)
    simp only at hlen
    refine .inr ⟨sym, bits, h1, h2, ?_, ?_, Tree.path_node_ne_nil h2, hlen⟩
    · rw [h3, pathCode_bits (by omega)]
    · rw [h3, pathCode_len_toNat (by omega)]

theorem Code.unset_bits : Code.unset.bits = [] := rfl

/-! ## The Kraft sum -/

/-- The paths of a tree fill the code space: the sum of 2^(n − length) over them is 2^n (43_codegen R93 (b)). -/
theorem Tree.kraft (t : Tree) {n : Nat} (h : ∀ p ∈ t.paths, p.2.length ≤ n) :
    (t.paths.map (fun p => 2 ^ (n - p.2.length))).sum = 2 ^ n := by
  induction t generalizing n with
  | leaf s => simp [Tree.paths]
  | node l r ihl ihr =>
    obtain ⟨m, rfl⟩ : ∃ m, n = m + 1 := by
      have hl : 0 < l.paths.length := by
        have h1 : l.paths.length = l.leaves := by rw [← Tree.symbols_length, ← Tree.paths_symbols, List.length_map]
        rw [h1]; exact l.leaves_pos
      obtain ⟨p, hp⟩ := List.exists_mem_of_length_pos hl
      have := h (p.1, false :: p.2) (by simp [Tree.paths]; exact hp)
      simp only [List.length_cons] at this
      exact ⟨n - 1, by omega⟩
    have hl := ihl (n := m) (fun p hp => by
      have := h (p.1, false :: p.2) (by simp [Tree.paths]; exact hp)
      simpa using this)
    have hr := ihr (n := m) (fun p hp => by
      have := h (p.1, true :: p.2) (by simp [Tree.paths]; exact hp)
      simpa using this)
    simp only [Tree.paths, List.map_append, List.map_map, List.sum_append]
    have e : ∀ (b : Bool) (ps : List (Sym × List Bool)),
        ps.map ((fun p : Sym × List Bool => 2 ^ (m + 1 - p.2.length)) ∘ fun p => (p.1, b :: p.2)) =
          ps.map (fun p => 2 ^ (m - p.2.length)) := by
      intro b ps
      apply List.map_congr_left
      intro p _
      simp
    rw [e, e, hl, hr]
    ring

/-- A sum over the symbols below n that vanishes off a list of distinct symbols is the sum over the list. -/
theorem sum_over_symbols {f : Nat → Nat} {n : Nat} (syms : List Nat) (hd : syms.Nodup) (hn : ∀ k ∈ syms, k < n)
    (h0 : ∀ k, k ∉ syms → f k = 0) : ((List.range n).map f).sum = (syms.map f).sum := by
  have h1 : ((List.range n).map f).sum = ∑ k ∈ Finset.range n, f k := by
    clear hd hn h0
    induction n with
    | zero => rfl
    | succ n ih => rw [List.range_succ, List.map_append, List.sum_append, ih, Finset.sum_range_succ]; simp
  rw [h1, ← List.sum_toFinset f hd]
  symm
  apply Finset.sum_subset
  · intro k hk
    exact Finset.mem_range.mpr (hn k (List.mem_toFinset.mp hk))
  · intro k _ hk
    exact h0 k (fun h => hk (List.mem_toFinset.mpr h))

/-! ## A valid code table -/

/-- What the invariants say while CODES_VALID = 1 (10_state R36, R38). -/
theorem codes_valid {s : State} (hm : MemoryOk s) (ht : TreeInv s) (hc : CodeInv s) (hv : s.status.codesValid = true) :
    ∃ l r, s.tree = some (.node l r) ∧ (Tree.node l r).leaves = s.leafCount.toNat ∧ s.leafCount.toNat ≤ 257 ∧
      s.code = codeTable ((Tree.node l r).codes 0 0#256) ∧ s.status.treeValid = true ∧
      (∀ sym ∈ (Tree.node l r).symbols, sym.toNat ≤ 256) := by
  obtain ⟨htv, t, h1, h2⟩ := hc hv
  obtain ⟨l, r, g1, g2, g3, _⟩ := ht htv
  rw [g1] at h1
  cases h1
  exact ⟨l, r, g1, g3, ((ht htv).leaves_le hm.2.2.2).1, h2, htv, g2⟩

/-- The codeword of a symbol that has one is a path to a leaf of it. -/
theorem codeword_path {s : State} {l r : Tree} (hL : (Tree.node l r).leaves ≤ 257)
    (hc : s.code = codeTable ((Tree.node l r).codes 0 0#256)) {sym : Sym} (h : s.codeword sym.toNat ≠ []) :
    (Tree.node l r).isPath (s.codeword sym.toNat) sym = true := by
  rcases codeword_cases hL hc sym.toNat with ⟨h1, _⟩ | ⟨x, bits, h1, h2, h3, _⟩
  · rw [State.codeword, h1] at h; exact absurd rfl h
  · rw [State.codeword, h3]
    rw [BitVec.eq_of_toNat_eq h1] at h2
    exact h2

/-- Every symbol of the tree has a codeword. -/
theorem codeword_of_symbol {s : State} {l r : Tree} (hL : (Tree.node l r).leaves ≤ 257)
    (hc : s.code = codeTable ((Tree.node l r).codes 0 0#256)) {sym : Sym} (h : sym ∈ (Tree.node l r).symbols) :
    s.codeword sym.toNat ≠ [] := by
  rcases codeword_cases hL hc sym.toNat with ⟨_, h2⟩ | ⟨x, bits, _, _, h3, _, h5, _⟩
  · exact absurd rfl (h2 sym h)
  · rw [State.codeword, h3]; exact h5

end Sys2Proof.Machine
end

