-- ==== Sys2Proof/Laws/Step.lean ====
section
/-! SUPPORT. Everything a step can do, said once: one constructor per kind of move, and the inversion of `step`. -/

namespace Sys2Proof.Machine

/-- What one step makes of the state s, from which the host's move has been taken off. -/
inductive Move (s : State) : State → Prop where
  /-- INIT ends (70_reset R121). -/
  | initEnds (h : s.seq = .init) : Move s { s with seq := .idle }
  /-- An idle block waits, or an access is answered with the block unchanged but for the answer (60_exceptions R120,
  20_memory R56). -/
  | quiet (r : Reply) : Move s { s with reply := r }
  /-- CUR runs to its end (40_control R80). -/
  | command (t : State) (v : Word) (i : Instr) (h : s.seq = .exec v) (hd : decode v = .ok i) (he : exec i s = .next t) :
      Move s t
  /-- CUR is illegal (30_encoding R71). -/
  | illegal (v : Word) (e : Illegal) (h : s.seq = .exec v) (hd : decode v = .error e) :
      Move s (raiseError ⟨.illegalCommand, some v⟩ s)
  /-- A write of CTRL with SRST = 0 (10_state R19). -/
  | ctrl (c : Ctrl) : Move s { s with ctrl := c, reply := .ok }
  /-- A word offered while it cannot be accepted (40_control R79). -/
  | drop : Move s { s with status := { s.status with cmdDropped := true }, reply := .ok }
  /-- A word accepted (40_control R79). -/
  | accept (v : Word) (hb : s.busy = false) (he : s.status.err = true → acceptedInError v = true) :
      Move s { acceptCommand v s with reply := .ok }
  /-- A write of IRQ_STATUS (10_state R22). -/
  | irq (q : IrqStatus) : Move s { s with irq := q, reply := .ok }
  /-- A write of a FREQ entry (10_state R34). -/
  | freq (k : Nat) (v : Word) (hk : k < 257) (hb : s.busy = false) :
      Move s { s with freq := freqSet s.freq k v, reply := .ok }
  /-- A source is bound (70_reset R124). -/
  | bind (bytes : List Byte) (later : List (List Byte)) (hb : s.busy = false) (h1 : sourceFits bytes = true)
      (h2 : later.all sourceFits = true) : Move s (bindSource s bytes later)
  /-- Time passes while a command executes (20_memory R60, R63). -/
  | pass (r : Reply) : Move s { letTimePass s with reply := r }
  /-- A fresh sink is bound (70_reset R124). -/
  | bindSink : Move s (bindSink s)
  /-- A reset (70_reset R121). -/
  | reset (r : Reply) : Move s { softReset s with reply := r }

/-- The register reached by an access that is no bus error. -/
theorem accessed_some {s : State} {off : Offset} {size : AccessSize} {strb : BitVec 4} {r : Reg}
    (h : accessed s off size strb = some r) :
    off.toNat % 4 = 0 ∧ size = .word ∧ strb = 0b1111#4 ∧ regAt off.toNat = some r ∧
      (0x020 ≤ off.toNat → s.busy = false) := by
  unfold accessed alignedWord at h
  split at h
  · next ha =>
    simp only [Bool.and_eq_true, decide_eq_true_eq] at ha
    split at h
    · cases h
    · next hg =>
      refine ⟨ha.1.1, ha.1.2, ha.2, h, fun hle => ?_⟩
      simp only [gated, Bool.and_eq_true, decide_eq_true_eq, not_and] at hg
      simpa using hg hle
  · cases h

theorem ite_some_ne {α : Type} {c : Prop} [Decidable c] {a r : α} {b : Option α} (ha : a ≠ r) (hb : b ≠ some r) :
    (if c then some a else b) ≠ some r := by
  split
  · simpa using ha
  · exact hb

theorem regAt_freq {off k : Nat} (h : regAt off = some (.freq k)) : k < 257 ∧ 0x400 ≤ off ∧ off / 4 = 0x100 + k := by
  unfold regAt at h
  split at h
  · next hr => cases h; omega
  · split at h
    · cases h
    · split at h
      · cases h
      · exfalso
        revert h
        rw [imp_false, ← ne_eq]
        unfold fixedRegAt
        iterate 17 refine ite_some_ne (by simp) ?_
        simp

theorem regAt_ctrl {off : Nat} (h : regAt off = some .ctrl) : off = 4 := by
  unfold regAt at h
  split at h
  · cases h
  · split at h
    · cases h
    · split at h
      · cases h
      · by_contra h4
        revert h
        rw [imp_false, ← ne_eq]
        unfold fixedRegAt
        refine ite_some_ne (by simp) ?_
        rw [if_neg h4]
        iterate 15 refine ite_some_ne (by simp) ?_
        simp

/-- A write that changes the block. -/
theorem memWrite_move {s : State} {off : Offset} {size : AccessSize} {strb : BitVec 4} {v : Word} :
    Move s { (memWrite s off size strb v).2 with reply := (memWrite s off size strb v).1 } := by
  unfold memWrite
  cases ha : accessed s off size strb with
  | none => exact .quiet _
  | some r =>
    obtain ⟨_, _, _, hr, hg⟩ := accessed_some ha
    simp only
    split
    · exact .quiet _
    · next hro =>
      cases r <;> simp only [Reg.readOnly, not_true_eq_false] at hro
      · simp only [writeReg]
        split
        · exact .reset _
        · exact .ctrl _
      · simp only [writeReg, offerCommand]
        split
        · exact .drop
        · next hb =>
          split
          · exact .drop
          · next he =>
            refine .accept v (by simpa using hb) ?_
            intro h1
            simpa [h1] using he
      · exact .irq _
      · obtain ⟨hk, hle, _⟩ := regAt_freq hr
        exact .freq _ _ hk (hg (by omega))

/-- What `advance` does when it answers a next state. -/
theorem advance_move {s t : State} (h : advance s = .next t) : Move s t := by
  unfold advance at h
  cases hs : s.seq with
  | init => rw [hs] at h; cases h; exact .initEnds hs
  | idle => rw [hs] at h; cases h; exact .quiet s.reply
  | exec v =>
    rw [hs] at h
    simp only [runCommand] at h
    cases hd : decode v with
    | ok i => rw [hd] at h; exact .command t v i hs hd h
    | error e => rw [hd] at h; cases h; exact .illegal v e hs hd

/-- The inversion of `step`. -/
theorem step_move {s t : State} (h : step s = .next t) : Move { s with host := s.host.tail } t := by
  unfold step at h
  cases hh : s.host with
  | nil =>
    rw [hh] at h
    have : ({ s with host := s.host.tail } : State) = s := by cases s; simp_all
    simp only [hh, List.tail_nil] at this ⊢
    rw [this]
    exact advance_move h
  | cons a rest =>
    rw [hh] at h
    simp only [List.tail_cons]
    cases a with
    | read off size strb => simp only [hostStep] at h; cases h; exact .quiet _
    | write off size strb v => simp only [hostStep] at h; cases h; exact memWrite_move
    | bindSource bytes later =>
      simp only [hostStep] at h
      split at h
      · cases h
      · next hb =>
        split at h
        · next hf =>
          cases h
          simp only [Bool.and_eq_true] at hf
          exact .bind bytes later (by simpa using hb) hf.1 hf.2
        · cases h
    | bindSink => simp only [hostStep] at h; cases h; exact .bindSink
    | takeSink => simp only [hostStep] at h; cases h; exact .pass _
    | pinReset => simp only [hostStep] at h; cases h; exact .reset s.reply
    | hold =>
      simp only [hostStep] at h; cases h
      have : letTimePass ({ s with host := rest } : State) = { letTimePass { s with host := rest } with reply := s.reply } := by
        simp only [letTimePass]; split <;> rfl
      rw [this]; exact .pass _
    | run => exact advance_move h

/-- A property that the host's list does not matter to, kept by every kind of move, is kept by every step. -/
theorem step_keeps {P : State → Prop} (hh : ∀ s l, P s → P { s with host := l }) (hm : ∀ s t, P s → Move s t → P t)
    {s t : State} (hs : P s) (h : step s = .next t) : P t :=
  hm _ t (hh s _ hs) (step_move h)

end Sys2Proof.Machine
end

