-- ==== Sys2Proof/Laws/KeepsTree.lean ====
section
/-! SUPPORT. Every body keeps the arena's tree valid, the memories canonical and the code table that of the tree
(10_state R34–R38). -/

namespace Sys2Proof.Machine

theorem treeInv_of_eq {s u : State} (h : TreeInv s) (ha : u.arena = s.arena) (hs : u.resets = s.resets)
    (hr : u.root = s.root) (hn : u.nodeCount = s.nodeCount) (hl : u.leafCount = s.leafCount)
    (hv : u.status.treeValid = s.status.treeValid) : TreeInv u := by
  intro h'
  rw [hv] at h'
  exact (h h').congr ha hs hr hn hl

theorem treeInv_flush {s : State} (h : TreeInv s) : TreeInv s.sinkFlush := by
  unfold State.sinkFlush
  split
  · exact h
  · exact treeInv_of_eq h rfl rfl rfl rfl rfl rfl

theorem treeInv_count : Keeps TreeInv countBody := by
  intro s u h h'; obtain ⟨_, _, _, _, rfl⟩ := countBody_shape h'
  exact treeInv_of_eq h rfl rfl rfl rfl rfl rfl

theorem treeInv_build : Keeps TreeInv buildBody := by
  intro s u h h'
  rcases h' with h' | ⟨e, h'⟩
  · exact fun _ => (buildBody_tree h').1
  · by_cases hf : freqAt s.freq 256 = 0#32
    · rw [buildBody_badFreq hf] at h'; cases h'; exact h
    · obtain ⟨_, _, _, _, _, _, hb⟩ := buildBody_ok hf
      rw [hb] at h'; cases h'

theorem treeInv_gencodes : Keeps TreeInv gencodesBody := by
  intro s u h h'; obtain ⟨_, _, rfl⟩ := gencodesBody_shape h'
  exact treeInv_of_eq h rfl rfl rfl rfl rfl rfl

theorem treeInv_writeMagic : Keeps TreeInv writeMagicBody := by
  intro s u h h'; obtain rfl := writeMagicBody_shape h'
  exact treeInv_of_eq h rfl rfl rfl rfl rfl rfl

theorem treeInv_writeTree : Keeps TreeInv writeTreeBody := by
  intro s u h h'; obtain ⟨_, _, _, rfl⟩ := writeTreeBody_shape h'
  exact treeInv_of_eq h rfl rfl rfl rfl rfl rfl

theorem treeInv_readMagic : Keeps TreeInv readMagicBody := by
  intro s u h h'; obtain ⟨_, _, _, rfl⟩ := readMagicBody_shape h'
  exact treeInv_of_eq h rfl rfl rfl rfl rfl rfl

theorem treeInv_readTree : Keeps TreeInv readTreeBody := by
  intro s u h h'
  rcases h' with h' | ⟨e, h'⟩
  · exact fun _ => (readTreeBody_tree h').1
  · intro hv
    exfalso
    unfold readTreeBody at h'
    split at h'
    · cases h'; simp [commitParse, Status.treeReadStart] at hv
    · simp only at h'
      split at h'
      · cases h'; simp [commitParse, Status.treeReadStart] at hv
      · cases h'

theorem treeInv_encode : Keeps TreeInv encodeBody := by
  intro s u h h'; obtain ⟨_, _, _, rfl⟩ := encodeBody_shape h'
  exact treeInv_of_eq h rfl rfl rfl rfl rfl rfl

theorem treeInv_decode : Keeps TreeInv decodeBody := by
  intro s u h h'; obtain ⟨_, _, _, _, _, _, rfl⟩ := decodeBody_shape h'
  exact treeInv_of_eq h rfl rfl rfl rfl rfl rfl

theorem treeInv_body (i : Instr) : Keeps TreeInv (bodyOf i) := by
  intro s u hs h
  cases i with
  | nop => rw [bodyOf, nopBody, Run.ends_ok] at h; subst h; exact hs
  | clear =>
    obtain rfl := clearBody_shape h
    intro hv; simp [leaveError, clearDatapath, Status.cleared] at hv
  | count => exact treeInv_count s u hs h
  | build => exact treeInv_build s u hs h
  | gencodes => exact treeInv_gencodes s u hs h
  | writeMagic => exact treeInv_writeMagic s u hs h
  | writeTree => exact treeInv_writeTree s u hs h
  | readMagic => exact treeInv_readMagic s u hs h
  | readTree => exact treeInv_readTree s u hs h
  | encSym sym => obtain ⟨_, rfl⟩ := encSymBody_shape h; exact treeInv_of_eq hs rfl rfl rfl rfl rfl rfl
  | encode => exact treeInv_encode s u hs h
  | flush => obtain rfl := flushBody_shape h; exact treeInv_flush hs
  | decSym =>
    obtain ⟨_, _, _, _, _, _, rfl⟩ := decSymBody_shape h
    exact treeInv_of_eq hs rfl rfl rfl rfl rfl rfl
  | decode => exact treeInv_decode s u hs h
  | compress =>
    exact compressBody_keeps treeInv_count treeInv_build treeInv_gencodes treeInv_writeMagic treeInv_writeTree
      treeInv_encode (fun _ => treeInv_flush) hs h
  | decompress =>
    exact decompressBody_keeps (fun s h => treeInv_of_eq h rfl rfl rfl rfl rfl rfl) treeInv_readMagic treeInv_readTree
      treeInv_decode (fun _ => treeInv_flush) hs h

/-! ## No walk diverges -/

theorem TreeOk.tree_some {s : State} (h : TreeOk s) : ∃ t, s.tree = some t := by
  obtain ⟨l, r, ht, _⟩ := h; exact ⟨_, ht⟩

theorem Run.andThen_ends {r : Run} {f : State → Run} (h1 : r ≠ .diverge) (h2 : ∀ s, r = .ok s → f s ≠ .diverge) :
    r.andThen f ≠ .diverge := by
  cases r with
  | ok s => exact h2 s rfl
  | raise e s => simp
  | diverge => exact absurd rfl h1

theorem Run.flushOnRaise_ends {r : Run} (h : r ≠ .diverge) : r.flushOnRaise ≠ .diverge := by
  cases r <;> simp_all

theorem decodeLoop_ends (turns : Nat) (s : State) : decodeLoop turns s ≠ .diverge := by
  induction turns generalizing s with
  | zero => simp [decodeLoop]
  | succ turns ih => rw [decodeLoop]; split <;> [simp; (split <;> [simp; exact ih _])]

theorem countBody_ends (s : State) : countBody s ≠ .diverge := by unfold countBody; split <;> simp

theorem buildBody_ends (s : State) : buildBody s ≠ .diverge := by unfold buildBody; split <;> simp

theorem readMagicBody_ends (s : State) : readMagicBody s ≠ .diverge := by
  unfold readMagicBody; split <;> [simp; (split <;> simp)]

theorem readTreeBody_ends (s : State) : readTreeBody s ≠ .diverge := by
  unfold readTreeBody; split <;> [simp; (simp only; split <;> simp)]

theorem encSymBody_ends (k : Nat) (s : State) : encSymBody k s ≠ .diverge := by unfold encSymBody; split <;> simp

theorem encodeBody_ends (s : State) : encodeBody s ≠ .diverge := by
  unfold encodeBody; split <;> [simp; exact encSymBody_ends _ _]

theorem decSymBody_ends (s : State) : decSymBody s ≠ .diverge := by
  unfold decSymBody; split <;> [simp; (split <;> simp)]

/-- COMPRESS never walks a malformed arena: BUILD has just made the tree (47_macro R106). -/
theorem compressBody_ends (s : State) : compressBody s ≠ .diverge := by
  have key : ∀ v, ((countBody s).andThen buildBody) = .ok v → TreeOk v := by
    intro v h
    obtain ⟨_, _, h⟩ := Run.andThen_eq_ok h
    exact (buildBody_tree h).1
  have key2 : ∀ v, (((countBody s).andThen buildBody).andThen gencodesBody) = .ok v → TreeOk v := by
    intro v h
    obtain ⟨w, hw, h⟩ := Run.andThen_eq_ok h
    obtain ⟨_, _, rfl⟩ := gencodesBody_shape (.inl h)
    exact (key w hw).congr rfl rfl rfl rfl rfl
  have key3 : ∀ v, ((((countBody s).andThen buildBody).andThen gencodesBody).andThen writeMagicBody) = .ok v → TreeOk v := by
    intro v h
    obtain ⟨w, hw, h⟩ := Run.andThen_eq_ok h
    obtain rfl := writeMagicBody_shape (.inl h)
    exact (key2 w hw).congr rfl rfl rfl rfl rfl
  refine Run.flushOnRaise_ends (Run.andThen_ends (Run.andThen_ends (Run.andThen_ends (Run.andThen_ends
    (Run.andThen_ends (Run.andThen_ends (countBody_ends s) ?_) ?_) ?_) ?_) ?_) ?_)
  · exact fun _ _ => buildBody_ends _
  · intro v h; obtain ⟨t, ht⟩ := (key v h).tree_some; simp [gencodesBody, ht]
  · exact fun _ _ => by simp [writeMagicBody]
  · intro v h; obtain ⟨t, ht⟩ := (key3 v h).tree_some; simp [writeTreeBody, ht]
  · exact fun _ _ => encodeBody_ends _
  · exact fun _ _ => by simp [flushBody]

theorem decompressBody_ends (s : State) : decompressBody s ≠ .diverge :=
  Run.flushOnRaise_ends (Run.andThen_ends (Run.andThen_ends (Run.andThen_ends (readMagicBody_ends _)
    (fun _ _ => readTreeBody_ends _)) (fun _ _ => decodeLoop_ends _ _)) (fun _ _ => by simp [flushBody]))

/-- With the arena invariant and its precondition a command's body ends. -/
theorem bodyOf_ends {i : Instr} {s : State} (hp : pre i s.status = true) (h : TreeInv s) : bodyOf i s ≠ .diverge := by
  rw [pre_iff] at hp
  cases i with
  | nop => simp [bodyOf, nopBody]
  | clear => simp [bodyOf, clearBody]
  | count => exact countBody_ends s
  | build => exact buildBody_ends s
  | gencodes => obtain ⟨t, ht⟩ := (h hp).tree_some; simp [bodyOf, gencodesBody, ht]
  | writeMagic => simp [bodyOf, writeMagicBody]
  | writeTree => obtain ⟨t, ht⟩ := (h hp.1).tree_some; simp [bodyOf, writeTreeBody, ht]
  | readMagic => exact readMagicBody_ends s
  | readTree => exact readTreeBody_ends s
  | encSym sym => exact encSymBody_ends _ s
  | encode => exact encodeBody_ends s
  | flush => simp [bodyOf, flushBody]
  | decSym => exact decSymBody_ends s
  | decode => exact decodeLoop_ends _ _
  | compress => exact compressBody_ends s
  | decompress => exact decompressBody_ends s

/-! ## The memories -/

/-- MemoryOk with the arena invariant, which bounds the symbols GENCODES writes. -/
def MemoryInv (s : State) : Prop := MemoryOk s ∧ TreeInv s

theorem memoryOk_of_eq {s u : State} (h : MemoryOk s) (hf : u.freq = s.freq) (hc : u.code = s.code)
    (ha : u.arena = s.arena) (hn : u.nodeCount = s.nodeCount) : MemoryOk u := by
  unfold MemoryOk at *; rw [hf, hc, ha, hn]; exact h

theorem codeTable_keys {visited : List (Sym × Code)} (h : ∀ e ∈ visited, e.1.toNat < 257) :
    Memory.wf Code.unset (codeTable visited) ∧ ∀ e ∈ codeTable visited, e.1 < 257 := by
  refine ⟨(codeAt_codeTable visited 0).1, ?_⟩
  induction visited using List.reverseRecOn with
  | nil => simp [codeTable]
  | append_singleton xs x ih =>
    intro e he
    have : codeTable (xs ++ [x]) = codeSet (codeTable xs) (symAddr x.1) x.2 := by simp [codeTable]
    rw [this] at he
    rcases Memory.mem_write he with hm | rfl
    · exact ih (fun e he => h e (by simp [he])) e hm
    · exact h x (by simp)

theorem memory_count : Keeps MemoryInv countBody := by
  intro s u h h'
  refine ⟨?_, treeInv_count s u h.2 h'⟩
  obtain ⟨_, _, _, hf, rfl⟩ := countBody_shape h'
  exact ⟨hf, h.1.2⟩

theorem memory_build : Keeps MemoryInv buildBody := by
  intro s u h h'
  refine ⟨?_, treeInv_build s u h.2 h'⟩
  by_cases hf : freqAt s.freq 256 = 0#32
  · rcases h' with h' | ⟨e, h'⟩ <;> rw [buildBody_badFreq hf] at h' <;> cases h'
    exact h.1
  · obtain ⟨nodes, _, _, _, hn, _, hb⟩ := buildBody_ok hf
    obtain ⟨_, h2, _⟩ := buildLeaves_spec hf
    rcases h' with h' | ⟨e, h'⟩ <;> rw [hb] at h' <;> cases h'
    refine ⟨h.1.1, h.1.2.1, ?_, ?_⟩
    · have := h.1.2.2.1
      simp only [arenaWrite_length, hn, Config.nodeCap] at *
      omega
    · simp only [BitVec.toNat_ofNat, Config.nodeCap]
      omega

theorem memory_gencodes {s u : State} (h : MemoryInv s) (hv : s.status.treeValid = true) (h' : (gencodesBody s).Ends u) :
    MemoryInv u := by
  refine ⟨?_, treeInv_gencodes s u h.2 h'⟩
  obtain ⟨t, ht, rfl⟩ := gencodesBody_shape h'
  refine ⟨h.1.1, ?_, h.1.2.2⟩
  obtain ⟨l, r, ht', hs, _⟩ := h.2 hv
  rw [ht] at ht'
  cases ht'
  refine codeTable_keys ?_
  intro e he
  rw [Tree.codes_root] at he
  simp only [List.mem_map] at he
  obtain ⟨p, hp, rfl⟩ := he
  have hm : p.1 ∈ (Tree.node l r).symbols := by rw [← Tree.paths_symbols]; exact List.mem_map_of_mem hp
  have := hs _ hm
  simp only [Config.pseudoEof] at this
  show p.1.toNat < 257
  omega

theorem memory_readTree : Keeps MemoryInv readTreeBody := by
  intro s u h h'
  refine ⟨?_, treeInv_readTree s u h.2 h'⟩
  obtain ⟨p, _, _, _, hc, hn, _, rfl⟩ := readTreeBody_shape h'
  have ha := h.1.2.2.1
  simp only [Config.nodeCap] at *
  refine ⟨h.1.1, h.1.2.1, ?_, ?_⟩
  · simp only [commitParse, arenaWrite_length, Config.nodeCap]; omega
  · simp only [commitParse, BitVec.toNat_ofNat, Config.nodeCap]; omega

theorem memory_of_eq {s u : State} (h : MemoryInv s) (hf : u.freq = s.freq) (hc : u.code = s.code)
    (ha : u.arena = s.arena) (hn : u.nodeCount = s.nodeCount) (hs : u.resets = s.resets)
    (hr : u.root = s.root) (hl : u.leafCount = s.leafCount) (hv : u.status.treeValid = s.status.treeValid) : MemoryInv u :=
  ⟨memoryOk_of_eq h.1 hf hc ha hn, treeInv_of_eq h.2 ha hs hr hn hl hv⟩

theorem memory_writeMagic : Keeps MemoryInv writeMagicBody := by
  intro s u h h'; obtain rfl := writeMagicBody_shape h'
  exact memory_of_eq h rfl rfl rfl rfl rfl rfl rfl rfl

theorem memory_writeTree : Keeps MemoryInv writeTreeBody := by
  intro s u h h'; obtain ⟨_, _, _, rfl⟩ := writeTreeBody_shape h'
  exact memory_of_eq h rfl rfl rfl rfl rfl rfl rfl rfl

theorem memory_readMagic : Keeps MemoryInv readMagicBody := by
  intro s u h h'; obtain ⟨_, _, _, rfl⟩ := readMagicBody_shape h'
  exact memory_of_eq h rfl rfl rfl rfl rfl rfl rfl rfl

theorem memory_encode : Keeps MemoryInv encodeBody := by
  intro s u h h'; obtain ⟨_, _, _, rfl⟩ := encodeBody_shape h'
  exact memory_of_eq h rfl rfl rfl rfl rfl rfl rfl rfl

theorem memory_decode : Keeps MemoryInv decodeBody := by
  intro s u h h'; obtain ⟨_, _, _, _, _, _, rfl⟩ := decodeBody_shape h'
  exact memory_of_eq h rfl rfl rfl rfl rfl rfl rfl rfl

theorem memory_flush {s : State} (h : MemoryInv s) : MemoryInv s.sinkFlush := by
  unfold State.sinkFlush
  split
  · exact h
  · exact memory_of_eq h rfl rfl rfl rfl rfl rfl rfl rfl

/-- After BUILD, TREE_VALID = 1; the writing bodies keep it. -/
theorem compressBody_tree_keeps {P Q : State → Prop} (h1 : Keeps P countBody) (h2 : Keeps P buildBody)
    (h3 : ∀ s u, P s → s.status.treeValid = true → (gencodesBody s).Ends u → P u) (h4 : Keeps P writeMagicBody)
    (h5 : Keeps P writeTreeBody) (h6 : Keeps P encodeBody)
    (hf : ∀ s, P s → Q s.sinkFlush) {s u : State} (hs : P s) (h : (compressBody s).Ends u) : Q u := by
  have k3 : Keeps P (fun s => ((countBody s).andThen buildBody).andThen gencodesBody) := by
    intro s u hs h
    rcases Run.ends_andThen h with ⟨e, h⟩ | ⟨t, h, h'⟩
    · exact (h1.andThen h2) s u hs (.inr ⟨e, h⟩)
    · have ht := (h1.andThen h2) s t hs (.inl h)
      obtain ⟨_, _, hb⟩ := Run.andThen_eq_ok h
      exact h3 t u ht (buildBody_tree hb).2.1 h'
  have all := ((k3.andThen h4).andThen h5).andThen h6
  rcases Run.ends_flushOnRaise h with h' | ⟨e, t, h', rfl⟩
  · obtain ⟨t, h1, ht⟩ := Run.andThen_eq_ok h'
    cases ht
    exact hf t (all s t hs (.inl h1))
  · rcases Run.andThen_eq_raise h' with h1 | ⟨t', _, h1⟩
    · exact hf t (all s t hs (.inr ⟨e, h1⟩))
    · cases h1

theorem memory_body (i : Instr) {s u : State} (hp : pre i s.status = true) (hs : MemoryInv s) (h : (bodyOf i s).Ends u) :
    MemoryInv u := by
  rw [pre_iff] at hp
  cases i with
  | nop => rw [bodyOf, nopBody, Run.ends_ok] at h; subst h; exact hs
  | clear =>
    refine ⟨?_, treeInv_body .clear s u hs.2 h⟩
    obtain rfl := clearBody_shape h
    exact ⟨⟨memory_nil_wf, by simp [leaveError, clearDatapath]⟩, ⟨memory_nil_wf, by simp [leaveError, clearDatapath]⟩,
      hs.1.2.2.1, by simp [leaveError, clearDatapath]⟩
  | count => exact memory_count s u hs h
  | build => exact memory_build s u hs h
  | gencodes => exact memory_gencodes hs hp h
  | writeMagic => exact memory_writeMagic s u hs h
  | writeTree => exact memory_writeTree s u hs h
  | readMagic => exact memory_readMagic s u hs h
  | readTree => exact memory_readTree s u hs h
  | encSym sym => obtain ⟨_, rfl⟩ := encSymBody_shape h; exact memory_of_eq hs rfl rfl rfl rfl rfl rfl rfl rfl
  | encode => exact memory_encode s u hs h
  | flush => obtain rfl := flushBody_shape h; exact memory_flush hs
  | decSym =>
    obtain ⟨_, _, _, _, _, _, rfl⟩ := decSymBody_shape h
    exact memory_of_eq hs rfl rfl rfl rfl rfl rfl rfl rfl
  | decode => exact memory_decode s u hs h
  | compress =>
    exact compressBody_tree_keeps memory_count memory_build (fun _ _ => memory_gencodes) memory_writeMagic memory_writeTree
      memory_encode (fun _ => memory_flush) hs h
  | decompress =>
    exact decompressBody_keeps (fun s h => memory_of_eq h rfl rfl rfl rfl rfl rfl rfl rfl) memory_readMagic memory_readTree
      memory_decode (fun _ => memory_flush) hs h

/-! ## The code table -/

theorem codeInv_of_eq {s u : State} (h : CodeInv s) (hc : u.code = s.code) (ha : u.arena = s.arena)
    (hs : u.resets = s.resets) (hr : u.root = s.root) (hv : u.status.treeValid = s.status.treeValid)
    (hcv : u.status.codesValid = s.status.codesValid) : CodeInv u := by
  intro h'
  rw [hcv] at h'
  obtain ⟨h1, t, h2, h3⟩ := h h'
  have hn : ∀ i, u.node i = s.node i := fun i => by rw [State.node, State.node, ha, hs]
  exact ⟨hv.trans h1, t, (tree_congr hn hr).trans h2, hc.trans h3⟩

theorem codeInv_invalid {u : State} (h : u.status.codesValid = false) : CodeInv u := by
  intro h'; rw [h] at h'; cases h'

theorem codeInv_count : Keeps CodeInv countBody := by
  intro s u h h'; obtain ⟨_, _, _, _, rfl⟩ := countBody_shape h'
  exact codeInv_of_eq h rfl rfl rfl rfl rfl rfl

theorem codeInv_build : Keeps CodeInv buildBody := by
  intro s u h h'; obtain rfl | ⟨_, _, _, rfl⟩ := buildBody_shape h'
  · exact h
  · exact codeInv_invalid rfl

theorem codeInv_gencodes {s u : State} (hv : s.status.treeValid = true) (h' : (gencodesBody s).Ends u) : CodeInv u := by
  obtain ⟨t, ht, rfl⟩ := gencodesBody_shape h'
  exact fun _ => ⟨hv, t, ht, rfl⟩

theorem codeInv_writeMagic : Keeps CodeInv writeMagicBody := by
  intro s u h h'; obtain rfl := writeMagicBody_shape h'
  exact codeInv_of_eq h rfl rfl rfl rfl rfl rfl

theorem codeInv_writeTree : Keeps CodeInv writeTreeBody := by
  intro s u h h'; obtain ⟨_, _, _, rfl⟩ := writeTreeBody_shape h'
  exact codeInv_of_eq h rfl rfl rfl rfl rfl rfl

theorem codeInv_readMagic : Keeps CodeInv readMagicBody := by
  intro s u h h'; obtain ⟨_, _, _, rfl⟩ := readMagicBody_shape h'
  exact codeInv_of_eq h rfl rfl rfl rfl rfl rfl

theorem codeInv_readTree : Keeps CodeInv readTreeBody := by
  intro s u h h'; obtain ⟨_, _, _, _, _, _, _, rfl⟩ := readTreeBody_shape h'
  exact codeInv_invalid rfl

theorem codeInv_encode : Keeps CodeInv encodeBody := by
  intro s u h h'; obtain ⟨_, _, _, rfl⟩ := encodeBody_shape h'
  exact codeInv_of_eq h rfl rfl rfl rfl rfl rfl

theorem codeInv_decode : Keeps CodeInv decodeBody := by
  intro s u h h'; obtain ⟨_, _, _, _, _, _, rfl⟩ := decodeBody_shape h'
  exact codeInv_of_eq h rfl rfl rfl rfl rfl rfl

theorem codeInv_flush {s : State} (h : CodeInv s) : CodeInv s.sinkFlush := by
  unfold State.sinkFlush
  split
  · exact h
  · exact codeInv_of_eq h rfl rfl rfl rfl rfl rfl

theorem codeInv_body (i : Instr) {s u : State} (hp : pre i s.status = true) (hs : CodeInv s) (h : (bodyOf i s).Ends u) :
    CodeInv u := by
  rw [pre_iff] at hp
  cases i with
  | nop => rw [bodyOf, nopBody, Run.ends_ok] at h; subst h; exact hs
  | clear => obtain rfl := clearBody_shape h; exact codeInv_invalid rfl
  | count => exact codeInv_count s u hs h
  | build => exact codeInv_build s u hs h
  | gencodes => exact codeInv_gencodes hp h
  | writeMagic => exact codeInv_writeMagic s u hs h
  | writeTree => exact codeInv_writeTree s u hs h
  | readMagic => exact codeInv_readMagic s u hs h
  | readTree => exact codeInv_readTree s u hs h
  | encSym sym => obtain ⟨_, rfl⟩ := encSymBody_shape h; exact codeInv_of_eq hs rfl rfl rfl rfl rfl rfl
  | encode => exact codeInv_encode s u hs h
  | flush => obtain rfl := flushBody_shape h; exact codeInv_flush hs
  | decSym =>
    obtain ⟨_, _, _, _, _, _, rfl⟩ := decSymBody_shape h
    exact codeInv_of_eq hs rfl rfl rfl rfl rfl rfl
  | decode => exact codeInv_decode s u hs h
  | compress =>
    exact compressBody_tree_keeps codeInv_count codeInv_build (fun _ _ _ => codeInv_gencodes) codeInv_writeMagic
      codeInv_writeTree codeInv_encode (fun _ => codeInv_flush) hs h
  | decompress =>
    exact decompressBody_keeps (fun s h => codeInv_of_eq h rfl rfl rfl rfl rfl rfl) codeInv_readMagic codeInv_readTree
      codeInv_decode (fun _ => codeInv_flush) hs h

end Sys2Proof.Machine
end

