-- ==== Sys2Proof/Laws/Results.lean ====
section
/-! SUPPORT. What the bodies of the header codec, the encoder, the decoder and the macros do where they succeed, and
where they stop (44_header R94–R97, 45_encode R99–R101, 46_decode R103, R104, 47_macro R106, R107). -/

namespace Sys2Proof.Machine

/-! ## Writing -/

/-- WriteBits writes its bits (20_memory R47). -/
theorem Sink.append_wrote (snk : Sink) (bits : List Bool) : snk.wrote bits (snk.append bits) :=
  ⟨Sink.append_out snk bits, Sink.append_port snk bits⟩

/-- SinkFlush after bits writes, pads and closes (20_memory R48). -/
theorem Sink.append_closed (snk : Sink) (bits : List Bool) : snk.wroteAndClosed bits (snk.append bits).close := by
  refine ⟨(snk.append bits).padLength, ?_, ?_, snk.append (bits ++ List.replicate (snk.append bits).padLength false),
    Sink.append_wrote _ _, ?_⟩
  · exact Nat.mod_lt _ (by norm_num)
  · simp only [Sink.padLength, Sink.append_out, List.length_append]; omega
  · rw [Sink.append_append]; rfl

theorem Sink.close_closed (snk : Sink) : snk.wroteAndClosed [] snk.close := Sink.append_closed snk []

/-- A 32-bit write is four bytes, the most significant first (20_memory R51). -/
theorem binOf_word (w : Word) :
    binOf 32 w.toNat = bitsOfBytes [w.extractLsb' 24 8, w.extractLsb' 16 8, w.extractLsb' 8 8, w.extractLsb' 0 8] := by
  have byte : ∀ (lo j : Nat), j < 8 → (w.extractLsb' lo 8).toNat.testBit j = w.toNat.testBit (lo + j) := by
    intro lo j hj
    rw [BitVec.extractLsb'_toNat, Nat.testBit_mod_two_pow, Nat.testBit_shiftRight]
    simp [hj]
  simp only [bitsOfBytes_cons, bitsOfBytes_nil, List.append_nil]
  apply List.ext_getElem?
  intro j
  rw [binOf_getElem?]
  simp only [List.getElem?_append, binOf_length, binOf_getElem?]
  by_cases h1 : j < 8
  · simp only [h1, if_true, show j < 32 by omega, byte 24 _ (show 8 - 1 - j < 8 by omega)]; congr 2; omega
  · by_cases h2 : j < 16
    · simp only [h1, if_false, show j < 32 by omega, if_true, show j - 8 < 8 by omega, byte 16 _ (show 8 - 1 - (j - 8) < 8 by omega)]
      congr 2; omega
    · by_cases h3 : j < 24
      · simp only [h1, if_false, show j < 32 by omega, if_true, show ¬ j - 8 < 8 by omega, show j - 8 - 8 < 8 by omega,
          byte 8 _ (show 8 - 1 - (j - 8 - 8) < 8 by omega)]
        congr 2; omega
      · by_cases h4 : j < 32
        · simp only [h1, if_false, h4, if_true, show ¬ j - 8 < 8 by omega, show ¬ j - 8 - 8 < 8 by omega,
            show j - 8 - 8 - 8 < 8 by omega, byte 0 _ (show 8 - 1 - (j - 8 - 8 - 8) < 8 by omega)]
          congr 2; omega
        · simp only [h1, if_false, h4, show ¬ j - 8 < 8 by omega, show ¬ j - 8 - 8 < 8 by omega, show ¬ j - 8 - 8 - 8 < 8 by omega]

/-! ## The code table and the header -/

/-- GENCODES on a tree (43_codegen R92). -/
theorem gencodesBody_ok {s : State} {t : Tree} (h : s.tree = some t) :
    gencodesBody s = .ok
      { s with code := codeTable (t.codes 0 0#256), status := { s.status with codesValid := true } } := by
  unfold gencodesBody
  rw [h]

theorem infoOfSym_sym (v : Sym) : infoOfSym v.toNat = v.setWidth 32 := by
  apply BitVec.eq_of_toNat_eq
  simp [infoOfSym]

/-- READ_TREE on a header its parse refuses (44_header R97). -/
theorem readTreeBody_error {s : State} {e : Raise} {p : ParseState} (h : parse 514 ⟨s.source, [], 0, 0⟩ = (.error e, p)) :
    readTreeBody s = .raise e (commitParse s p) := by
  unfold readTreeBody
  rw [h]

/-- WRITE_MAGIC (44_header R94). -/
theorem writeMagicBody_ok (s : State) :
    writeMagicBody s = .ok { s with sink := s.sink.append (binOf 32 s.magic.toNat) } := by
  rw [writeMagicBody, Sink.writeBits]

/-- HDR_BITS counts what WRITE_TREE appends (44_header R95). -/
theorem writeTreeBody_ok {s : State} {t : Tree} (h : s.tree = some t) :
    writeTreeBody s = .ok
      { s with sink := s.sink.append t.serialize, hdrBits := BitVec.ofNat 32 (11 * t.leaves - 1) } := by
  have hl := t.serialize_length
  unfold writeTreeBody
  rw [h]
  simp only [State.outCnt, Sink.append_out, List.length_append]
  have e : (BitVec.ofNat 64 (s.sink.out.length + t.serialize.length) - BitVec.ofNat 64 s.sink.out.length).setWidth 32 =
      BitVec.ofNat 32 (11 * t.leaves - 1) := by
    rw [BitVec.ofNat_add, BitVec.add_comm, BitVec.add_sub_cancel, show t.serialize.length = 11 * t.leaves - 1 by omega]
    apply BitVec.eq_of_toNat_eq
    simp only [BitVec.toNat_setWidth, BitVec.toNat_ofNat]
    exact Nat.mod_mod_of_dvd _ (by norm_num)
  rw [e]

theorem readMagicBody_short {s : State} (h : s.source.rest.length < 32) :
    readMagicBody s = .raise ⟨.badMagic, none⟩
      { s with source := s.source.exhausted, status := { s.status with magicOk := false } } := by
  unfold readMagicBody
  rw [Source.readBits_eoi h]

theorem readMagicBody_word {s : State} (h : ¬ s.source.rest.length < 32) :
    readMagicBody s =
      if natOfBits (s.source.rest.take 32) = s.magic.toNat then
        .ok { s with source := s.source.consumed 32, status := { s.status with magicOk := true } }
      else
        .raise ⟨.badMagic, some (BitVec.ofNat 32 (natOfBits (s.source.rest.take 32)))⟩
          { s with source := s.source.consumed 32, status := { s.status with magicOk := false } } := by
  rw [Source.rest_length] at h
  unfold readMagicBody
  rw [Source.readBits_some (by omega)]
  rfl

/-- READ_MAGIC on a source that begins with HUFF_MAGIC (44_header R96). -/
theorem readMagicBody_ok {s : State} {more : List Bool} (h : s.source.rest = binOf 32 s.magic.toNat ++ more) :
    readMagicBody s = .ok { s with source := s.source.consumed 32, status := { s.status with magicOk := true } } := by
  have hl : ¬ s.source.rest.length < 32 := by rw [h]; simp
  rw [readMagicBody_word hl, if_pos]
  rw [h, List.take_append_of_le_length (by simp), List.take_of_length_le (by simp), natOfBits_binOf,
    Nat.mod_eq_of_lt s.magic.isLt]

/-- READ_MAGIC on another word (44_header R96). -/
theorem readMagicBody_bad {s : State} {v : Word} {more : List Bool} (h : s.source.rest = binOf 32 v.toNat ++ more)
    (hv : v ≠ s.magic) :
    readMagicBody s = .raise ⟨.badMagic, some v⟩
      { s with source := s.source.consumed 32, status := { s.status with magicOk := false } } := by
  have hl : ¬ s.source.rest.length < 32 := by rw [h]; simp
  have e : natOfBits (s.source.rest.take 32) = v.toNat := by
    rw [h, List.take_append_of_le_length (by simp), List.take_of_length_le (by simp), natOfBits_binOf,
      Nat.mod_eq_of_lt v.isLt]
  rw [readMagicBody_word hl, e, if_neg (fun h => hv (BitVec.eq_of_toNat_eq h)), BitVec.ofNat_toNat, BitVec.setWidth_eq]

/-! ## The encoder -/

/-- No codeword is len = 0 (10_state R37). -/
theorem codeword_nil {s : State} {k : Nat} : s.codeword k = [] ↔ (codeAt s.code k).len = 0#9 := by
  rw [← List.length_eq_zero_iff, State.codeword, Code.bits, binOf_length]
  exact ⟨fun h => BitVec.eq_of_toNat_eq h, fun h => by rw [h]; rfl⟩

theorem encSymBody_ok {s : State} {k : Nat} (h : s.codeword k ≠ []) :
    encSymBody k s = .ok { s with sink := s.sink.append (s.codeword k) } := by
  unfold encSymBody
  rw [encSymTo_some (fun e => h (codeword_nil.mpr e))]
  rfl

theorem encSymBody_missing {s : State} {k : Nat} (h : s.codeword k = []) :
    encSymBody k s = .raise ⟨.noCodeword, some (infoOfSym k)⟩ s := by
  unfold encSymBody
  rw [encSymTo_none (codeword_nil.mp h)]

/-- ENCODE where every byte and the pseudo-EOF have a codeword (45_encode R100). -/
theorem encodeBody_ok {s : State} (hb : ∀ b ∈ s.source.rewind.bytes, s.codeword b.toNat ≠ [])
    (he : s.codeword 256 ≠ []) :
    encodeBody s = .ok
      { s with sink := s.sink.append (s.payload s.source.rewind.bytes), source := s.source.rewind.exhausted } := by
  unfold encodeBody
  rw [encodeLoop_all (Source.rewind_rest _) (Nat.lt_succ_self _) (fun b h e => hb b h (codeword_nil.mpr e))]
  refine (encSymBody_ok (s := { s with source := s.source.rewind.exhausted, sink := _ }) he).trans ?_
  congr 2
  rw [← Sink.append_append]
  rfl

/-- ENCODE up to the first byte without a codeword (45_encode R100). -/
theorem encodeBody_missing {s : State} {pre post : List Byte} {b : Byte} (h : s.source.rewind.bytes = pre ++ b :: post)
    (hc : ∀ c ∈ pre, s.codeword c.toNat ≠ []) (hb : s.codeword b.toNat = []) :
    encodeBody s = .raise ⟨.noCodeword, some (infoOfSym b.toNat)⟩
      { s with
        sink := s.sink.append (pre.flatMap (fun c => s.codeword c.toNat))
        source := s.source.rewind.consumed (8 * (pre.length + 1)) } := by
  have hr : s.source.rewind.rest = bitsOfBytes (pre ++ [b]) ++ bitsOfBytes post := by
    rw [Source.rewind_rest, h]; simp [bitsOfBytes]
  unfold encodeBody
  rw [encodeLoop_missing hr (by rw [h]; simp) (fun b h e => hc b h (codeword_nil.mpr e)) (codeword_nil.mp hb)]
  rfl

/-- ENCODE where only the pseudo-EOF has no codeword (45_encode R100). -/
theorem encodeBody_noEof {s : State} (hb : ∀ b ∈ s.source.rewind.bytes, s.codeword b.toNat ≠ [])
    (he : s.codeword 256 = []) :
    encodeBody s = .raise ⟨.noCodeword, some 256#32⟩
      { s with
        sink := s.sink.append (s.source.rewind.bytes.flatMap (fun c => s.codeword c.toNat))
        source := s.source.rewind.exhausted } := by
  unfold encodeBody
  rw [encodeLoop_all (Source.rewind_rest _) (Nat.lt_succ_self _) (fun b h e => hb b h (codeword_nil.mpr e))]
  exact encSymBody_missing (s := { s with source := s.source.rewind.exhausted, sink := _ }) he

/-! ## The decoder -/

/-- Byte symbols with their paths, as symbols with paths. -/
def symWords (words : List (Byte × List Bool)) : List (Sym × List Bool) :=
  words.map (fun w => (w.1.setWidth 9, w.2))

theorem symWords_bits (words : List (Byte × List Bool)) :
    (symWords words).flatMap Prod.snd = words.flatMap Prod.snd := by
  induction words with
  | nil => rfl
  | cons w ws ih => simp only [symWords, List.map_cons, List.flatMap_cons] at *; rw [ih]

theorem byte_sym_toNat (b : Byte) : (b.setWidth 9 : Sym).toNat = b.toNat := by
  rw [BitVec.toNat_setWidth]
  exact Nat.mod_eq_of_lt (by have := b.isLt; omega)

theorem symWords_bytes (words : List (Byte × List Bool)) :
    (symWords words).flatMap (fun w => binOf 8 w.1.toNat) = bitsOfBytes (words.map Prod.fst) := by
  induction words with
  | nil => rfl
  | cons w ws ih =>
    simp only [symWords, List.map_cons, List.flatMap_cons, bitsOfBytes_cons] at *
    rw [ih, byte_sym_toNat]

theorem symWords_paths {t : Tree} {words : List (Byte × List Bool)}
    (h : ∀ w ∈ words, t.isPath w.2 (w.1.setWidth 9) = true) : ∀ w ∈ symWords words, t.isPath w.2 w.1 = true := by
  intro w hw
  obtain ⟨v, hv, rfl⟩ := List.mem_map.mp hw
  exact h v hv

theorem symWords_noEof (words : List (Byte × List Bool)) : ∀ w ∈ symWords words, symAddr w.1 ≠ Config.pseudoEof := by
  intro w hw
  obtain ⟨v, hv, rfl⟩ := List.mem_map.mp hw
  have := v.1.isLt
  simp only [symAddr, byte_sym_toNat, Config.pseudoEof]
  omega

/-- A source holds at least a bit for each word on it. -/
theorem words_le {t : Tree} {l r : Tree} (ht : t = .node l r) {words : List (Byte × List Bool)}
    (h : ∀ w ∈ words, t.isPath w.2 (w.1.setWidth 9) = true) : words.length ≤ (words.flatMap Prod.snd).length := by
  subst ht
  induction words with
  | nil => simp
  | cons w ws ih =>
    have h1 := List.length_pos_iff.mpr (Tree.path_node_ne_nil (h w (by simp)))
    have h2 := ih (fun x hx => h x (by simp [hx]))
    simp only [List.length_cons, List.flatMap_cons, List.length_append]
    omega

theorem decodeLoop_eof {s : State} {l r : Tree} {eof more : List Bool} {n : Nat} (ht : s.tree = some (.node l r))
    (he : (Tree.node l r).isPath eof 256#9 = true) (hr : s.source.rest = eof ++ more) :
    decodeLoop (n + 1) s = .ok
      { s with
        source := s.source.consumed eof.length
        result := ⟨true, 256#9⟩
        status := { s.status with eofSeen := true } } := by
  rw [decodeLoop, walkSym_path ht he hr]
  rfl

theorem decodeLoop_truncated {s : State} {l r : Tree} {last missing : List Bool} {sym : Sym} {n : Nat}
    (ht : s.tree = some (.node l r)) (he : (Tree.node l r).isPath (last ++ missing) sym = true) (hm : missing ≠ [])
    (hr : s.source.rest = last) :
    decodeLoop (n + 1) s = .raise ⟨.truncatedStream, none⟩ { s with source := s.source.exhausted } := by
  rw [decodeLoop, walkSym_truncated ht he hm hr]

/-- DECODE where the source holds the paths of bytes and then of a pseudo-EOF leaf (46_decode R104, R105). -/
theorem decodeBody_ok {s : State} {l r : Tree} {words : List (Byte × List Bool)} {eof more : List Bool}
    (ht : s.tree = some (.node l r)) (hw : ∀ w ∈ words, (Tree.node l r).isPath w.2 (w.1.setWidth 9) = true)
    (he : (Tree.node l r).isPath eof 256#9 = true) (hr : s.source.rest = words.flatMap Prod.snd ++ (eof ++ more)) :
    decodeBody s = .ok
      { s with
        source := s.source.consumed ((words.flatMap Prod.snd).length + eof.length)
        result := ⟨true, 256#9⟩
        sink := s.sink.append (bitsOfBytes (words.map Prod.fst))
        status := { s.status with eofSeen := true } } := by
  have hlen := words_le rfl hw
  have hturns : words.length < s.source.turns := by rw [Source.turns_eq, hr]; simp only [List.length_append]; omega
  unfold decodeBody
  rw [decodeLoop_stretch (symWords words) (s := { s with status := { s.status with eofSeen := false } }) (more := eof ++ more) ht (symWords_paths hw) (symWords_noEof words)
    (by rw [symWords_bits]; exact hr) (by simp only [symWords, List.length_map]; omega), symWords_bits, symWords_bytes]
  obtain ⟨n, hn⟩ : ∃ n, s.source.turns - (symWords words).length = n + 1 :=
    ⟨s.source.turns - words.length - 1, by simp only [symWords, List.length_map]; omega⟩
  have hrest : (s.source.consumed (words.flatMap Prod.snd).length).rest = eof ++ more := by
    rw [Source.consumed_rest, hr, List.drop_left]
  rw [hn, decodeLoop_eof (l := l) (r := r) (more := more) ?_ he ?_]
  · simp only [Source.consumed_consumed]
  · exact ht
  · exact hrest

/-- DECODE where the source ends inside a path (46_decode R104). -/
theorem decodeBody_truncated {s : State} {l r : Tree} {words : List (Byte × List Bool)} {last missing : List Bool}
    {sym : Sym} (ht : s.tree = some (.node l r)) (hw : ∀ w ∈ words, (Tree.node l r).isPath w.2 (w.1.setWidth 9) = true)
    (he : (Tree.node l r).isPath (last ++ missing) sym = true) (hm : missing ≠ [])
    (hr : s.source.rest = words.flatMap Prod.snd ++ last) :
    decodeBody s = .raise ⟨.truncatedStream, none⟩
      { s with
        source := s.source.exhausted
        result := match words.getLast? with | some w => ⟨true, w.1.setWidth 9⟩ | none => s.result
        sink := s.sink.append (bitsOfBytes (words.map Prod.fst))
        status := { s.status with eofSeen := false } } := by
  have hlen := words_le rfl hw
  have hturns : words.length < s.source.turns := by rw [Source.turns_eq, hr]; simp only [List.length_append]; omega
  unfold decodeBody
  rw [decodeLoop_stretch (symWords words) (s := { s with status := { s.status with eofSeen := false } }) (more := last) ht (symWords_paths hw) (symWords_noEof words)
    (by rw [symWords_bits]; exact hr) (by simp only [symWords, List.length_map]; omega), symWords_bits, symWords_bytes]
  obtain ⟨n, hn⟩ : ∃ n, s.source.turns - (symWords words).length = n + 1 :=
    ⟨s.source.turns - words.length - 1, by simp only [symWords, List.length_map]; omega⟩
  have hrest : (s.source.consumed (words.flatMap Prod.snd).length).rest = last := by
    rw [Source.consumed_rest, hr, List.drop_left]
  rw [hn, decodeLoop_truncated (l := l) (r := r) ?_ he hm ?_]
  rotate_left
  · exact ht
  · exact hrest
  have hlast : (symWords words).getLast? = words.getLast?.map (fun w => (w.1.setWidth 9, w.2)) := by
    rw [symWords, List.getLast?_map]
  simp only [hlast]
  cases words.getLast? <;> rfl

/-- DEC_SYM where the source holds the path of a leaf (46_decode R103). -/
theorem decSymBody_ok {s : State} {l r : Tree} {path more : List Bool} {sym : Sym} (ht : s.tree = some (.node l r))
    (hp : (Tree.node l r).isPath path sym = true) (hr : s.source.rest = path ++ more) :
    decSymBody s = .ok
      (if sym.toNat = 256 then
        { s with
          source := s.source.consumed path.length
          result := ⟨true, sym⟩
          status := { s.status with eofSeen := true } }
      else
        { s with
          source := s.source.consumed path.length
          result := ⟨true, sym⟩
          sink := s.sink.append (binOf 8 sym.toNat)
          status := { s.status with eofSeen := false } }) := by
  unfold decSymBody
  rw [walkSym_path (s := { s with status := { s.status with eofSeen := false } }) ht hp hr]
  by_cases h : sym.toNat = 256
  · rw [if_pos h]; exact if_pos h
  · rw [if_neg h]; exact if_neg h

theorem decSymBody_truncated {s : State} {l r : Tree} {missing : List Bool} {sym : Sym} (ht : s.tree = some (.node l r))
    (hp : (Tree.node l r).isPath (s.source.rest ++ missing) sym = true) (hm : missing ≠ []) :
    decSymBody s = .raise ⟨.truncatedStream, none⟩
      { s with source := s.source.exhausted, status := { s.status with eofSeen := false } } := by
  unfold decSymBody
  rw [walkSym_truncated (s := { s with status := { s.status with eofSeen := false } }) ht hp hm rfl]

/-- Bytes with their codewords. -/
def State.coded (s : State) (bytes : List Byte) : List (Byte × List Bool) := bytes.map (fun b => (b, s.codeword b.toNat))

theorem coded_bits (s : State) (bytes : List Byte) :
    (s.coded bytes).flatMap Prod.snd = bytes.flatMap (fun b => s.codeword b.toNat) := by
  induction bytes with
  | nil => rfl
  | cons b bs ih => simp only [State.coded, List.map_cons, List.flatMap_cons] at *; rw [ih]

theorem coded_bytes (s : State) (bytes : List Byte) : (s.coded bytes).map Prod.fst = bytes := by
  rw [State.coded, List.map_map]
  exact List.map_id bytes

theorem coded_paths {s : State} {l r : Tree} (hL : (Tree.node l r).leaves ≤ 257)
    (hc : s.code = codeTable ((Tree.node l r).codes 0 0#256)) {bytes : List Byte}
    (hb : ∀ b ∈ bytes, s.codeword b.toNat ≠ []) :
    ∀ w ∈ s.coded bytes, (Tree.node l r).isPath w.2 (w.1.setWidth 9) = true := by
  intro w hw
  obtain ⟨b, h, rfl⟩ := List.mem_map.mp hw
  have := codeword_path (sym := b.setWidth 9) hL hc (by rw [byte_sym_toNat]; exact hb b h)
  rw [byte_sym_toNat] at this
  exact this

/-! ## COUNT and BUILD -/

/-- COUNT where no byte value occurs 2^32 times (41_count R86). -/
theorem countBody_ok {s : State} (h : ∀ b : Byte, s.source.rewind.bytes.count b < 2 ^ 32) :
    ∃ freq, countBody s = .ok { s with freq := freq, source := s.source.rewind.exhausted } ∧
      (∀ k, k ≠ 256 → (freqAt freq k).toNat = occurrences s.source.rewind.bytes k) ∧ freqAt freq 256 = 1#32 := by
  have hocc := occurrences_of_byte (by norm_num) h
  obtain ⟨freq, h1, h2, h3⟩ := countLoop_all (freq := []) (turns := s.source.rewind.bytes.length + 1) memory_nil_wf
    (Source.rewind_rest _) (Nat.lt_succ_self _) (by intro k; simpa [freqAt, Memory.read] using hocc k)
  refine ⟨freqSet freq 256 1#32, ?_, ?_, freqAt_freqSet_same h2 _ _⟩
  · unfold countBody
    rw [h1]
    rfl
  · intro k hk
    rw [freqAt_freqSet_other _ hk, h3]
    simp [freqAt, Memory.read]

/-- COUNT ends well only with FREQ[256] = 1, and reads the source once rewound (41_count R86). -/
theorem countBody_shape_ok {s t : State} (h : countBody s = .ok t) :
    ∃ freq src, s.source.rewind.MovedOn src ∧ freqAt freq 256 = 1#32 ∧ t = { s with freq := freq, source := src } := by
  obtain ⟨_, _, hm, _, _⟩ := countBody_shape (s := s) (u := t) (.inl h)
  unfold countBody at h
  split at h
  · cases h
  · next freq src hl =>
    cases h
    have hs := countLoop_shape hl
    exact ⟨_, src, hs.1, freqAt_freqSet_same (hs.2 ⟨memory_nil_wf, by simp⟩).1 _ _, rfl⟩

/-- BUILD leaves a tree of 2 to 257 leaves with every used symbol (42_build R89, R91). -/
theorem buildBody_result {s : State} (h : freqAt s.freq 256 ≠ 0#32) :
    ∃ (l r : Tree) (arena : List Node),
      buildBody s = .ok
        { s with
          arena := arena
          nodeCount := BitVec.ofNat 10 (2 * (Tree.node l r).leaves - 1)
          root := BitVec.ofNat 10 (2 * (Tree.node l r).leaves - 2)
          leafCount := BitVec.ofNat 9 (Tree.node l r).leaves
          status := { s.status with treeValid := true, treeSrc := false, codesValid := false } } ∧
      (∀ u : State, u.arena = arena → u.root = BitVec.ofNat 10 (2 * (Tree.node l r).leaves - 2) →
        u.nodeCount = BitVec.ofNat 10 (2 * (Tree.node l r).leaves - 1) →
        u.leafCount = BitVec.ofNat 9 (Tree.node l r).leaves → u.resets = s.resets →
        u.tree = some (.node l r) ∧ TreeOk u) ∧
      (Tree.node l r).leaves ≤ 257 ∧ (∀ sym ∈ (Tree.node l r).symbols, sym.toNat ≤ 256) ∧
      (∀ sym : Sym, sym.toNat ≤ 256 → freqAt s.freq sym.toNat ≠ 0#32 → sym ∈ (Tree.node l r).symbols) := by
  obtain ⟨nodes, k, _, _, _, _, hb⟩ := buildBody_ok h
  obtain ⟨h1, h2, _, _, hsyms⟩ := buildLeaves_spec h
  obtain ⟨htree, _, tr, ht, hperm⟩ := buildBody_tree hb
  have hL : tr.leaves = (buildLeaves s.freq).length := by
    rw [← Tree.symbols_length, hperm.length_eq, List.length_map]
  obtain ⟨l, r, g1, g2, _⟩ := htree
  rw [g1] at ht
  cases ht
  rw [← hL] at hb
  refine ⟨l, r, _, hb, ?_, by omega, g2, ?_⟩
  · intro u hu hr hn hl hs
    rw [hL] at hr hn hl
    refine ⟨?_, TreeOk.congr (buildBody_tree hb).1 hu hs (by rw [hr, ← hL]) (by rw [hn, ← hL]) (by rw [hl, ← hL])⟩
    rw [← g1]
    refine tree_congr (fun i => ?_) hr
    rw [State.node, State.node, hu, hs]
  · intro sym hle hne
    rw [hperm.mem_iff]
    have hmem : sym.toNat ∈ (buildLeaves s.freq).map (fun n => n.sym.toNat) := by
      have hu : sym.toNat ∈ usedSymbols s.freq := mem_usedSymbols.mpr ⟨by omega, hne⟩
      rw [hsyms]
      split
      · next h1' =>
        obtain ⟨x, hx⟩ := List.length_eq_one_iff.mp h1'
        have h256 : 256 ∈ usedSymbols s.freq := mem_usedSymbols.mpr ⟨by norm_num, h⟩
        rw [hx, List.mem_singleton] at hu h256
        rw [hu, ← h256]; simp
      · exact hu
    obtain ⟨n, hn, e⟩ := List.mem_map.mp hmem
    exact List.mem_map.mpr ⟨n, hn, BitVec.eq_of_toNat_eq e⟩

/-- BUILD depends on FREQ alone, but for the hidden entries it leaves (42_build R89). -/
theorem buildBody_congr {s t b : State} (hf : t.freq = s.freq) (ha : t.arena = s.arena) (h : buildBody s = .ok b) :
    buildBody t = .ok
      { t with
        arena := b.arena
        nodeCount := b.nodeCount
        root := b.root
        leafCount := b.leafCount
        status := { t.status with treeValid := true, treeSrc := false, codesValid := false } } := by
  unfold buildBody at *
  rw [hf]
  split at h
  · cases h
  · next hne =>
    rw [if_neg hne, ha]
    cases h
    rfl

/-! ## COMPRESS -/

/-- COMPRESS after its first four bodies ended well: what is left is the tree, the payload and the flush
(47_macro R106). -/
theorem compressBody_after {s s1 s2 : State} {t : Tree} (h1 : countBody s = .ok s1) (h2 : buildBody s1 = .ok s2)
    (ht : s2.tree = some t) :
    compressBody s =
      ((encodeBody
        { s2 with
          code := codeTable (t.codes 0 0#256)
          status := { s2.status with codesValid := true }
          sink := (s2.sink.append (binOf 32 s2.magic.toNat)).append t.serialize
          hdrBits := BitVec.ofNat 32 (11 * t.leaves - 1) }).andThen flushBody).flushOnRaise := by
  unfold compressBody
  rw [h1, Run.andThen_ok, h2, Run.andThen_ok, gencodesBody_ok ht, Run.andThen_ok, writeMagicBody_ok, Run.andThen_ok,
    writeTreeBody_ok (t := t), Run.andThen_ok]
  exact ht

/-- A list all of whose elements have p, or its first element that has not. -/
theorem first_without {α : Type} (p : α → Prop) (l : List α) :
    (∀ x ∈ l, p x) ∨ ∃ pre b post, l = pre ++ b :: post ∧ (∀ c ∈ pre, p c) ∧ ¬ p b := by
  induction l with
  | nil => exact .inl (by simp)
  | cons x xs ih =>
    by_cases hx : p x
    · rcases ih with h | ⟨pre, b, post, rfl, h1, h2⟩
      · exact .inl (by simpa using ⟨hx, h⟩)
      · exact .inr ⟨x :: pre, b, post, rfl, by simpa using ⟨hx, h1⟩, h2⟩
    · exact .inr ⟨[], x, xs, rfl, by simp, hx⟩

/-- ENCODE ends well only where every byte of its pass and the pseudo-EOF have codewords (45_encode R100). -/
theorem encodeBody_eq_ok {s t : State} (h : encodeBody s = .ok t) :
    (∀ b ∈ s.source.rewind.bytes, s.codeword b.toNat ≠ []) ∧ s.codeword 256 ≠ [] ∧
      t = { s with sink := s.sink.append (s.payload s.source.rewind.bytes), source := s.source.rewind.exhausted } := by
  rcases first_without (fun b : Byte => s.codeword b.toNat ≠ []) s.source.rewind.bytes with hb | ⟨pre, b, post, h1, h2, h3⟩
  · by_cases he : s.codeword 256 = []
    · rw [encodeBody_noEof hb he] at h; cases h
    · rw [encodeBody_ok hb he] at h
      cases h
      exact ⟨hb, he, rfl⟩
  · rw [encodeBody_missing h1 h2 (not_not.mp h3)] at h; cases h

theorem Run.flushOnRaise_eq_ok {r : Run} {u : State} (h : r.flushOnRaise = .ok u) : r = .ok u := by
  cases r with
  | ok s => exact h
  | raise e s => cases h
  | diverge => cases h

/-- The end of COMPRESS, from the state BUILD left (47_macro R106). -/
theorem compress_tail {s2 u : State} {t : Tree} (hc : s2.status.sinkClosed = false)
    (h : ((encodeBody
        { s2 with
          code := codeTable (t.codes 0 0#256)
          status := { s2.status with codesValid := true }
          sink := (s2.sink.append (binOf 32 s2.magic.toNat)).append t.serialize
          hdrBits := BitVec.ofNat 32 (11 * t.leaves - 1) }).andThen flushBody).flushOnRaise = .ok u) :
    (∀ b ∈ s2.source.rewind.bytes, u.codeword b.toNat ≠ []) ∧ u.codeword 256 ≠ [] ∧
    ∃ snk, snk = (s2.sink.append (binOf 32 s2.magic.toNat ++ (t.serialize ++ u.payload s2.source.rewind.bytes))).close ∧
      u = { s2 with
            code := codeTable (t.codes 0 0#256)
            status := { s2.status with codesValid := true, sinkClosed := true }
            sink := snk
            source := s2.source.rewind.exhausted
            hdrBits := BitVec.ofNat 32 (11 * t.leaves - 1) } := by
  generalize hm : binOf 32 s2.magic.toNat = mbits at *
  obtain ⟨s6, h6, hf⟩ := Run.andThen_eq_ok (Run.flushOnRaise_eq_ok h)
  obtain ⟨hb, he, e6⟩ := encodeBody_eq_ok h6
  rw [flushBody, sinkFlush_open s6 (by rw [e6]; exact hc)] at hf
  have hu := (Run.ok.inj hf).symm
  have hcode : u.code = codeTable (t.codes 0 0#256) := by rw [hu, e6]
  have hw : ∀ k, u.codeword k = (codeAt (codeTable (t.codes 0 0#256)) k).bits := fun k => by rw [State.codeword, hcode]
  refine ⟨fun b hb' => ?_, ?_, (s2.sink.append (mbits ++ (t.serialize ++ u.payload s2.source.rewind.bytes))).close, rfl, ?_⟩
  · rw [hw]; exact hb b hb'
  · rw [hw]; exact he
  · have hp : u.payload s2.source.rewind.bytes =
        s2.source.rewind.bytes.flatMap (fun b => (codeAt (codeTable (t.codes 0 0#256)) b.toNat).bits) ++
          (codeAt (codeTable (t.codes 0 0#256)) 256).bits := by
      simp only [State.payload, hw, Config.pseudoEof]
    rw [hp, hu, e6, Sink.append_append, Sink.append_append]
    rfl

/-- What a COMPRESS that ends well has done: the tree and its codes, and the stream of what the second pass read
(47_macro R106, 30_encoding R73). -/
theorem compressBody_eq_ok {s u : State} (hc : s.status.sinkClosed = false) (h : compressBody s = .ok u) :
    ∃ l r : Tree, u.tree = some (.node l r) ∧ TreeOk u ∧ (Tree.node l r).leaves ≤ 257 ∧
      (∀ sym ∈ (Tree.node l r).symbols, sym.toNat ≤ 256) ∧ u.code = codeTable ((Tree.node l r).codes 0 0#256) ∧
      u.hdrBits = BitVec.ofNat 32 (11 * (Tree.node l r).leaves - 1) ∧
      u.source = s.source.rewind.rewind.exhausted ∧
      (∀ b ∈ s.source.rewind.rewind.bytes, u.codeword b.toNat ≠ []) ∧ u.codeword 256 ≠ [] ∧
      u.sink = (s.sink.append (binOf 32 s.magic.toNat ++
        ((Tree.node l r).serialize ++ u.payload s.source.rewind.rewind.bytes))).close ∧
      (∃ s1 b, countBody s = .ok s1 ∧ u.freq = s1.freq ∧ s1.arena = s.arena ∧ buildBody s1 = .ok b ∧
        b.tree = some (.node l r) ∧ u.arena = b.arena ∧ u.nodeCount = b.nodeCount ∧ u.root = b.root ∧
        u.leafCount = b.leafCount ∧ u.resets = s.resets ∧ b.resets = s.resets) ∧ u.err = s.err ∧ u.irq = s.irq ∧ u.seq = s.seq ∧
      u.status = { s.status with treeValid := true, treeSrc := false, codesValid := true, sinkClosed := true } := by
  have h0 := Run.flushOnRaise_eq_ok h
  obtain ⟨_, h0, _⟩ := Run.andThen_eq_ok h0
  obtain ⟨_, h0, _⟩ := Run.andThen_eq_ok h0
  obtain ⟨_, h0, _⟩ := Run.andThen_eq_ok h0
  obtain ⟨_, h0, _⟩ := Run.andThen_eq_ok h0
  obtain ⟨_, h0, _⟩ := Run.andThen_eq_ok h0
  obtain ⟨s1, h1, _⟩ := Run.andThen_eq_ok h0
  obtain ⟨freq, src, hm, h256, rfl⟩ := countBody_shape_ok h1
  obtain ⟨l, r, arena, h2, htree, hL, hs, _⟩ := buildBody_result (s := { s with freq := freq, source := src })
    (by show freqAt freq 256 ≠ _; rw [h256]; decide)
  have htree2 := compressBody_after h1 h2 (t := .node l r) (by refine (htree _ ?_ ?_ ?_ ?_ ?_).1 <;> rfl)
  rw [htree2] at h
  obtain ⟨hb, he, snk, hsnk, hu⟩ := compress_tail (by exact hc) h
  have hrw : src.rewind = s.source.rewind.rewind := hm.rewind_eq
  rw [← hrw]
  have ht : u.tree = some (.node l r) ∧ TreeOk u := by
    rw [hu]; refine htree _ ?_ ?_ ?_ ?_ ?_ <;> rfl
  refine ⟨l, r, ht.1, ht.2, hL, hs, by rw [hu], by rw [hu], by rw [hu], hb, he, ?_,
    ⟨_, _, h1, by rw [hu], rfl, h2, by (refine (htree _ ?_ ?_ ?_ ?_ ?_).1 <;> rfl), by rw [hu], by rw [hu], by rw [hu],
      by rw [hu], by rw [hu], rfl⟩, by rw [hu],
    by rw [hu], by rw [hu], by rw [hu]⟩
  rw [← hsnk, hu]

theorem compress_tail_ok {s2 : State} {t : Tree}
    (hb : ∀ b ∈ s2.source.rewind.bytes, (codeAt (codeTable (t.codes 0 0#256)) b.toNat).bits ≠ [])
    (he : (codeAt (codeTable (t.codes 0 0#256)) 256).bits ≠ []) :
    ∃ u, ((encodeBody
        { s2 with
          code := codeTable (t.codes 0 0#256)
          status := { s2.status with codesValid := true }
          sink := (s2.sink.append (binOf 32 s2.magic.toNat)).append t.serialize
          hdrBits := BitVec.ofNat 32 (11 * t.leaves - 1) }).andThen flushBody).flushOnRaise = .ok u := by
  generalize (s2.sink.append (binOf 32 s2.magic.toNat)).append t.serialize = snk
  rw [encodeBody_ok]
  · exact ⟨_, rfl⟩
  · exact hb
  · exact he

theorem Source.stable_rewind {src : Source} (h : src.later = []) :
    src.rewind.bytes = src.bytes ∧ src.rewind.later = [] ∧ src.rewind.rewind = src.rewind := by
  rw [Source.rewind_stable h, Source.rewind_stable (by exact h)]
  exact ⟨rfl, h, rfl⟩

theorem State.stable_iff {s : State} : s.stable = true ↔ s.source.later = [] := by
  simp [State.stable]

/-- COMPRESS ends well on a stable source with no byte value occurring 2^32 times (47_macro R106). -/
theorem compressBody_ok {s : State} (hst : s.stable = true) (h : ∀ b : Byte, s.source.bytes.count b < 2 ^ 32) :
    ∃ u freq, compressBody s = .ok u ∧ countBody s = .ok { s with freq := freq, source := s.source.rewind.exhausted } ∧
      (∀ b : Byte, (freqAt freq b.toNat).toNat = s.source.bytes.count b) ∧ freqAt freq 256 = 1#32 := by
  obtain ⟨hby, hla, hrr⟩ := Source.stable_rewind (State.stable_iff.mp hst)
  obtain ⟨freq, h1, hf, h256⟩ := countBody_ok (s := s) (by rw [hby]; exact h)
  have hcount : ∀ b : Byte, (freqAt freq b.toNat).toNat = s.source.bytes.count b := by
    intro b
    rw [hf _ (by have := b.isLt; omega), hby, occurrences_byte]
  obtain ⟨l, r, arena, h2, htree, hL, hs, hused⟩ := buildBody_result
    (s := { s with freq := freq, source := s.source.rewind.exhausted }) (by show freqAt freq 256 ≠ _; rw [h256]; decide)
  have haft := compressBody_after h1 h2 (t := .node l r) (by refine (htree _ ?_ ?_ ?_ ?_ ?_).1 <;> rfl)
  have hbytes : s.source.rewind.exhausted.rewind.bytes = s.source.bytes := by
    rw [Source.rewind_stable (src := s.source.rewind.exhausted) (by exact hla)]
    exact hby
  have hword : ∀ sym : Sym, sym.toNat ≤ 256 → freqAt freq sym.toNat ≠ 0#32 →
      (codeAt (codeTable ((Tree.node l r).codes 0 0#256)) sym.toNat).bits ≠ [] := by
    intro sym hle hne
    exact codeword_of_symbol (s := { s with code := codeTable ((Tree.node l r).codes 0 0#256) }) hL rfl (hused sym hle hne)
  obtain ⟨u, hu⟩ := compress_tail_ok (s2 := { s with
      freq := freq
      source := s.source.rewind.exhausted
      arena := arena
      nodeCount := BitVec.ofNat 10 (2 * (Tree.node l r).leaves - 1)
      root := BitVec.ofNat 10 (2 * (Tree.node l r).leaves - 2)
      leafCount := BitVec.ofNat 9 (Tree.node l r).leaves
      status := { s.status with treeValid := true, treeSrc := false, codesValid := false } }) (t := .node l r)
    (by
      intro b hb
      have hb : b ∈ s.source.bytes := by rw [← hbytes]; exact hb
      have := hword (b.setWidth 9) (by rw [byte_sym_toNat]; have := b.isLt; omega) (by
        rw [byte_sym_toNat]
        intro e
        have h0 := hcount b
        rw [e] at h0
        exact absurd (List.count_pos_iff.mpr hb) (by rw [← h0]; simp))
      rw [byte_sym_toNat] at this
      exact this)
    (hword 256#9 (by decide) (by show freqAt freq 256 ≠ _; rw [h256]; decide))
  exact ⟨u, freq, haft.trans hu, h1, hcount, h256⟩

/-! ## DECOMPRESS -/

/-- DECOMPRESS after its bodies: what is left is the flush (47_macro R107). -/
theorem decompressBody_of {s s1 s2 s3 : State} (h1 : readMagicBody (decompressStart s) = .ok s1)
    (h2 : readTreeBody s1 = .ok s2) (h3 : decodeBody s2 = .ok s3) : decompressBody s = .ok s3.sinkFlush := by
  unfold decompressBody
  rw [h1, Run.andThen_ok, h2, Run.andThen_ok, h3]
  rfl

theorem decompressBody_of_decode {s s1 s2 s3 : State} {e : Raise} (h1 : readMagicBody (decompressStart s) = .ok s1)
    (h2 : readTreeBody s1 = .ok s2) (h3 : decodeBody s2 = .raise e s3) : decompressBody s = .raise e s3.sinkFlush := by
  unfold decompressBody
  rw [h1, Run.andThen_ok, h2, Run.andThen_ok, h3]
  rfl

theorem decompressBody_of_tree {s s1 s2 : State} {e : Raise} (h1 : readMagicBody (decompressStart s) = .ok s1)
    (h2 : readTreeBody s1 = .raise e s2) : decompressBody s = .raise e s2.sinkFlush := by
  unfold decompressBody
  rw [h1, Run.andThen_ok, h2]
  rfl

theorem decompressBody_of_magic {s s1 : State} {e : Raise} (h1 : readMagicBody (decompressStart s) = .raise e s1) :
    decompressBody s = .raise e s1.sinkFlush := by
  unfold decompressBody
  rw [h1]
  rfl

/-- What DECOMPRESS has done when the header is read (47_macro R107). -/
theorem decompress_header {s : State} {l r : Tree} {more : List Bool}
    (hb : bitsOfBytes s.source.rewind.bytes = binOf 32 s.magic.toNat ++ ((Tree.node l r).serialize ++ more))
    (hs : ∀ sym ∈ (Tree.node l r).symbols, sym.toNat ≤ 256) (hL : (Tree.node l r).leaves ≤ 257) :
    ∃ s1 s2, readMagicBody (decompressStart s) = .ok s1 ∧ readTreeBody s1 = .ok s2 ∧ s2.tree = some (.node l r) ∧
      s2.source.rest = more ∧
      s2 = { s with
            source := s.source.rewind.consumed (32 + (11 * (Tree.node l r).leaves - 1))
            arena := s2.arena
            nodeCount := BitVec.ofNat 10 (Tree.node l r).nodes
            root := 0#10
            leafCount := BitVec.ofNat 9 (Tree.node l r).leaves
            hdrBits := BitVec.ofNat 32 (11 * (Tree.node l r).leaves - 1)
            status := { s.status with
              magicOk := true, treeValid := true, treeSrc := true, codesValid := false, eofSeen := false } } := by
  have hser := (Tree.node l r).serialize_length
  have hn := (Tree.node l r).nodes_leaves
  have h0 : (decompressStart s).source.rest = binOf 32 (decompressStart s).magic.toNat ++ ((Tree.node l r).serialize ++ more) := by
    show s.source.rewind.rest = _
    rw [Source.rewind_rest, hb]
    rfl
  have h1 := readMagicBody_ok h0
  have h2 : (s.source.rewind.consumed 32).rest = (Tree.node l r).serialize ++ more := by
    rw [Source.consumed_rest, Source.rewind_rest, hb, List.drop_left' (binOf_length _ _)]
  have h3 := readTreeBody_ok (s := { decompressStart s with
    source := (decompressStart s).source.consumed 32, status := { (decompressStart s).status with magicOk := true } }) h2 hs hL
  refine ⟨_, _, h1, h3, (layout_treeOk (old := s.arena) rfl hs (by omega) rfl rfl rfl).2.1, ?_, ?_⟩
  · show ((s.source.rewind.consumed 32).consumed _).rest = more
    rw [Source.consumed_rest, h2, List.drop_left' (by omega)]
  · show State.mk _ _ _ _ _ _ _ _ _ _ _ _ _ _ _ _ _ _ _ _ _ _ = _
    congr 1
    show (s.source.rewind.consumed 32).consumed _ = _
    rw [Source.consumed_consumed]

/-- DECOMPRESS where the source is the magic, a tree, and the paths of bytes and of a pseudo-EOF leaf (47_macro R107). -/
theorem decompressBody_stream {s : State} {l r : Tree} {words : List (Byte × List Bool)} {eof more : List Bool}
    (hc : s.status.sinkClosed = false)
    (hb : bitsOfBytes s.source.rewind.bytes =
      binOf 32 s.magic.toNat ++ ((Tree.node l r).serialize ++ (words.flatMap Prod.snd ++ (eof ++ more))))
    (hs : ∀ sym ∈ (Tree.node l r).symbols, sym.toNat ≤ 256) (hL : (Tree.node l r).leaves ≤ 257)
    (hw : ∀ w ∈ words, (Tree.node l r).isPath w.2 (w.1.setWidth 9) = true)
    (he : (Tree.node l r).isPath eof 256#9 = true) :
    ∃ u, decompressBody s = .ok u ∧ u.tree = some (.node l r) ∧
      u = { s with
          source := s.source.rewind.consumed
            (32 + (11 * (Tree.node l r).leaves - 1) + (words.flatMap Prod.snd).length + eof.length)
          arena := u.arena
          nodeCount := u.nodeCount
          root := 0#10
          leafCount := u.leafCount
          hdrBits := u.hdrBits
          result := ⟨true, 256#9⟩
          sink := (s.sink.append (bitsOfBytes (words.map Prod.fst))).close
          status := { s.status with
              magicOk := true, treeValid := true, treeSrc := true, codesValid := false, eofSeen := true, sinkClosed := true } } := by
  obtain ⟨s1, s2, h1, h2, ht, hr, e2⟩ := decompress_header hb hs hL
  have h3 := decodeBody_ok ht hw he hr
  have h4 := decompressBody_of h1 h2 h3
  rw [sinkFlush_open] at h4
  · refine ⟨_, h4, ht, ?_⟩
    conv_lhs => rw [e2]
    show State.mk _ _ _ _ _ _ _ _ _ _ _ _ _ _ _ _ _ _ _ _ _ _ = _
    congr 1
    · rw [e2]
    · rw [e2]
    · rw [e2]
    · simp only [Source.consumed_consumed, Nat.add_assoc]
  · show s2.status.sinkClosed = false
    rw [e2]; exact hc

/-- A payload cut short is some whole codewords and the proper beginning of one (47_macro R109). -/
theorem words_cut {t : Tree} {eof : List Bool} {sym0 : Sym} (he : t.isPath eof sym0 = true) (ws : List (Byte × List Bool)) :
    ∀ (cut missing : List Bool), (∀ w ∈ ws, t.isPath w.2 (w.1.setWidth 9) = true) → cut ++ missing = ws.flatMap Prod.snd ++ eof → missing ≠ [] →
    ∃ (words : List (Byte × List Bool)) (last missing' : List Bool) (sym : Sym), (∀ w ∈ words, t.isPath w.2 (w.1.setWidth 9) = true) ∧ t.isPath (last ++ missing') sym = true ∧
      missing' ≠ [] ∧ cut = words.flatMap Prod.snd ++ last := by
  induction ws with
  | nil => intro cut missing _ h hm; exact ⟨[], cut, missing, sym0, by simp, by rw [h]; exact he, hm, by simp⟩
  | cons w ws ih =>
    intro cut missing hw h hm
    rw [List.flatMap_cons, List.append_assoc] at h
    rcases List.append_eq_append_iff.mp h with ⟨a, h1, h2⟩ | ⟨c, h1, h2⟩
    · by_cases ha : a = []
      · subst ha
        simp only [List.append_nil, List.nil_append] at h1 h2
        obtain ⟨words, last, m', sym, g1, g2, g3, g4⟩ := ih [] missing (fun x hx => hw x (by simp [hx])) (by rw [h2]; rfl) hm
        refine ⟨w :: words, last, m', sym, ?_, g2, g3, ?_⟩
        · intro x hx; rcases List.mem_cons.mp hx with rfl | hx
          · exact hw _ (by simp)
          · exact g1 x hx
        · rw [List.flatMap_cons, List.append_assoc, ← g4, h1]; simp
      · exact ⟨[], cut, a, w.1.setWidth 9, by simp, by rw [← h1]; exact hw w (by simp), ha, by simp⟩
    · obtain ⟨words, last, m', sym, g1, g2, g3, g4⟩ := ih c missing (fun x hx => hw x (by simp [hx])) h2.symm hm
      refine ⟨w :: words, last, m', sym, ?_, g2, g3, ?_⟩
      · intro x hx; rcases List.mem_cons.mp hx with rfl | hx
        · exact hw _ (by simp)
        · exact g1 x hx
      · rw [List.flatMap_cons, List.append_assoc, ← g4, h1]

end Sys2Proof.Machine
end

