-- ==== Sys2Proof/Laws/Headers.lean ====
section
/-! SUPPORT. The beginnings of a header, node by node, and how READ_TREE's parse ends after one (44_header R97). -/

namespace Sys2Proof.Machine

/-! ## Nodes in pre-order -/

/-- The nodes of a tree in pre-order. -/
def Tree.preorder : Tree → List (Option Sym)
  | .leaf sym => [some sym]
  | .node l r => none :: (l.preorder ++ r.preorder)

@[simp] theorem headerBits_append (a b : List (Option Sym)) : headerBits (a ++ b) = headerBits a ++ headerBits b := by
  simp [headerBits]

@[simp] theorem headerBits_none (a : List (Option Sym)) : headerBits (none :: a) = false :: headerBits a := rfl

@[simp] theorem leafValues_append (a b : List (Option Sym)) : leafValues (a ++ b) = leafValues a ++ leafValues b := by
  simp [leafValues]

@[simp] theorem leafValues_none (a : List (Option Sym)) : leafValues (none :: a) = leafValues a := rfl

theorem Tree.headerBits_preorder (t : Tree) : headerBits t.preorder = t.serialize := by
  induction t with
  | leaf sym => simp [Tree.preorder, headerBits, Tree.serialize]
  | node l r ihl ihr => simp [Tree.preorder, Tree.serialize, ihl, ihr]

theorem Tree.leafValues_preorder (t : Tree) : leafValues t.preorder = t.symbols := by
  induction t with
  | leaf sym => rfl
  | node l r ihl ihr => simp [Tree.preorder, Tree.symbols, ihl, ihr]

theorem Tree.preorder_length (t : Tree) : t.preorder.length = t.nodes := by
  induction t with
  | leaf sym => rfl
  | node l r ihl ihr => simp [Tree.preorder, Tree.nodes, ihl, ihr]

/-- A whole tree is one subtree less to read. -/
theorem subtreesLeft_preorder (t : Tree) (n : Nat) (nodes : List (Option Sym)) :
    subtreesLeft (n + 1) (t.preorder ++ nodes) = subtreesLeft n nodes := by
  induction t generalizing n nodes with
  | leaf sym => rfl
  | node l r ihl ihr =>
    rw [Tree.preorder, List.cons_append, List.append_assoc, subtreesLeft, ihl, ihr]

theorem subtreesLeft_mono (nodes : List (Option Sym)) {m n : Nat} (h : m ≤ n) : subtreesLeft m nodes ≤ subtreesLeft n nodes := by
  induction nodes generalizing m n with
  | nil => cases m <;> cases n <;> simp_all [subtreesLeft]
  | cons x nodes ih =>
    cases m with
    | zero => simp [subtreesLeft]
    | succ m =>
      obtain ⟨n, rfl⟩ : ∃ k, n = k + 1 := ⟨n - 1, by omega⟩
      cases x <;> simp only [subtreesLeft] <;> exact ih (by omega)

/-- Nodes in pre-order leave their tree open, or begin with a whole tree. -/
theorem open_or_tree (nodes : List (Option Sym)) :
    0 < subtreesLeft 1 nodes ∨ ∃ (t : Tree) (more : List (Option Sym)), nodes = t.preorder ++ more := by
  induction h : nodes.length using Nat.strong_induction_on generalizing nodes with
  | _ n ih =>
    match nodes, h with
    | [], _ => exact .inl (by simp [subtreesLeft])
    | some v :: nodes, _ => exact .inr ⟨.leaf v, nodes, rfl⟩
    | none :: nodes, h =>
      subst h
      rcases ih nodes.length (by simp) nodes rfl with h1 | ⟨l, more, rfl⟩
      · exact .inl (lt_of_lt_of_le h1 (subtreesLeft_mono nodes (by omega)))
      · have hl : more.length < (none :: (l.preorder ++ more)).length := by simp
        rcases ih more.length hl more rfl with h1 | ⟨r, more', rfl⟩
        · exact .inl (by rw [subtreesLeft, subtreesLeft_preorder]; exact h1)
        · exact .inr ⟨.node l r, more', by simp [Tree.preorder]⟩

/-! ## The parse after the beginning of a header -/

/-- The parse reads the nodes of an open header, and ends with the error with which it ends after them (R97). -/
theorem parse_open {nodes : List (Option Sym)} (ho : HeaderOpen nodes) {more : List Bool} {e : Raise} {Q : ParseState → Prop}
    {depth : Nat} {p : ParseState} (hr : p.source.rest = headerBits nodes ++ more)
    (hc : p.count + nodes.length ≤ Config.nodeCap) (hn : p.nodes.length = p.count) (hd : nodes.length < depth)
    (hend : ∀ d new, p.nodes.length + nodes.length = new.length →
      ∃ q, parse (d + 1)
          { source := p.source.consumed (headerBits nodes).length
            nodes := new
            count := p.count + nodes.length
            leaves := p.leaves + (leafValues nodes).length } = (.error e, q) ∧ Q q) :
    ∃ q, parse depth p = (.error e, q) ∧ Q q := by
  induction h : nodes.length using Nat.strong_induction_on generalizing nodes depth p with
  | _ n ih =>
    obtain ⟨depth, rfl⟩ : ∃ k, depth = k + 1 := ⟨depth - 1, by omega⟩
    obtain ⟨ho, hs⟩ := ho
    match nodes, h with
    | [], _ => exact hend depth p.nodes rfl
    | some v :: nodes, _ => exact absurd ho (by cases nodes <;> simp [subtreesLeft])
    | none :: nodes, h =>
      subst h
      rw [headerBits_none, List.cons_append] at hr
      simp only [List.length_cons] at hc hd hend
      have hcount : p.count ≠ Config.nodeCap := by omega
      have hrest : (p.source.consumed 1).rest = headerBits nodes ++ more := by rw [Source.consumed_rest, hr]; rfl
      rw [parse, Source.readBit hr]
      simp only [hcount, if_false, Bool.toNat_false, Nat.zero_ne_one]
      rcases open_or_tree nodes with h1 | ⟨l, rest, rfl⟩
      · -- the left subtree is open
        obtain ⟨q, hq, hQ⟩ := ih nodes.length (by simp) ⟨h1, hs⟩ (depth := depth)
          (p := { p with source := p.source.consumed 1, nodes := p.nodes ++ [Node.mkInternal 0#64 0 0], count := p.count + 1 })
          hrest (by simp; omega) (by simp [hn]) (by omega)
          (by
            intro d new hnew
            have := hend d new (by simp at hnew; omega)
            simp only [headerBits_none, leafValues_none, List.length_cons, Source.consumed_consumed] at this ⊢
            rw [Nat.add_comm 1, Nat.add_right_comm]
            rw [← Nat.add_assoc] at this
            exact this) rfl
        exact ⟨q, by rw [hq], hQ⟩
      · -- the left subtree is whole
        have hln := l.nodes_leaves
        rw [headerBits_append, Tree.headerBits_preorder, List.append_assoc] at hrest
        rw [List.length_append, Tree.preorder_length] at hc hd
        rw [subtreesLeft, subtreesLeft_preorder] at ho
        have hl := parse_serialize l (depth := depth)
          (p := { p with source := p.source.consumed 1, nodes := p.nodes ++ [Node.mkInternal 0#64 0 0], count := p.count + 1 })
          hrest (fun s h => hs s (by simp [Tree.leafValues_preorder, h])) (by simp; omega) (by simp [hn]) (by omega)
        rw [hl]
        simp only
        obtain ⟨q, hq, hQ⟩ := ih rest.length (by simp) ⟨ho, fun v h => hs v (by simp [h])⟩ (depth := depth)
          (p := { source := (p.source.consumed 1).consumed l.serialize.length
                  nodes := p.nodes ++ [Node.mkInternal 0#64 0 0] ++ l.layout (p.count + 1)
                  count := p.count + 1 + l.nodes
                  leaves := p.leaves + l.leaves })
          (by rw [Source.consumed_rest, hrest, List.drop_left]) (by simp; omega) (by simp [hn]; omega) (by omega)
          (by
            intro d new hnew
            simp only [List.length_append, List.length_singleton, Tree.layout_length] at hnew
            have := hend d new (by rw [List.length_append, Tree.preorder_length]; omega)
            simp only [headerBits_none, headerBits_append, leafValues_none, leafValues_append, List.length_cons,
              List.length_append, Source.consumed_consumed, Tree.headerBits_preorder, Tree.leafValues_preorder,
              Tree.preorder_length, Tree.symbols_length] at this ⊢
            have e1 : 1 + l.serialize.length + (headerBits rest).length = l.serialize.length + (headerBits rest).length + 1 := by omega
            have e3 : p.leaves + l.leaves + (leafValues rest).length = p.leaves + (l.leaves + (leafValues rest).length) := by omega
            have e2 : p.count + 1 + l.nodes + rest.length = p.count + (l.nodes + rest.length + 1) := by omega
            rw [e1, e2, e3]
            exact this) rfl
        exact ⟨q, by rw [hq], hQ⟩

/-- The parse of a source that ends between two nodes, or inside a leaf (R97). -/
theorem parse_ends {nodes : List (Option Sym)} (ho : HeaderOpen nodes) {src : Source} {part : List Bool}
    (hr : src.rest = headerBits nodes ++ part) (hp : part = [] ∨ (part.head? = some true ∧ part.length < 10))
    (hc : nodes.length + min 1 part.length ≤ Config.nodeCap) :
    ∃ q, parse 514 ⟨src, [], 0, 0⟩ = (.error ⟨.malformedHeader, none⟩, q) ∧ q.source = src.exhausted ∧
      q.count = nodes.length + min 1 part.length ∧ q.leaves = (leafValues nodes).length := by
  have hcap : Config.nodeCap = 513 := rfl
  refine parse_open ho hr (by simp; omega) rfl (by omega) (fun d new _ => ?_)
  have hrest : (src.consumed (headerBits nodes).length).rest = part := by rw [Source.consumed_rest, hr, List.drop_left]
  rw [parse]
  rcases hp with rfl | ⟨hh, hl⟩
  · rw [Source.readBits_eoi (by rw [hrest]; simp)]
    exact ⟨_, rfl, rfl, by simp, by simp⟩
  · obtain ⟨bits, rfl⟩ : ∃ bits, part = true :: bits := by cases part <;> simp_all
    have h9 : ((src.consumed (headerBits nodes).length).consumed 1).readBits 9 = (none, src.exhausted) :=
      Source.readBits_eoi (by rw [Source.consumed_rest, hrest]; simp at hl ⊢; omega)
    have hcount : 0 + nodes.length ≠ Config.nodeCap := by simp at hc; omega
    rw [Source.readBit hrest]
    simp only [hcount, if_false, Bool.toNat_true, if_true, h9]
    exact ⟨_, rfl, rfl, by simp, by simp⟩

/-- The parse of a source that goes on after 513 nodes (R97). -/
theorem parse_full {nodes : List (Option Sym)} (ho : HeaderOpen nodes) {src : Source} {b : Bool} {more : List Bool}
    (hr : src.rest = headerBits nodes ++ b :: more) (hc : nodes.length = Config.nodeCap) :
    ∃ q, parse 514 ⟨src, [], 0, 0⟩ = (.error ⟨.hdrCapacity, none⟩, q) ∧
      q.source = src.consumed ((headerBits nodes).length + 1) ∧ q.count = Config.nodeCap ∧
      q.leaves = (leafValues nodes).length := by
  have hcap : Config.nodeCap = 513 := rfl
  refine parse_open ho hr (by simp; omega) rfl (by omega) (fun d new _ => ?_)
  have hrest : (src.consumed (headerBits nodes).length).rest = b :: more := by rw [Source.consumed_rest, hr, List.drop_left]
  rw [parse, Source.readBit hrest]
  simp only [Nat.zero_add, hc, if_true]
  exact ⟨_, rfl, by simp, rfl, rfl⟩

/-- The parse of a source with a leaf value that is no symbol (R97). -/
theorem parse_value {nodes : List (Option Sym)} (ho : HeaderOpen nodes) {src : Source} {v : Sym} {more : List Bool}
    (hr : src.rest = headerBits nodes ++ (true :: binOf 9 v.toNat ++ more)) (hv : Config.pseudoEof < v.toNat)
    (hc : nodes.length < Config.nodeCap) :
    ∃ q, parse 514 ⟨src, [], 0, 0⟩ = (.error ⟨.hdrBadSymbol, some (infoOfSym v.toNat)⟩, q) ∧
      q.source = src.consumed ((headerBits nodes).length + 10) ∧ q.count = nodes.length + 1 ∧
      q.leaves = (leafValues nodes).length := by
  have hcap : Config.nodeCap = 513 := rfl
  refine parse_open ho hr (by simp; omega) rfl (by omega) (fun d new _ => ?_)
  have hrest : (src.consumed (headerBits nodes).length).rest = true :: (binOf 9 v.toNat ++ more) := by
    rw [Source.consumed_rest, hr, List.drop_left]; rfl
  have h9 := Source.readBits_ahead (src := (src.consumed (headerBits nodes).length).consumed 1) (bits := binOf 9 v.toNat)
    (more := more) (by rw [Source.consumed_rest, hrest]; rfl) (by simp [binOf])
  rw [binOf_length, natOfBits_binOf, Nat.mod_eq_of_lt v.isLt] at h9
  have hcount : 0 + nodes.length ≠ Config.nodeCap := by omega
  rw [parse, Source.readBit hrest]
  simp only [hcount, if_false, Bool.toNat_true, if_true, h9, gt_iff_lt, hv]
  exact ⟨_, rfl, by simp, by simp, by simp⟩

/-- READ_TREE where its parse raises: the error entry, with the registers as the parse has left them (R97). -/
theorem readTree_refused {s : State} {e : Raise} {q : ParseState} {src : Source} {n leaves bits : Nat}
    (h : parse 514 ⟨s.source, [], 0, 0⟩ = (.error e, q)) (h1 : q.source = src) (h2 : q.count = n) (h3 : q.leaves = leaves)
    (hb : src.rp - s.source.rp = bits) :
    ∃ arena, exec .readTree s = .next (s.headerRefused src arena n leaves bits e.kind.code e.info) := by
  subst h1 h2 h3 hb
  refine ⟨arenaWrite q.nodes s.arena, ?_⟩
  rw [exec_raise (i := .readTree) rfl rfl (readTreeBody_error h), raiseError_eq]
  rfl

/-! ## Every header -/

theorem subtreesLeft_zero (nodes : List (Option Sym)) : subtreesLeft 0 nodes = 0 := by cases nodes <;> rfl

theorem subtreesLeft_append (a b : List (Option Sym)) (n : Nat) :
    subtreesLeft n (a ++ b) = subtreesLeft (subtreesLeft n a) b := by
  induction a generalizing n with
  | nil => cases n <;> rfl
  | cons x a ih =>
    cases n with
    | zero => rw [List.cons_append, subtreesLeft_zero, subtreesLeft_zero, subtreesLeft_zero]
    | succ n => cases x <;> simp only [List.cons_append, subtreesLeft, ih]

/-- An open header with one node more is open, or is a tree. -/
theorem open_snoc {nodes : List (Option Sym)} (ho : 0 < subtreesLeft 1 nodes) (x : Option Sym) :
    0 < subtreesLeft 1 (nodes ++ [x]) ∨ ∃ t : Tree, nodes ++ [x] = t.preorder := by
  rcases open_or_tree (nodes ++ [x]) with h | ⟨t, more, h⟩
  · exact .inl h
  · rcases List.eq_nil_or_concat more with rfl | ⟨more, y, rfl⟩
    · exact .inr ⟨t, by rw [h, List.append_nil]⟩
    · rw [List.concat_eq_append, ← List.append_assoc] at h
      obtain ⟨rfl, _⟩ := List.append_inj' h rfl
      rw [subtreesLeft_preorder, subtreesLeft_zero] at ho
      exact absurd ho (by simp)

/-- Any bits are the header of a tree that fits, with more behind it, or go wrong after an open header in one of the
three ways of R97. -/
theorem header_cases (nodes : List (Option Sym)) (more : List Bool) (ho : HeaderOpen nodes)
    (hc : nodes.length ≤ Config.nodeCap) :
    (∃ (t : Tree) (rest : List Bool), headerBits nodes ++ more = t.serialize ++ rest ∧
      (∀ sym ∈ t.symbols, sym.toNat ≤ Config.pseudoEof) ∧ t.leaves ≤ 257) ∨
    ∃ (nodes' : List (Option Sym)) (rest : List Bool), HeaderOpen nodes' ∧
      headerBits nodes ++ more = headerBits nodes' ++ rest ∧
      (((rest = [] ∨ (rest.head? = some true ∧ rest.length < 10)) ∧
          nodes'.length + min 1 rest.length ≤ Config.nodeCap) ∨
        (nodes'.length = Config.nodeCap ∧ rest ≠ []) ∨
        (nodes'.length < Config.nodeCap ∧ ∃ (v : Sym) (behind : List Bool),
          rest = true :: binOf 9 v.toNat ++ behind ∧ Config.pseudoEof < v.toNat)) := by
  have hcap : Config.nodeCap = 513 := rfl
  induction h : more.length using Nat.strong_induction_on generalizing nodes more with
  | _ n ih =>
    subst h
    by_cases hfull : nodes.length = Config.nodeCap
    · cases more with
      | nil => exact .inr ⟨nodes, [], ho, rfl, .inl ⟨.inl rfl, by simpa using hc⟩⟩
      | cons b more => exact .inr ⟨nodes, b :: more, ho, rfl, .inr (.inl ⟨hfull, by simp⟩)⟩
    · have hlt : nodes.length < Config.nodeCap := by omega
      match more with
      | [] => exact .inr ⟨nodes, [], ho, rfl, .inl ⟨.inl rfl, by simpa using hc⟩⟩
      | false :: more =>
        have e : headerBits nodes ++ false :: more = headerBits (nodes ++ [none]) ++ more := by
          simp [headerBits]
        rw [e]
        refine ih more.length (by simp) (nodes ++ [none]) more ⟨?_, ?_⟩ (by simp; omega) rfl
        · obtain ⟨k, hk⟩ : ∃ k, subtreesLeft 1 nodes = k + 1 := ⟨_, (Nat.succ_pred_eq_of_pos ho.1).symm⟩
          rw [subtreesLeft_append, hk]; simp [subtreesLeft]
        · simpa [leafValues] using ho.2
      | true :: more =>
        by_cases h9 : more.length < 9
        · refine .inr ⟨nodes, true :: more, ho, rfl, .inl ⟨.inr ⟨rfl, by simp; omega⟩, ?_⟩⟩
          have : min 1 (true :: more).length ≤ 1 := Nat.min_le_left _ _
          omega
        · have hlen : (more.take 9).length = 9 := by simp; omega
          obtain ⟨v, hv⟩ : ∃ v : Sym, binOf 9 v.toNat = more.take 9 := by
            refine ⟨BitVec.ofNat 9 (natOfBits (more.take 9)), ?_⟩
            have h1 := natOfBits_lt (more.take 9)
            have h2 := binOf_natOfBits (more.take 9)
            rw [hlen] at h1 h2
            rw [BitVec.toNat_ofNat, Nat.mod_eq_of_lt h1, h2]
          have hm : true :: more = true :: binOf 9 v.toNat ++ more.drop 9 := by
            rw [hv, List.cons_append, List.take_append_drop]
          by_cases hb : Config.pseudoEof < v.toNat
          · exact .inr ⟨nodes, true :: more, ho, rfl, .inr (.inr ⟨hlt, v, _, hm, hb⟩)⟩
          · have e : headerBits nodes ++ true :: more = headerBits (nodes ++ [some v]) ++ more.drop 9 := by
              rw [hm]; simp [headerBits]
            have hs : ∀ u ∈ leafValues (nodes ++ [some v]), u.toNat ≤ Config.pseudoEof := by
              intro u hu
              simp only [leafValues_append, List.mem_append] at hu
              rcases hu with hu | hu
              · exact ho.2 u hu
              · simp [leafValues] at hu; subst hu; omega
            rw [e]
            rcases open_snoc ho.1 (some v) with h1 | ⟨t, ht⟩
            · exact ih (more.drop 9).length (by simp) (nodes ++ [some v]) (more.drop 9) ⟨h1, hs⟩
                (by simp; omega) rfl
            · have hl := t.nodes_leaves
              have hn := t.preorder_length
              rw [← ht, List.length_append, List.length_singleton] at hn
              refine .inl ⟨t, more.drop 9, by rw [ht, Tree.headerBits_preorder], ?_, by omega⟩
              rw [← Tree.leafValues_preorder, ← ht]; exact hs

end Sys2Proof.Machine
end

