-- ==== Sys2Proof/Laws/KeepsSink.lean ====
section
/-! SUPPORT. Every body keeps the sink port's view of OUT (10_state R40, 20_memory R47, R48). -/

namespace Sys2Proof.Machine

/-- An open sink whose port has been given the whole bytes of OUT. -/
def SinkOpen (s : State) : Prop := SinkOk s ∧ s.status.sinkClosed = false

theorem sinkOpen_of_eq {s u : State} (h : SinkOpen s) (hs : u.sink = s.sink)
    (hc : u.status.sinkClosed = s.status.sinkClosed) : SinkOpen u := by
  unfold SinkOpen SinkOk at *; rw [hs, hc]; exact h

theorem sinkOk_of_eq {s u : State} (h : SinkOk s) (hs : u.sink = s.sink)
    (hc : u.status.sinkClosed = s.status.sinkClosed) : SinkOk u := by
  unfold SinkOk at *; rw [hs, hc]; exact h

theorem sinkOpen_append {s u : State} (h : SinkOpen s) {bits : List Bool} (hs : u.sink = s.sink.append bits)
    (hc : u.status.sinkClosed = s.status.sinkClosed) : SinkOpen u := by
  obtain ⟨⟨⟨earlier, he⟩, _⟩, ho⟩ := h
  obtain ⟨new, h1, h2⟩ := Sink.append_port s.sink bits
  rw [ho] at he hc
  refine ⟨⟨⟨earlier, ?_⟩, ?_⟩, hc⟩
  · rw [hs, hc, Sink.append_out, h1, he, h2]; simp
  · rw [hc]; simp

/-- FLUSH on an open sink leaves it closed on a byte boundary (20_memory R48). -/
theorem sinkOk_flush {s : State} (h : SinkOk s) : SinkOk s.sinkFlush := by
  unfold State.sinkFlush
  split
  · exact h
  · next ho =>
    have ho : s.status.sinkClosed = false := by simpa using ho
    obtain ⟨⟨earlier, he⟩, _⟩ := h
    obtain ⟨new, h1, h2⟩ := Sink.append_port s.sink (List.replicate s.sink.padLength false)
    rw [ho] at he
    refine ⟨⟨earlier, ?_⟩, fun _ => Sink.close_length _⟩
    show (Sink.close s.sink).port = _
    rw [Sink.close_out, Sink.close]
    simp only [h1, he, h2, if_true]
    simp

theorem sinkOpen_count : Keeps SinkOpen countBody := by
  intro s u h h'; obtain ⟨_, _, _, _, rfl⟩ := countBody_shape h'
  exact sinkOpen_of_eq h rfl rfl

theorem sinkOpen_build : Keeps SinkOpen buildBody := by
  intro s u h h'; obtain rfl | ⟨_, _, _, rfl⟩ := buildBody_shape h'
  · exact h
  · exact sinkOpen_of_eq h rfl rfl

theorem sinkOpen_gencodes : Keeps SinkOpen gencodesBody := by
  intro s u h h'; obtain ⟨_, _, rfl⟩ := gencodesBody_shape h'
  exact sinkOpen_of_eq h rfl rfl

theorem sinkOpen_writeMagic : Keeps SinkOpen writeMagicBody := by
  intro s u h h'
  obtain ⟨bits, rfl⟩ : ∃ bits, u = { s with sink := s.sink.append bits } := ⟨_, writeMagicBody_shape h'⟩
  exact sinkOpen_append h rfl rfl

theorem sinkOpen_writeTree : Keeps SinkOpen writeTreeBody := by
  intro s u h h'; obtain ⟨_, _, _, rfl⟩ := writeTreeBody_shape h'
  exact sinkOpen_append h rfl rfl

theorem sinkOpen_readMagic : Keeps SinkOpen readMagicBody := by
  intro s u h h'; obtain ⟨_, _, _, rfl⟩ := readMagicBody_shape h'
  exact sinkOpen_of_eq h rfl rfl

theorem sinkOpen_readTree : Keeps SinkOpen readTreeBody := by
  intro s u h h'; obtain ⟨_, _, _, _, _, _, _, rfl⟩ := readTreeBody_shape h'
  exact sinkOpen_of_eq h rfl rfl

theorem sinkOpen_encSym (k : Nat) : Keeps SinkOpen (encSymBody k) := by
  intro s u h h'; obtain ⟨_, rfl⟩ := encSymBody_shape h'
  exact sinkOpen_append h rfl rfl

theorem sinkOpen_encode : Keeps SinkOpen encodeBody := by
  intro s u h h'; obtain ⟨_, _, _, rfl⟩ := encodeBody_shape h'
  exact sinkOpen_append h rfl rfl

theorem sinkOpen_decSym : Keeps SinkOpen decSymBody := by
  intro s u h h'; obtain ⟨_, _, _, _, _, _, rfl⟩ := decSymBody_shape h'
  exact sinkOpen_append h rfl rfl

theorem sinkOpen_decode : Keeps SinkOpen decodeBody := by
  intro s u h h'; obtain ⟨_, _, _, _, _, _, rfl⟩ := decodeBody_shape h'
  exact sinkOpen_append h rfl rfl

/-- Each body keeps the sink consistent, the writing ones because their precondition is an open sink (40_control R81). -/
theorem sinkOk_body (i : Instr) {s u : State} (hp : pre i s.status = true) (hs : SinkOk s) (h : (bodyOf i s).Ends u) :
    SinkOk u := by
  rw [pre_iff] at hp
  cases i with
  | nop => rw [bodyOf, nopBody, Run.ends_ok] at h; subst h; exact hs
  | clear =>
    obtain rfl := clearBody_shape h
    exact ⟨⟨s.sink.port, by simp [leaveError, clearDatapath, Sink.reopen, Status.cleared, wholeBytes]⟩,
      by simp [leaveError, clearDatapath, Status.cleared]⟩
  | count => obtain ⟨_, _, _, _, rfl⟩ := countBody_shape h; exact sinkOk_of_eq hs rfl rfl
  | build =>
    obtain rfl | ⟨_, _, _, rfl⟩ := buildBody_shape h
    · exact hs
    · exact sinkOk_of_eq hs rfl rfl
  | gencodes => obtain ⟨_, _, rfl⟩ := gencodesBody_shape h; exact sinkOk_of_eq hs rfl rfl
  | writeMagic => exact (sinkOpen_writeMagic s u ⟨hs, hp⟩ h).1
  | writeTree => exact (sinkOpen_writeTree s u ⟨hs, hp.2⟩ h).1
  | readMagic => obtain ⟨_, _, _, rfl⟩ := readMagicBody_shape h; exact sinkOk_of_eq hs rfl rfl
  | readTree => obtain ⟨_, _, _, _, _, _, _, rfl⟩ := readTreeBody_shape h; exact sinkOk_of_eq hs rfl rfl
  | encSym sym => exact (sinkOpen_encSym _ s u ⟨hs, hp.2⟩ h).1
  | encode => exact (sinkOpen_encode s u ⟨hs, hp.2⟩ h).1
  | flush => obtain rfl := flushBody_shape h; exact sinkOk_flush hs
  | decSym => exact (sinkOpen_decSym s u ⟨hs, hp.2⟩ h).1
  | decode => exact (sinkOpen_decode s u ⟨hs, hp.2⟩ h).1
  | compress =>
    exact compressBody_keeps sinkOpen_count sinkOpen_build sinkOpen_gencodes sinkOpen_writeMagic sinkOpen_writeTree
      sinkOpen_encode (fun _ h => sinkOk_flush h.1) ⟨hs, hp⟩ h
  | decompress =>
    exact decompressBody_keeps (fun s h => sinkOpen_of_eq h rfl rfl) sinkOpen_readMagic sinkOpen_readTree sinkOpen_decode
      (fun _ h => sinkOk_flush h.1) ⟨hs, hp⟩ h

end Sys2Proof.Machine
end

