-- ==== Sys2Proof/Laws/KeepsSource.lean ====
section
/-! SUPPORT. Every body keeps RP within the source (10_state R39, 20_memory R43). -/

namespace Sys2Proof.Machine

theorem sourceOk_moved {s u : State} (h : SourceOk s) (hm : s.source.MovedOn u.source) : SourceOk u := by
  obtain ⟨h1, h2, h3⟩ := h
  obtain ⟨m1, m2, m3⟩ := hm
  refine ⟨?_, by rw [m1]; exact h2, by rw [m2]; exact h3⟩
  have := (m3 h1).2
  simpa [Source.size, m1] using this

theorem sourceOk_rewind {s u : State} (h : SourceOk s) (hu : u.source = s.source.rewind) : SourceOk u := by
  obtain ⟨h1, h2, h3⟩ := h
  unfold Source.rewind at hu
  split at hu
  · next hl => rw [SourceOk, hu]; exact ⟨Nat.zero_le _, h2, h3⟩
  · next b l hl =>
    rw [hl] at h3
    simp only [List.all_cons, Bool.and_eq_true] at h3
    rw [SourceOk, hu]; exact ⟨Nat.zero_le _, h3.1, h3.2⟩

theorem sourceOk_count : Keeps SourceOk countBody := by
  intro s u h h'; obtain ⟨_, src, hm, _, rfl⟩ := countBody_shape h'
  exact sourceOk_moved (s := { s with source := s.source.rewind }) (sourceOk_rewind h rfl) hm

theorem sourceOk_encode : Keeps SourceOk encodeBody := by
  intro s u h h'; obtain ⟨src, _, hm, rfl⟩ := encodeBody_shape h'
  exact sourceOk_moved (s := { s with source := s.source.rewind }) (sourceOk_rewind h rfl) hm

theorem sourceOk_of_eq {s u : State} (h : SourceOk s) (hu : u.source = s.source) : SourceOk u := by
  rw [SourceOk, hu]; exact h

theorem sourceOk_build : Keeps SourceOk buildBody := by
  intro s u h h'; obtain rfl | ⟨_, _, _, rfl⟩ := buildBody_shape h' <;> exact h

theorem sourceOk_gencodes : Keeps SourceOk gencodesBody := by
  intro s u h h'; obtain ⟨_, _, rfl⟩ := gencodesBody_shape h'
  exact h

theorem sourceOk_writeMagic : Keeps SourceOk writeMagicBody := by
  intro s u h h'; obtain rfl := writeMagicBody_shape h'
  exact sourceOk_of_eq h rfl

theorem sourceOk_writeTree : Keeps SourceOk writeTreeBody := by
  intro s u h h'; obtain ⟨_, _, _, rfl⟩ := writeTreeBody_shape h'
  exact h

theorem sourceOk_readMagic : Keeps SourceOk readMagicBody := by
  intro s u h h'; obtain ⟨_, _, hm, rfl⟩ := readMagicBody_shape h'
  exact sourceOk_moved h hm

theorem sourceOk_readTree : Keeps SourceOk readTreeBody := by
  intro s u h h'; obtain ⟨_, _, _, hm, _, _, _, rfl⟩ := readTreeBody_shape h'
  exact sourceOk_moved h hm

theorem sourceOk_decode : Keeps SourceOk decodeBody := by
  intro s u h h'; obtain ⟨_, _, _, _, hm, _, rfl⟩ := decodeBody_shape h'
  exact sourceOk_moved h hm

theorem sourceOk_flush (s : State) (h : SourceOk s) : SourceOk s.sinkFlush := by
  unfold State.sinkFlush; split <;> exact h

theorem sourceOk_body (i : Instr) : Keeps SourceOk (bodyOf i) := by
  intro s u hs h
  cases i with
  | nop => rw [bodyOf, nopBody, Run.ends_ok] at h; subst h; exact hs
  | clear => obtain rfl := clearBody_shape h; exact sourceOk_rewind hs rfl
  | count => exact sourceOk_count s u hs h
  | build => exact sourceOk_build s u hs h
  | gencodes => exact sourceOk_gencodes s u hs h
  | writeMagic => exact sourceOk_writeMagic s u hs h
  | writeTree => exact sourceOk_writeTree s u hs h
  | readMagic => exact sourceOk_readMagic s u hs h
  | readTree => exact sourceOk_readTree s u hs h
  | encSym sym => obtain ⟨_, rfl⟩ := encSymBody_shape h; exact hs
  | encode => exact sourceOk_encode s u hs h
  | flush => obtain rfl := flushBody_shape h; exact sourceOk_flush s hs
  | decSym => obtain ⟨_, _, _, _, hm, _, rfl⟩ := decSymBody_shape h; exact sourceOk_moved hs hm
  | decode => exact sourceOk_decode s u hs h
  | compress =>
    exact compressBody_keeps sourceOk_count sourceOk_build sourceOk_gencodes sourceOk_writeMagic sourceOk_writeTree
      sourceOk_encode sourceOk_flush hs h
  | decompress =>
    exact decompressBody_keeps (fun s h => sourceOk_rewind h rfl) sourceOk_readMagic sourceOk_readTree sourceOk_decode
      sourceOk_flush hs h

end Sys2Proof.Machine
end

