-- ==== Sys2Proof/Laws/Ports.lean ====
section
/-! SUPPORT. What the sink port sees: a command gives it bytes and at most one close, after them, and what an executing
command will give it does not depend on the moves the host makes meanwhile (20_memory R61, R63). -/

namespace Sys2Proof.Machine

/-! ## Growth of the port -/

theorem wholeBytes_bytes (bits : List Bool) : ∀ e ∈ wholeBytes bits, e ≠ .close := by
  induction hn : bits.length / 8 generalizing bits with
  | zero => rw [wholeBytes_short (by omega)]; simp
  | succ n ih =>
    have h8 : (bits.take 8).length = 8 := by simp; omega
    rw [← List.take_append_drop 8 bits, wholeBytes_eight h8]
    intro e he
    rcases List.mem_cons.mp he with rfl | he
    · simp
    · exact ih (bits.drop 8) (by simp; omega) e he

/-- The port was given bytes only. -/
def PortBytes (s u : State) : Prop := ∃ bs, (∀ e ∈ bs, e ≠ PortEvent.close) ∧ u.sink.port = s.sink.port ++ bs

/-- The port was given bytes, then at most one close. -/
def PortGrown (s u : State) : Prop :=
  ∃ bs tail, (∀ e ∈ bs, e ≠ PortEvent.close) ∧ (tail = [] ∨ tail = [.close]) ∧ u.sink.port = s.sink.port ++ (bs ++ tail)

theorem Sink.append_portBytes (snk : Sink) (bits : List Bool) :
    ∃ bs, (∀ e ∈ bs, e ≠ PortEvent.close) ∧ (snk.append bits).port = snk.port ++ bs := by
  obtain ⟨new, h1, h2⟩ := Sink.append_port snk bits
  refine ⟨new, fun e he => wholeBytes_bytes (snk.out ++ bits) e ?_, h1⟩
  rw [h2]; exact List.mem_append_right _ he

theorem portBytes_append {s u v : State} (h : PortBytes s u) {bits : List Bool} (hv : v.sink = u.sink.append bits) :
    PortBytes s v := by
  obtain ⟨bs, h1, h2⟩ := h
  obtain ⟨bs', h3, h4⟩ := Sink.append_portBytes u.sink bits
  refine ⟨bs ++ bs', ?_, by rw [hv, h4, h2, List.append_assoc]⟩
  intro e he
  rcases List.mem_append.mp he with he | he
  · exact h1 e he
  · exact h3 e he

theorem portBytes_of_eq {s u v : State} (h : PortBytes s u) (hv : v.sink = u.sink) : PortBytes s v := by
  unfold PortBytes at *; rw [hv]; exact h

theorem portGrown_flush {s u : State} (h : PortBytes s u) : PortGrown s u.sinkFlush := by
  unfold State.sinkFlush
  split
  · obtain ⟨bs, h1, h2⟩ := h; exact ⟨bs, [], h1, .inl rfl, by simp [h2]⟩
  · obtain ⟨bs, h1, h2⟩ := h
    obtain ⟨bs', h3, h4⟩ := Sink.append_portBytes u.sink (List.replicate u.sink.padLength false)
    refine ⟨bs ++ bs', [.close], ?_, .inr rfl, ?_⟩
    · intro e he
      rcases List.mem_append.mp he with he | he
      · exact h1 e he
      · exact h3 e he
    · simp [Sink.close, h4, h2]

theorem PortBytes.grown {s u : State} (h : PortBytes s u) : PortGrown s u := by
  obtain ⟨bs, h1, h2⟩ := h; exact ⟨bs, [], h1, .inl rfl, by simp [h2]⟩

theorem portBytes_refl (s : State) : PortBytes s s := ⟨[], by simp, by simp⟩

theorem port_count (s : State) : Keeps (PortBytes s) countBody := by
  intro u v h h'; obtain ⟨_, _, _, _, rfl⟩ := countBody_shape h'; exact portBytes_of_eq h rfl

theorem port_build (s : State) : Keeps (PortBytes s) buildBody := by
  intro u v h h'; obtain rfl | ⟨_, _, _, rfl⟩ := buildBody_shape h'
  · exact h
  · exact portBytes_of_eq h rfl

theorem port_gencodes (s : State) : Keeps (PortBytes s) gencodesBody := by
  intro u v h h'; obtain ⟨_, _, rfl⟩ := gencodesBody_shape h'; exact portBytes_of_eq h rfl

theorem port_writeMagic (s : State) : Keeps (PortBytes s) writeMagicBody := by
  intro u v h h'
  obtain ⟨bits, rfl⟩ : ∃ bits, v = { u with sink := u.sink.append bits } := ⟨_, writeMagicBody_shape h'⟩
  exact portBytes_append h rfl

theorem port_writeTree (s : State) : Keeps (PortBytes s) writeTreeBody := by
  intro u v h h'; obtain ⟨_, _, _, rfl⟩ := writeTreeBody_shape h'; exact portBytes_append h rfl

theorem port_readMagic (s : State) : Keeps (PortBytes s) readMagicBody := by
  intro u v h h'; obtain ⟨_, _, _, rfl⟩ := readMagicBody_shape h'; exact portBytes_of_eq h rfl

theorem port_readTree (s : State) : Keeps (PortBytes s) readTreeBody := by
  intro u v h h'; obtain ⟨_, _, _, _, _, _, _, rfl⟩ := readTreeBody_shape h'; exact portBytes_of_eq h rfl

theorem port_encode (s : State) : Keeps (PortBytes s) encodeBody := by
  intro u v h h'; obtain ⟨_, _, _, rfl⟩ := encodeBody_shape h'; exact portBytes_append h rfl

theorem port_decode (s : State) : Keeps (PortBytes s) decodeBody := by
  intro u v h h'; obtain ⟨_, _, _, _, _, _, rfl⟩ := decodeBody_shape h'; exact portBytes_append h rfl

/-- A body only adds to the port: bytes, then at most one close. -/
theorem bodyOf_port {i : Instr} {s u : State} (h : (bodyOf i s).Ends u) : PortGrown s u := by
  have self := portBytes_refl s
  cases i with
  | nop => rw [bodyOf, nopBody, Run.ends_ok] at h; subst h; exact self.grown
  | clear => obtain rfl := clearBody_shape h; exact self.grown
  | count => exact (port_count s s u self h).grown
  | build => exact (port_build s s u self h).grown
  | gencodes => exact (port_gencodes s s u self h).grown
  | writeMagic => exact (port_writeMagic s s u self h).grown
  | writeTree => exact (port_writeTree s s u self h).grown
  | readMagic => exact (port_readMagic s s u self h).grown
  | readTree => exact (port_readTree s s u self h).grown
  | encSym sym => obtain ⟨_, rfl⟩ := encSymBody_shape h; exact (portBytes_append self rfl).grown
  | encode => exact (port_encode s s u self h).grown
  | flush => obtain rfl := flushBody_shape h; exact portGrown_flush self
  | decSym => obtain ⟨_, _, _, _, _, _, rfl⟩ := decSymBody_shape h; exact (portBytes_append self rfl).grown
  | decode => exact (port_decode s s u self h).grown
  | compress =>
    exact compressBody_keeps (port_count s) (port_build s) (port_gencodes s) (port_writeMagic s) (port_writeTree s)
      (port_encode s) (fun _ => portGrown_flush) self h
  | decompress =>
    exact decompressBody_keeps (fun _ h => portBytes_of_eq h rfl) (port_readMagic s) (port_readTree s) (port_decode s)
      (fun _ => portGrown_flush) self h

theorem exec_port {i : Instr} {s t : State} (h : exec i s = .next t) : PortGrown s t :=
  exec_keeps (P := PortGrown s) h (portBytes_refl s).grown (fun _ _ h => bodyOf_port h) (fun _ h => h) (fun _ _ h => h)

/-! ## What does not matter to a command -/

/-- What no body reads or writes: the fields around a command's own state. -/
structure Around where
  seq : Sequencer
  ctrl : Ctrl
  irq : IrqStatus
  host : List HostAction
  reply : Reply
  taken : Nat
  sinkFrom : Nat
  draws : Nat
  done : Bool
  cmdDropped : Bool

def State.around (s : State) : Around :=
  ⟨s.seq, s.ctrl, s.irq, s.host, s.reply, s.taken, s.sinkFrom, s.draws, s.status.done, s.status.cmdDropped⟩

/-- The state with other fields around it. -/
def State.dress (s : State) (a : Around) : State :=
  { s with
    seq := a.seq
    ctrl := a.ctrl
    irq := a.irq
    host := a.host
    reply := a.reply
    taken := a.taken
    sinkFrom := a.sinkFrom
    draws := a.draws
    status := { s.status with done := a.done, cmdDropped := a.cmdDropped } }

@[simp] theorem State.dress_around (s : State) : s.dress s.around = s := rfl

@[simp] theorem State.dress_dress (s : State) (a b : Around) : (s.dress a).dress b = s.dress b := rfl

/-- The state with what the host can change while a command executes blanked. -/
def State.veil (s : State) : State :=
  s.dress ⟨s.seq, ⟨false, false⟩, ⟨false, false⟩, [], .none, 0, 0, 0, s.status.done, false⟩

def Run.map (f : State → State) : Run → Run
  | .ok s => .ok (f s)
  | .raise e s => .raise e (f s)
  | .diverge => .diverge

/-- The body does the same whatever stands around it. -/
def Blind (body : State → Run) : Prop := ∀ s a, body (s.dress a) = (body s).map (·.dress a)

theorem Blind.andThen {f g : State → Run} (hf : Blind f) (hg : Blind g) : Blind (fun s => (f s).andThen g) := by
  intro s a
  simp only [hf s a]
  cases f s with
  | ok t => exact hg t a
  | raise e t => rfl
  | diverge => rfl

theorem dress_sinkFlush (s : State) (a : Around) : (s.dress a).sinkFlush = s.sinkFlush.dress a := by
  have h : (s.dress a).status.sinkClosed = s.status.sinkClosed := rfl
  by_cases hc : s.status.sinkClosed = true
  · simp only [State.sinkFlush, h, hc, if_true]
  · simp only [State.sinkFlush, h, hc]; rfl

theorem Blind.flushOnRaise {f : State → Run} (hf : Blind f) : Blind (fun s => (f s).flushOnRaise) := by
  intro s a
  simp only [hf s a]
  cases f s with
  | ok t => rfl
  | raise e t => simp only [Run.map, Run.flushOnRaise_raise, dress_sinkFlush]
  | diverge => rfl

theorem blind_count : Blind countBody := by
  intro s a
  show (match countLoop (s.source.rewind.bytes.length + 1) [] s.source.rewind with
    | (some v, freq, src) => _
    | (none, freq, src) => _) = Run.map _ (match countLoop (s.source.rewind.bytes.length + 1) [] s.source.rewind with
    | (some v, freq, src) => _
    | (none, freq, src) => _)
  generalize countLoop (s.source.rewind.bytes.length + 1) [] s.source.rewind = x
  obtain ⟨v, freq, src⟩ := x
  cases v <;> rfl

theorem blind_build : Blind buildBody := by
  intro s a
  have hf : (s.dress a).freq = s.freq := rfl
  by_cases h : freqAt s.freq Config.pseudoEof = 0#32
  · simp only [buildBody, hf, h, if_true]; rfl
  · simp only [buildBody, hf, h, if_false]; rfl

theorem dress_tree (s : State) (a : Around) : (s.dress a).tree = s.tree := rfl

theorem blind_gencodes : Blind gencodesBody := by
  intro s a
  simp only [gencodesBody, dress_tree]
  cases s.tree <;> rfl

theorem dress_withSink (s : State) (a : Around) (snk : Sink) :
    ({ (s.dress a) with sink := snk } : State) = ({ s with sink := snk } : State).dress a := rfl

theorem dress_withHeader (s : State) (a : Around) (snk : Sink) (hdr : Word) :
    ({ (s.dress a) with sink := snk, hdrBits := hdr } : State) = ({ s with sink := snk, hdrBits := hdr } : State).dress a := rfl

theorem blind_writeMagic : Blind writeMagicBody := by
  intro s a
  exact congrArg Run.ok (dress_withSink s a (s.sink.writeBits 32 s.magic.toNat))

theorem blind_writeTree : Blind writeTreeBody := by
  intro s a
  simp only [writeTreeBody, dress_tree]
  cases s.tree with
  | none => rfl
  | some t => exact congrArg Run.ok (dress_withHeader s a (s.sink.append t.serialize) _)

theorem blind_readMagic : Blind readMagicBody := by
  intro s a
  have hs : (s.dress a).source = s.source := rfl
  have hm : (s.dress a).magic = s.magic := rfl
  simp only [readMagicBody, hs, hm]
  generalize s.source.readBits 32 = x
  obtain ⟨v, src⟩ := x
  cases v with
  | none => rfl
  | some v => simp only; split <;> rfl

theorem blind_readTree : Blind readTreeBody := by
  intro s a
  have hs : (s.dress a).source = s.source := rfl
  simp only [readTreeBody, hs]
  generalize parse 514 ⟨s.source, [], 0, 0⟩ = x
  obtain ⟨r, p⟩ := x
  have hc : commitParse (s.dress a) p = (commitParse s p).dress a := rfl
  have hn : (commitParse (s.dress a) p).node = (commitParse s p).node := rfl
  cases r with
  | error e => simp only [hc]; rfl
  | ok i =>
    simp only [hn]
    by_cases hl : ((commitParse s p).node 0).leaf = true
    · simp only [hl, if_true, hc]; rfl
    · simp only [hl]; rfl

theorem blind_encSym (k : Nat) : Blind (encSymBody k) := by
  intro s a
  have hc : (s.dress a).code = s.code := rfl
  have hk : (s.dress a).sink = s.sink := rfl
  simp only [encSymBody, hc, hk]
  cases encSymTo s.code k s.sink <;> rfl

theorem blind_encode : Blind encodeBody := by
  intro s a
  have hs : (s.dress a).source = s.source := rfl
  have hc : (s.dress a).code = s.code := rfl
  have hk : (s.dress a).sink = s.sink := rfl
  simp only [encodeBody, hs, hc, hk]
  generalize encodeLoop s.code (s.source.rewind.bytes.length + 1) s.source.rewind s.sink = x
  obtain ⟨v, src, snk⟩ := x
  cases v with
  | none => exact blind_encSym 256 { s with source := src, sink := snk } a
  | some v => rfl

theorem blind_flush : Blind flushBody := by
  intro s a; simp only [flushBody, dress_sinkFlush]; rfl

theorem dress_walkSym (s : State) (a : Around) : (s.dress a).walkSym = (s.walkSym.1, s.walkSym.2.dress a) := by
  have h : walk (s.dress a).node (s.dress a).source.turns (s.dress a).root.toNat (s.dress a).source =
      walk s.node s.source.turns s.root.toNat s.source := rfl
  simp only [State.walkSym, h]
  generalize walk s.node s.source.turns s.root.toNat s.source = x
  obtain ⟨v, src⟩ := x
  cases v <;> rfl

theorem dress_emitByte (s : State) (a : Around) (sym : Sym) : (s.dress a).emitByte sym = (s.emitByte sym).dress a := by
  exact dress_withSink s a (s.sink.writeBits 8 sym.toNat)

theorem blind_decodeLoop (turns : Nat) : Blind (decodeLoop turns) := by
  induction turns with
  | zero => intro s a; rfl
  | succ turns ih =>
    intro s a
    rw [decodeLoop, decodeLoop, dress_walkSym]
    generalize s.walkSym = x
    obtain ⟨v, t⟩ := x
    cases v with
    | none => rfl
    | some sym =>
      simp only
      by_cases h : symAddr sym = Config.pseudoEof
      · simp only [h, if_true]; rfl
      · simp only [h, if_false]
        rw [dress_emitByte, ih]

theorem blind_decode : Blind decodeBody := by
  intro s a; exact blind_decodeLoop _ { s with status := { s.status with eofSeen := false } } a

theorem blind_decSym : Blind decSymBody := by
  intro s a
  have h : ({ (s.dress a) with status := { (s.dress a).status with eofSeen := false } } : State) =
      ({ s with status := { s.status with eofSeen := false } } : State).dress a := rfl
  simp only [decSymBody, h, dress_walkSym]
  generalize ({ s with status := { s.status with eofSeen := false } } : State).walkSym = x
  obtain ⟨v, t⟩ := x
  cases v with
  | none => rfl
  | some sym =>
    simp only
    by_cases h : symAddr sym = Config.pseudoEof
    · simp only [h, if_true]; rfl
    · simp only [h, if_false, dress_emitByte]; rfl

theorem blind_body (i : Instr) : Blind (bodyOf i) := by
  cases i with
  | nop => intro s a; rfl
  | clear => intro s a; rfl
  | count => exact blind_count
  | build => exact blind_build
  | gencodes => exact blind_gencodes
  | writeMagic => exact blind_writeMagic
  | writeTree => exact blind_writeTree
  | readMagic => exact blind_readMagic
  | readTree => exact blind_readTree
  | encSym sym => exact blind_encSym _
  | encode => exact blind_encode
  | flush => exact blind_flush
  | decSym => exact blind_decSym
  | decode => exact blind_decode
  | compress =>
    exact (((((((blind_count).andThen blind_build).andThen blind_gencodes).andThen blind_writeMagic).andThen
      blind_writeTree).andThen blind_encode).andThen blind_flush).flushOnRaise
  | decompress =>
    intro s a
    exact ((((blind_readMagic).andThen blind_readTree).andThen blind_decode).andThen blind_flush).flushOnRaise
      (decompressStart s) a

theorem pre_dress (i : Instr) (s : State) (a : Around) : pre i (s.dress a).status = pre i s.status := by cases i <;> rfl

/-- What a command gives the port does not depend on what is blanked. -/
theorem runCommand_veil (v : Word) (s : State) :
    (∃ t u, runCommand v s = .next t ∧ runCommand v s.veil = .next u ∧ u.sink = t.sink) ∨
    ((∃ f, runCommand v s = .fault f) ∧ ∃ f, runCommand v s.veil = .fault f) := by
  unfold runCommand
  cases decode v with
  | error e => exact .inl ⟨_, _, rfl, rfl, rfl⟩
  | ok i =>
    simp only [exec_eq, execute, State.veil, pre_dress, blind_body i s]
    split
    · split
      · cases bodyOf i s with
        | ok u => exact .inl ⟨_, _, rfl, rfl, rfl⟩
        | raise e u => exact .inl ⟨_, _, rfl, rfl, rfl⟩
        | diverge => exact .inr ⟨⟨_, rfl⟩, ⟨_, rfl⟩⟩
      · exact .inl ⟨_, _, rfl, rfl, rfl⟩
    · exact .inl ⟨_, _, rfl, rfl, rfl⟩

theorem pendingBytes_veil (s : State) : pendingBytes s.veil = pendingBytes s := by
  unfold pendingBytes
  have h : s.veil.seq = s.seq := rfl
  rw [h]
  split
  · rfl
  · rfl
  · next v _ =>
    rcases runCommand_veil v s with ⟨t, u, h1, h2, h3⟩ | ⟨⟨f, h1⟩, ⟨g, h2⟩⟩
    · rw [h1, h2]; simp only [h3]; rfl
    · rw [h1, h2]

/-- States that differ in what is blanked only have the same bytes pending. -/
theorem pendingBytes_congr {s t : State} (h : t.veil = s.veil) : pendingBytes t = pendingBytes s := by
  rw [← pendingBytes_veil t, h, pendingBytes_veil]

/-- The bytes pending are the first that the command gives the port. -/
theorem pendingBytes_prefix {s t : State} {v : Word} (hs : s.seq = .exec v) (h : runCommand v s = .next t) :
    ∃ rest, t.sink.port = s.sink.port ++ (pendingBytes s ++ rest) := by
  have hg : PortGrown s t := by
    unfold runCommand at h
    cases hd : decode v with
    | ok i => rw [hd] at h; exact exec_port h
    | error e => rw [hd] at h; cases h; exact ⟨[], [], by simp, .inl rfl, by simp [raiseError]⟩
  obtain ⟨bs, tail, h1, h2, h3⟩ := hg
  refine ⟨tail, ?_⟩
  have hp : pendingBytes s = bs := by
    unfold pendingBytes
    rw [hs]
    simp only [h, h3, List.drop_left, bytesOf, List.filter_append]
    have e1 : bs.filter (fun e => e != .close) = bs := List.filter_eq_self.mpr (fun e he => by simpa using h1 e he)
    rcases h2 with rfl | rfl
    · simp [e1]
    · simp [e1]
  rw [hp, h3]

theorem pendingBytes_idle {s : State} (h : s.seq = .idle) : pendingBytes s = [] := by simp [pendingBytes, h]

theorem portSeen_of_veil {s t : State} (h : t.veil = s.veil) (ht : s.taken ≤ t.taken) : portSeen s <+: portSeen t := by
  have hk : t.sink = s.sink := by have := congrArg State.sink h; exact this
  unfold portSeen
  rw [pendingBytes_congr h, hk]
  exact (List.prefix_append_right_inj _).mpr (List.take_prefix_take_left ht)

/-! ## Time passing and binding a sink -/

theorem pendingBytes_letTimePass (s : State) : pendingBytes (letTimePass s) = pendingBytes s := by
  refine pendingBytes_congr ?_
  unfold letTimePass; split <;> rfl

theorem taken_letTimePass (s : State) : s.taken ≤ (letTimePass s).taken := by
  unfold letTimePass; split <;> simp

theorem pendingBytes_noClose (s : State) : PortEvent.close ∉ pendingBytes s := by
  unfold pendingBytes
  split
  · simp
  · simp
  · split <;> simp [bytesOf]

/-- What the port has seen when time has passed: what it saw before, and first bytes of the executing command, at least
those seen taken before (20_memory R63). -/
theorem portSeen_letTimePass (s : State) :
    ∃ new, portSeen (letTimePass s) = s.sink.port ++ new ∧ new <+: pendingBytes s ∧
      (pendingBytes s).take s.taken <+: new ∧ .close ∉ new ∧ (s.busy = false → new = []) := by
  refine ⟨(pendingBytes s).take (letTimePass s).taken, ?_, List.take_prefix _ _,
    List.take_prefix_take_left (taken_letTimePass s), fun h => pendingBytes_noClose s (List.mem_of_mem_take h), ?_⟩
  · rw [portSeen, pendingBytes_letTimePass, letTimePass_sink]
  · intro h
    have : pendingBytes s = [] := by
      cases hs : s.seq <;> simp [State.busy, pendingBytes, hs] at h ⊢
    simp [this]

/-- Binding a sink is no event at the port, and the new sink has seen nothing (70_reset R124). -/
theorem portSeen_bindSink (s : State) : portSeen (bindSink s) = portSeen (letTimePass s) ∧ sinkSeen (bindSink s) = [] := by
  have h : portSeen (bindSink s) = portSeen (letTimePass s) := by
    unfold portSeen
    rw [pendingBytes_congr (s := letTimePass s) (t := bindSink s) rfl]
    rfl
  exact ⟨h, by rw [sinkSeen, h, bindSink_sinkFrom, List.drop_length]⟩

end Sys2Proof.Machine
end

