-- ==== Sys2Proof/Laws/Parts.lean ====
section
/-! SUPPORT. COMPRESS and DECOMPRESS end as their components run in order (47_macro R106, R107). -/

namespace Sys2Proof.Machine

/-! ## Commands in order -/

theorem runInOrder_one (i : Instr) (s : State) : runInOrder [i] s = exec i s := by
  simp only [runInOrder]
  cases exec i s <;> simp

/-- One more command at the end runs where those before ended without an error. -/
theorem runInOrder_snoc {is : List Instr} (hne : is ≠ []) {s t : State} (h : runInOrder is s = .next t) (i : Instr) :
    runInOrder (is ++ [i]) s = if t.status.done then exec i t else .next t := by
  induction is generalizing s with
  | nil => exact absurd rfl hne
  | cons j is ih =>
    rw [List.cons_append]
    rw [runInOrder] at h ⊢
    cases he : exec j s with
    | fault f => rw [he] at h; cases h
    | refused r => rw [he] at h; cases h
    | next u =>
      rw [he] at h
      simp only at h ⊢
      by_cases hd : u.status.done = true
      · rw [if_pos hd] at h ⊢
        cases is with
        | nil => cases h; rw [List.nil_append, runInOrder_one, if_pos hd]
        | cons k is => exact ih (by simp) h
      · rw [if_neg hd] at h ⊢
        cases h
        rw [if_neg hd]

/-! ## A component command and its body -/

theorem SameAround.around_eq {s u : State} (h : SameAround s u) : u.around = s.around := by
  obtain ⟨h1, h2, _, h4, h5, h6, h7, _, h9, h10, h11, h12⟩ := h
  simp only [State.around, h1, h2, h4, h5, h6, h7, h9, h10, h11, h12]

/-- The state between two component commands: the first has completed. -/
def State.between (s : State) (q : IrqStatus) : State := s.dress { s.around with irq := q, seq := .idle, done := true }

theorem complete_between (u : State) : complete u = u.between { u.irq with doneIrq := true } := rfl

theorem raiseError_between (e : Raise) (u : State) : raiseError e u = raiseError e (u.between u.irq) := rfl

/-- A component run between others ends as its body does. -/
theorem exec_between {i : Instr} (hi : i.wellFormed = true) {u : State} (q : IrqStatus) (hp : pre i u.status = true) :
    (∀ v, bodyOf i u = .ok v → ∃ q', exec i (u.between q) = .next (v.between q')) ∧
    (∀ e v, bodyOf i u = .raise e v → exec i (u.between q) = .next (raiseError e (v.between q))) := by
  have hp' : pre i (u.between q).status = true := by rw [State.between, pre_dress]; exact hp
  refine ⟨fun v h => ⟨{ q with doneIrq := true }, ?_⟩, fun e v h => ?_⟩
  · rw [exec_ok hi hp' (u := v.dress { u.around with irq := q, seq := .idle, done := true })
      (by rw [State.between, blind_body, h]; rfl), State.between, (bodyOf_around (.inl h)).1.around_eq]
    rfl
  · rw [exec_raise hi hp' (e := e) (u := v.dress { u.around with irq := q, seq := .idle, done := true })
      (by rw [State.between, blind_body, h]; rfl), State.between, (bodyOf_around (.inr ⟨e, h⟩)).1.around_eq]

/-! ## Component commands and the bodies in a row -/

/-- The commands run from s end as the bodies' run r does, with P of a state in which r ends well, and the sink open. -/
def Tracks (is : List Instr) (s : State) (r : Run) (P : State → Prop) : Prop :=
  (∃ u q, r = .ok u ∧ P u ∧ u.status.sinkClosed = false ∧ runInOrder is s = .next (u.between q)) ∨
  (∃ e u q, r = .raise e u ∧ u.status.sinkClosed = false ∧ runInOrder is s = .next (raiseError e (u.between q)))

/-- A component that leaves the sink open and, where it ends well after P, gives Q. -/
def Component (i : Instr) (P Q : State → Prop) : Prop :=
  i.wellFormed = true ∧ ∀ s, P s → s.status.sinkClosed = false →
    pre i s.status = true ∧ bodyOf i s ≠ .diverge ∧ (∀ u, (bodyOf i s).Ends u → u.status.sinkClosed = false) ∧
    ∀ u, bodyOf i s = .ok u → Q u

theorem tracks_one {i : Instr} {P Q : State → Prop} (hc : Component i P Q) {s : State} (hp : P s)
    (hs : s.status.sinkClosed = false) : Tracks [i] s (bodyOf i s) Q := by
  obtain ⟨h1, h2, h3, h4⟩ := hc.2 s hp hs
  cases hb : bodyOf i s with
  | ok u =>
    exact .inl ⟨u, _, rfl, h4 u hb, h3 u (.inl hb), by rw [runInOrder_one, exec_ok hc.1 h1 hb, complete_between]⟩
  | raise e u =>
    exact .inr ⟨e, u, u.irq, rfl, h3 u (.inr ⟨e, hb⟩), by rw [runInOrder_one, exec_raise hc.1 h1 hb]; rfl⟩
  | diverge => exact absurd hb h2

theorem Tracks.andThen {is : List Instr} {i : Instr} {s : State} {r : Run} {P Q : State → Prop} (h : Tracks is s r P)
    (hne : is ≠ []) (hc : Component i P Q) : Tracks (is ++ [i]) s (r.andThen (bodyOf i)) Q := by
  rcases h with ⟨u, q, rfl, hp, hs, h⟩ | ⟨e, u, q, rfl, hs, h⟩
  · obtain ⟨h1, h2, h3, h4⟩ := hc.2 u hp hs
    have hrun : runInOrder (is ++ [i]) s = exec i (u.between q) := by rw [runInOrder_snoc hne h]; rfl
    obtain ⟨g1, g2⟩ := exec_between hc.1 q h1
    rw [Run.andThen_ok]
    cases hb : bodyOf i u with
    | ok v =>
      obtain ⟨q', g⟩ := g1 v hb
      exact .inl ⟨v, q', rfl, h4 v hb, h3 v (.inl hb), hrun.trans g⟩
    | raise e v => exact .inr ⟨e, v, q, rfl, h3 v (.inr ⟨e, hb⟩), hrun.trans (g2 e v hb)⟩
    | diverge => exact absurd hb h2
  · exact .inr ⟨e, u, q, rfl, hs, by rw [runInOrder_snoc hne h]; rfl⟩

/-- A command whose body is that of its components and then FLUSH, on every path. -/
theorem Tracks.endsAsItsParts {i : Instr} {is : List Instr} {s s0 : State} {r : Run} {P : State → Prop}
    (h : Tracks is s0 r P) (hi : i.wellFormed = true) (hp : pre i s.status = true)
    (hb : bodyOf i s = (r.andThen flushBody).flushOnRaise) : EndsAsItsParts i is s0 s := by
  rcases h with ⟨u, q, rfl, _, hs, h⟩ | ⟨e, u, q, rfl, hs, h⟩
  · have hb' : bodyOf i s = .ok u.sinkFlush := hb
    have ha := (bodyOf_around (.inl hb')).1
    rw [sinkFlush_open u hs] at hb' ha
    refine ⟨_, _, h, exec_ok hi hp hb', ?_, Sink.close_closed _⟩
    have hq : u.irq = s.irq := ha.2.1
    rw [complete, ← hq]
    rfl
  · have hb' : bodyOf i s = .raise e u.sinkFlush := hb
    have ha := (bodyOf_around (.inr ⟨e, hb'⟩)).1
    rw [sinkFlush_open u hs] at hb' ha
    refine ⟨_, _, h, exec_raise hi hp hb', ?_, Sink.close_closed _⟩
    have hq : u.irq = s.irq := ha.2.1
    rw [raiseError, raiseError, ← hq]
    rfl

/-! ## The two whole-stream operations -/

/-- There is a valid tree. -/
def HasTree (s : State) : Prop := TreeOk s ∧ s.status.treeValid = true

/-- There is a valid tree with its codes. -/
def HasCodes (s : State) : Prop := HasTree s ∧ s.status.codesValid = true

theorem component_count : Component .count (fun _ => True) (fun _ => True) :=
  ⟨rfl, fun s _ hs => ⟨rfl, countBody_ends s, fun u h => by obtain ⟨_, _, _, _, rfl⟩ := countBody_shape h; exact hs,
    fun _ _ => trivial⟩⟩

theorem component_build : Component .build (fun _ => True) HasTree :=
  ⟨rfl, fun s _ hs => ⟨rfl, buildBody_ends s,
    fun u h => by obtain rfl | ⟨_, _, _, rfl⟩ := buildBody_shape h <;> exact hs,
    fun u h => ⟨(buildBody_tree h).1, (buildBody_tree h).2.1⟩⟩⟩

theorem component_gencodes : Component .gencodes HasTree HasCodes :=
  ⟨rfl, fun s h hs => ⟨h.2, bodyOf_ends (i := .gencodes) h.2 (fun _ => h.1),
    fun u hu => by obtain ⟨_, _, rfl⟩ := gencodesBody_shape hu; exact hs,
    fun u hu => by
      obtain ⟨_, _, rfl⟩ := gencodesBody_shape (.inl hu)
      exact ⟨⟨h.1.congr rfl rfl rfl rfl rfl, h.2⟩, rfl⟩⟩⟩

theorem component_writeMagic : Component .writeMagic HasCodes HasCodes := by
  refine ⟨rfl, fun s h hs => ⟨by simp [pre, hs], by simp [bodyOf, writeMagicBody], fun u hu => ?_, fun u hu => ?_⟩⟩
  · rw [writeMagicBody_shape hu]; exact hs
  · rw [writeMagicBody_shape (.inl hu)]; exact ⟨⟨h.1.1.congr rfl rfl rfl rfl rfl, h.1.2⟩, h.2⟩

theorem component_writeTree : Component .writeTree HasCodes HasCodes := by
  refine ⟨rfl, fun s h hs => ?_⟩
  have hp : pre .writeTree s.status = true := by simp [pre, hs, h.1.2]
  refine ⟨hp, bodyOf_ends hp (fun _ => h.1.1), fun u hu => ?_, fun u hu => ?_⟩
  · obtain ⟨_, _, _, rfl⟩ := writeTreeBody_shape hu; exact hs
  · obtain ⟨_, _, _, rfl⟩ := writeTreeBody_shape (.inl hu)
    exact ⟨⟨h.1.1.congr rfl rfl rfl rfl rfl, h.1.2⟩, h.2⟩

theorem component_encode : Component .encode HasCodes (fun _ => True) :=
  ⟨rfl, fun s h hs => ⟨by simp [pre, hs, h.2], encodeBody_ends s,
    fun u hu => by obtain ⟨_, _, _, rfl⟩ := encodeBody_shape hu; exact hs, fun _ _ => trivial⟩⟩

theorem component_readMagic : Component .readMagic (fun _ => True) (fun _ => True) :=
  ⟨rfl, fun s _ hs => ⟨rfl, readMagicBody_ends s,
    fun u hu => by obtain ⟨_, _, _, rfl⟩ := readMagicBody_shape hu; exact hs, fun _ _ => trivial⟩⟩

theorem component_readTree : Component .readTree (fun _ => True) (fun s => s.status.treeValid = true) := by
  refine ⟨rfl, fun s _ hs => ⟨rfl, readTreeBody_ends s, fun u hu => ?_, fun u hu => ?_⟩⟩
  · obtain ⟨_, _, _, _, _, _, _, rfl⟩ := readTreeBody_shape hu; exact hs
  · have hu' : readTreeBody s = .ok u := hu
    unfold readTreeBody at hu'
    split at hu'
    · cases hu'
    · simp only at hu'
      split at hu'
      · cases hu'
      · cases hu'; rfl

theorem component_decode : Component .decode (fun s => s.status.treeValid = true) (fun _ => True) :=
  ⟨rfl, fun s h hs => ⟨by simp [pre, hs, h], decodeLoop_ends _ _,
    fun u hu => by obtain ⟨_, _, _, _, _, _, rfl⟩ := decodeBody_shape hu; exact hs, fun _ _ => trivial⟩⟩

/-- COMPRESS ends as its six components (47_macro R106). -/
theorem compress_endsAsItsParts {s : State} (hs : s.status.sinkClosed = false) :
    EndsAsItsParts .compress [.count, .build, .gencodes, .writeMagic, .writeTree, .encode] s s :=
  ((((((tracks_one component_count trivial hs).andThen (by simp) component_build).andThen (by simp)
    component_gencodes).andThen (by simp) component_writeMagic).andThen (by simp) component_writeTree).andThen (by simp)
    component_encode).endsAsItsParts rfl (by simp [pre, hs]) rfl

/-- DECOMPRESS ends as its three components, from the rewind (47_macro R107). -/
theorem decompress_endsAsItsParts {s : State} (hs : s.status.sinkClosed = false) :
    EndsAsItsParts .decompress [.readMagic, .readTree, .decode] (decompressStart s) s :=
  (((tracks_one component_readMagic trivial (s := decompressStart s) hs).andThen (by simp) component_readTree).andThen
    (by simp) component_decode).endsAsItsParts rfl (by simp [pre, hs]) rfl

end Sys2Proof.Machine
end

