-- ==== Sys2Proof/Laws/PerInstr.lean ====
section
/-! SUPPORT. The layout of each command's word (30_encoding R68), one lemma per constructor of Instr. -/

namespace Sys2Proof.Laws.WordLayout

/-- The word of a command has its opcode in [7:0], its symbol field in [16:8] and 0 in [31:17] (R68, R77). -/
def Statement (i : Instr) : Prop :=
  fieldOp (encode i) = i.opcode ∧ fieldSym (encode i) = i.symField ∧ fieldRsvd (encode i) = 0#15

theorem nop : Statement .nop := by unfold Statement; decide

theorem clear : Statement .clear := by unfold Statement; decide

theorem count : Statement .count := by unfold Statement; decide

theorem build : Statement .build := by unfold Statement; decide

theorem gencodes : Statement .gencodes := by unfold Statement; decide

theorem writeMagic : Statement .writeMagic := by unfold Statement; decide

theorem writeTree : Statement .writeTree := by unfold Statement; decide

theorem readMagic : Statement .readMagic := by unfold Statement; decide

theorem readTree : Statement .readTree := by unfold Statement; decide

theorem encSym (sym : Sym) : Statement (.encSym sym) := by
  refine ⟨?_, ?_, ?_⟩
  · apply BitVec.eq_of_getLsbD_eq
    intro j hj
    simp only [fieldOp, encode, Instr.symField, Instr.opcode, BitVec.getLsbD_extractLsb', BitVec.getLsbD_append]
    simp [hj]
  · apply BitVec.eq_of_getLsbD_eq
    intro j hj
    simp only [fieldSym, encode, Instr.symField, Instr.opcode, BitVec.getLsbD_extractLsb', BitVec.getLsbD_append]
    simp [hj]
  · apply BitVec.eq_of_getLsbD_eq
    intro j hj
    simp only [fieldRsvd, encode, Instr.symField, Instr.opcode, BitVec.getLsbD_extractLsb', BitVec.getLsbD_append]
    simp [show ¬ (17 + j < 8) by omega, show ¬ (17 + j - 8 < 9) by omega]

theorem encode : Statement .encode := by unfold Statement; decide

theorem flush : Statement .flush := by unfold Statement; decide

theorem decSym : Statement .decSym := by unfold Statement; decide

theorem decode : Statement .decode := by unfold Statement; decide

theorem compress : Statement .compress := by unfold Statement; decide

theorem decompress : Statement .decompress := by unfold Statement; decide

end Sys2Proof.Laws.WordLayout
end

