-- ==== Sys2Proof/Laws/Window.lean ====
section
/-! SUPPORT. The register window: where the fixed registers stand, and what a read of a register gives (10_state R17,
20_memory R55). -/

namespace Sys2Proof.Machine

/-- The fixed registers fill the words 0x000 to 0x040. -/
theorem fixedRegAt_mapped (off : Nat) (h4 : off % 4 = 0) : fixedRegAt off ≠ none ↔ off ≤ 64 := by
  constructor
  · intro h
    by_contra hc
    apply h
    unfold fixedRegAt
    repeat rw [if_neg (by omega)]
  · intro h
    have : ∀ k, k < 17 → fixedRegAt (4 * k) ≠ none := by decide
    have := this (off / 4) (by omega)
    rwa [show 4 * (off / 4) = off by omega] at this

/-- Only CTRL, CMD and IRQ_STATUS of the fixed registers can be written. -/
theorem fixedRegAt_readOnly {off : Nat} {r : Reg} (h : fixedRegAt off = some r) (h1 : off ∉ [0x004, 0x008, 0x010]) : r.readOnly = true := by
  have hs : ∀ k, k < 65 → k ∉ [0x004, 0x008, 0x010] → (fixedRegAt k).all Reg.readOnly = true := by
    decide
  by_cases hk : off < 65
  · have := hs off hk h1; rw [h] at this; exact this
  · exfalso
    unfold fixedRegAt at h
    repeat rw [if_neg (by omega)] at h
    cases h

/-- A read of a mapped word that is not gated gives the register's value. -/
theorem busRead_reg {s : State} {off : Offset} {r : Reg} (h : regAt off.toNat = some r) (h4 : off.toNat % 4 = 0)
    (hb : s.busy = false ∨ off.toNat < 0x20) : busRead s off = .data (readReg s r) := by
  have : accessed s off .word 0b1111#4 = some r := by
    unfold accessed alignedWord gated
    rcases hb with hb | hb <;> simp [h4, hb, h]
  simp [busRead, memRead, this]

end Sys2Proof.Machine
end

