-- ==== Sys2Proof/Tests/Slice0.lean ====
section
/-! SUPPORT. The model's own tests, with expected values from the spec's encodings (30_encoding) and vectors
(95_test_vectors), and a witness for the hypotheses of each obligation. -/

namespace Sys2Proof.Tests

open Sys2Proof Sys2Proof.Machine

/-! ## States -/

/-- An idle block just after INIT, with the vectors' magic and a source at RP = 0 (95 section 0). -/
def idle (src : List Byte) : State :=
  { State.reset with seq := .idle, magic := 0xFACE8201#32, source := ⟨src, [], 0⟩ }

/-- V5's source, "ab". -/
def srcAb : List Byte := [0x61#8, 0x62#8]

/-- V5's stream. -/
def streamAb : List Byte := [0xFA#8, 0xCE#8, 0x82#8, 0x01#8, 0x60#8, 0x09#8, 0x86#8, 0x62#8, 0xB0#8]

/-- V1's source, "AAAAAAAABBBCCD". -/
def srcV1 : List Byte := List.replicate 8 0x41#8 ++ List.replicate 3 0x42#8 ++ [0x43#8, 0x43#8, 0x44#8]

/-- V1's stream. -/
def streamV1 : List Byte :=
  [0xFA#8, 0xCE#8, 0x82#8, 0x01#8, 0x24#8, 0x24#8, 0x86#8, 0x91#8, 0x30#8, 0x09#8, 0x07#8, 0xFC#8, 0x04#8, 0x99#8,
    0xC0#8]

/-- V5's nodes: the leaves 'a', 'b', EOF and the internal nodes 3 = (0, 1), 4 = (2, 3). -/
def arenaAb : List Node :=
  [⟨true, 97#9, 1#64, 0#10, 0#10⟩, ⟨true, 98#9, 1#64, 0#10, 0#10⟩, ⟨true, 256#9, 1#64, 0#10, 0#10⟩,
    ⟨false, 0#9, 2#64, 0#10, 1#10⟩, ⟨false, 0#9, 3#64, 2#10, 3#10⟩]

/-- V5's codes: 'a' = 10, 'b' = 11, EOF = 0. -/
def codeAb : Memory Code := [(97, ⟨2#9, 2#256⟩), (98, ⟨2#9, 3#256⟩), (256, ⟨1#9, 0#256⟩)]

/-- V5 after BUILD. -/
def treeAb : State :=
  { idle srcAb with
    freq := [(97, 1#32), (98, 1#32), (256, 1#32)]
    arena := arenaAb
    nodeCount := 5#10
    root := 4#10
    leafCount := 3#9
    status := { (idle srcAb).status with treeValid := true } }

/-- V5 after BUILD and GENCODES. -/
def codesAb : State := { treeAb with code := codeAb, status := { treeAb.status with codesValid := true } }

/-- The tree of V5: EOF left, 'a' and 'b' right. -/
def tAb : Machine.Tree := .node (.leaf 256#9) (.node (.leaf 97#9) (.leaf 98#9))

/-- The same with another source, from its bit p on. -/
def reading (s : State) (src : List Byte) (p : Nat) : State := { s with source := ⟨src, [], p⟩ }

/-- An error state: an illegal word was accepted (V21 row 1). -/
def failed : State := (idle []).errored 0x10#8 (some 2#32)

/-- A closed sink. -/
def closed (s : State) : State := { s with status := { s.status with sinkClosed := true } }

/-- The next state of an outcome; the state after reset where there is none. -/
def after (o : Host.Outcome State Fault Refusal) : State :=
  match o with
  | .next t => t
  | .fault _ => State.reset
  | .refused _ => State.reset

/-- Does an outcome give a next state? -/
def goes (o : Host.Outcome State Fault Refusal) : Bool :=
  match o with
  | .next _ => true
  | .fault _ => false
  | .refused _ => false

theorem goes_after {o : Host.Outcome State Fault Refusal} (h : goes o = true) : o = .next (after o) := by
  cases o <;> first | rfl | cases h

/-- The bytes at the sink port. -/
def portBytes (s : State) : List Byte :=
  s.sink.port.filterMap (fun e => match e with
    | .byte b => some b
    | .close => none)

/-! ## Decoding: the words of the opcode map (30_encoding R70), and words of 95_test_vectors -/

theorem test_decode_nop : decode 0x00000000#32 = .ok .nop := by decide
theorem test_decode_clear : decode 0x00000001#32 = .ok .clear := by decide
theorem test_decode_count : decode 0x00000010#32 = .ok .count := by decide
theorem test_decode_build : decode 0x00000020#32 = .ok .build := by decide
theorem test_decode_gencodes : decode 0x00000030#32 = .ok .gencodes := by decide
theorem test_decode_writeMagic : decode 0x00000040#32 = .ok .writeMagic := by decide
theorem test_decode_writeTree : decode 0x00000041#32 = .ok .writeTree := by decide
theorem test_decode_readMagic : decode 0x00000048#32 = .ok .readMagic := by decide
theorem test_decode_readTree : decode 0x00000049#32 = .ok .readTree := by decide
/-- ENC_SYM 'z' is 0x00007A50 (P4 step 6). -/
theorem test_decode_encSym : decode 0x00007A50#32 = .ok (.encSym 0x7A#9) := by decide
/-- Bit by bit: RSVD 000000000000000, SYM 100000000, OP 01010000 (R68). -/
theorem test_decode_encSym_eof : decode 0b00000000000000010000000001010000#32 = .ok (.encSym 256#9) := by decide
theorem test_decode_encode : decode 0x00000051#32 = .ok .encode := by decide
theorem test_decode_flush : decode 0x00000058#32 = .ok .flush := by decide
theorem test_decode_decSym : decode 0x00000060#32 = .ok .decSym := by decide
theorem test_decode_decode : decode 0x00000061#32 = .ok .decode := by decide
theorem test_decode_compress : decode 0x00000070#32 = .ok .compress := by decide
theorem test_decode_decompress : decode 0x00000071#32 = .ok .decompress := by decide

/-- The illegal words of V21 and V17. -/
theorem test_decode_refuses :
    decode 0x80000000#32 = .error .reservedNonzero ∧ decode 0x00004100#32 = .error .symbolNonzero ∧
    decode 0x000000FF#32 = .error .unassignedOpcode ∧ decode 0x00010150#32 = .error .symbolOutOfRange := by decide

/-- The one check of a command as syntax refuses an operand of 257 and more, and admits 256 (R69). -/
theorem test_wellFormed_refuses : Instr.wellFormed (.encSym 257#9) = false ∧ Instr.wellFormed (.encSym 511#9) = false ∧
    Instr.wellFormed (.encSym 256#9) = true := by decide

/-- The table's bit numbering: one word, and no bit above nbits. -/
theorem test_decodeTableWord : decodeTableWord 32 0x00004450 = some (.encSym 68#9) ∧
    decodeTableWord 8 0x71 = some .decompress ∧ decodeTableWord 32 0x2 = none := by decide

/-! ## Commands -/

theorem test_nop : (after (exec .nop (idle []))).statusWord = 0x002#32 := by decide +kernel

/-- V17: CLEAR after an error gives STATUS 0x002 and OUT_CNT 0, and leaves IRQ (R115). -/
theorem test_clear :
    let t := after (exec .clear { failed with sink := ⟨[false, true, true, false], []⟩ })
    t.statusWord = 0x002#32 ∧ t.outCnt = 0#64 ∧ t.irq = ⟨true, true⟩ ∧ t.err = ⟨0#8, false, 0#32⟩ := by decide +kernel

/-- V7, third row. -/
theorem test_count :
    let t := after (exec .count (idle [0x00#8, 0xFF#8, 0x00#8]))
    t.freq = [(0, 2#32), (255, 1#32), (256, 1#32)] ∧ t.inPos = 24#64 ∧ t.statusWord = 0x002#32 := by decide +kernel

/-- V7, overflow, with the counter already at its last value. -/
theorem test_count_overflow :
    (countLoop 2 [(0, 0xFFFFFFFF#32)] ⟨[0#8], [], 0⟩).1 = some 0 := by decide +kernel

/-- V9: nodes 4, 5, 6 and the window words of node 6. -/
theorem test_build_wide :
    let t := after (exec .build { idle [] with freq := [(0, 0xFFFFFFFF#32), (1, 0xFFFFFFFF#32), (2, 5#32), (256, 1#32)] })
    t.arena.drop 4 = [⟨false, 0#9, 6#64, 3#10, 2#10⟩, ⟨false, 0#9, 0x100000005#64, 4#10, 0#10⟩,
      ⟨false, 0#9, 0x200000004#64, 1#10, 5#10⟩] ∧
    busRead t 0x1064#16 = .data 0x00000004#32 ∧ busRead t 0x106C#16 = .data 0x00050001#32 := by decide +kernel

/-- V10: only FREQ[256] = 7. -/
theorem test_build_dummy :
    let t := after (exec .build { idle [] with freq := [(256, 7#32)] })
    t.arena = [⟨true, 0#9, 0#64, 0#10, 0#10⟩, ⟨true, 256#9, 7#64, 0#10, 0#10⟩, ⟨false, 0#9, 7#64, 0#10, 1#10⟩] ∧
    t.statusWord = 0x012#32 := by decide +kernel

/-- V5: the codes of "ab". -/
theorem test_gencodes :
    let t := after (exec .gencodes treeAb)
    t.code = codeAb ∧ t.statusWord = 0x052#32 := by decide +kernel

/-- V11: two leaves for symbol 1; the right one, visited later, wins. -/
theorem test_gencodes_duplicate :
    (after (exec .gencodes
      { idle [] with
        arena := [⟨false, 0#9, 0#64, 1#10, 2#10⟩, ⟨true, 1#9, 0#64, 0#10, 0#10⟩, ⟨true, 1#9, 0#64, 0#10, 0#10⟩]
        nodeCount := 3#10
        leafCount := 2#9
        status := { (idle []).status with treeValid := true, treeSrc := true } })).code = [(1, ⟨1#9, 1#256⟩)] := by
  decide +kernel

/-- V12.1. -/
theorem test_writeMagic :
    let t := after (exec .writeMagic (idle []))
    portBytes t = [0xFA#8, 0xCE#8, 0x82#8, 0x01#8] ∧ t.outCnt = 32#64 := by decide +kernel

/-- V5: the 32 bits of the tree. -/
theorem test_writeTree :
    let t := after (exec .writeTree treeAb)
    portBytes t = [0x60#8, 0x09#8, 0x86#8, 0x62#8] ∧ t.hdrBits = 32#32 := by decide +kernel

/-- V12.4. -/
theorem test_writeTree_sequence :
    (after (exec .writeTree (idle []))).err = ⟨0x11#8, true, 0x41#32⟩ := by decide +kernel

/-- V13, second row. -/
theorem test_readMagic_mismatch :
    let t := after (exec .readMagic (idle [0x41#8, 0x42#8, 0x43#8, 0x44#8, 0x78#8, 0x79#8, 0x7A#8]))
    t.err = ⟨0x01#8, true, 0x41424344#32⟩ ∧ t.inPos = 32#64 ∧ t.statusWord = 0x004#32 := by decide +kernel

/-- V13, third row. -/
theorem test_readMagic_short :
    let t := after (exec .readMagic (idle [0xFA#8, 0xCE#8, 0x82#8]))
    t.err = ⟨0x01#8, false, 0#32⟩ ∧ t.inPos = 24#64 := by decide +kernel

/-- V5, V19: the tree of the stream, from bit 32. -/
theorem test_readTree :
    let t := after (exec .readTree (reading (idle []) streamAb 32))
    t.arena = [⟨false, 0#9, 0#64, 1#10, 2#10⟩, ⟨true, 256#9, 0#64, 0#10, 0#10⟩, ⟨false, 0#9, 0#64, 3#10, 4#10⟩,
      ⟨true, 97#9, 0#64, 0#10, 0#10⟩, ⟨true, 98#9, 0#64, 0#10, 0#10⟩] ∧
    t.inPos = 64#64 ∧ t.hdrBits = 32#32 ∧ t.statusWord = 0x032#32 := by decide +kernel

/-- V15.3: the source ends inside a leaf value. -/
theorem test_readTree_exhausted :
    let t := after (exec .readTree (idle [0x40#8, 0x10#8]))
    t.err = ⟨0x02#8, false, 0#32⟩ ∧ t.hdrBits = 16#32 ∧ t.nodeCount = 3#10 ∧ t.leafCount = 1#9 := by decide +kernel

/-- V17's ENC_SYM with V5's codes: 'b' is 11. -/
theorem test_encSym : (after (exec (.encSym 98#9) codesAb)).sink.out = [true, true] := by decide +kernel

/-- ENC_SYM of a symbol without a codeword (V17: 'Z'). -/
theorem test_encSym_missing :
    let t := after (exec (.encSym 0x5A#9) codesAb)
    t.err = ⟨0x22#8, true, 0x5A#32⟩ ∧ t.sink.out = [] ∧ t.statusWord = 0x054#32 := by decide +kernel

/-- V5: the payload 10110. -/
theorem test_encode : (after (exec .encode codesAb)).sink.out = [true, false, true, true, false] := by decide +kernel

/-- V17: ENCODE meets a byte without a codeword, here after 'a'. -/
theorem test_encode_missing :
    let t := after (exec .encode (reading codesAb [0x61#8, 0x5A#8] 0))
    t.err = ⟨0x22#8, true, 0x5A#32⟩ ∧ t.inPos = 16#64 ∧ t.sink.out = [true, false] := by decide +kernel

/-- V18, third row: OUT = 1 is flushed to 80. -/
theorem test_flush :
    let t := after (exec .flush { idle [] with sink := ⟨[true], []⟩ })
    t.sink.port = [.byte 0x80#8, .close] ∧ t.outCnt = 8#64 ∧ t.statusWord = 0x102#32 := by decide +kernel

/-- V18, fourth row: a second FLUSH does not pulse snk_close again. -/
theorem test_flush_twice : (after (exec .flush (closed (idle [])))).sink.port = [] := by decide +kernel

/-- V19, step 1: 10 is 'a'. -/
theorem test_decSym :
    let t := after (exec .decSym (reading treeAb streamAb 64))
    portBytes t = [0x61#8] ∧ t.result.word = 0x80000061#32 ∧ t.inPos = 66#64 := by decide +kernel

/-- V19: with no bit left, TRUNCATED_STREAM and RESULT unchanged. -/
theorem test_decSym_truncated :
    let t := after (exec .decSym (reading treeAb streamAb 72))
    t.err = ⟨0x03#8, false, 0#32⟩ ∧ t.result.word = 0#32 := by decide +kernel

/-- V19: DECODE reads to the pseudo-EOF and no further. -/
theorem test_decode :
    let t := after (exec .decode (reading treeAb streamAb 64))
    portBytes t = srcAb ∧ t.result.word = 0x80000100#32 ∧ t.inPos = 69#64 ∧ t.status.eofSeen = true := by
  decide +kernel

/-- V16: no pseudo-EOF leaf. -/
theorem test_decode_truncated :
    let t := after (exec .decode
      { idle [] with
        source := ⟨[0x48#8, 0x32#8, 0x14#8], [], 21⟩
        arena := [⟨false, 0#9, 0#64, 1#10, 2#10⟩, ⟨true, 0x41#9, 0#64, 0#10, 0#10⟩, ⟨true, 0x42#9, 0#64, 0#10, 0#10⟩]
        nodeCount := 3#10
        leafCount := 2#9
        status := { (idle []).status with treeValid := true, treeSrc := true } })
    portBytes t = [0x42#8, 0x41#8, 0x41#8] ∧ t.result.word = 0x80000041#32 ∧ t.inPos = 24#64 ∧
    t.statusWord = 0x034#32 := by decide +kernel

/-- V1. -/
theorem test_compress :
    let t := after (exec .compress (idle srcV1))
    t.sink.port = streamV1.map .byte ++ [.close] ∧ t.statusWord = 0x152#32 ∧ t.hdrBits = 54#32 := by decide +kernel

/-- V3: the empty input. -/
theorem test_compress_empty :
    portBytes (after (exec .compress (idle []))) = [0xFA#8, 0xCE#8, 0x82#8, 0x01#8, 0x40#8, 0x18#8, 0x04#8] := by
  decide +kernel

/-- V2. -/
theorem test_decompress :
    let t := after (exec .decompress (idle streamV1))
    t.sink.port = srcV1.map .byte ++ [.close] ∧ t.statusWord = 0x1BA#32 ∧ t.inPos = 114#64 := by decide +kernel

/-- V14: the pseudo-EOF codeword is cut. -/
theorem test_decompress_cut :
    let t := after (exec .decompress (idle (streamV1.take 14)))
    portBytes t = srcV1 ∧ t.statusWord = 0x1B4#32 ∧ t.result.word = 0x80000044#32 := by decide +kernel

/-! ## The sequencer and the window -/

/-- V21: an illegal word; a COUNT is dropped in the error state, and so is 0x00000100. -/
theorem test_sequencer :
    (after (step { idle [] with seq := .exec 2#32 })).err = ⟨0x10#8, true, 2#32⟩ ∧
    (busWrite failed 0x008#16 0x10#32).2.statusWord = 0x204#32 ∧
    (busWrite failed 0x008#16 0x100#32).2.statusWord = 0x204#32 ∧
    (busWrite failed 0x008#16 0x58#32).2.seq = .exec 0x58#32 := by decide +kernel

/-- V22. -/
theorem test_window :
    busRead (idle []) 0x000#16 = .data 0x48554646#32 ∧ busRead (idle []) 0x002#16 = .busErr ∧
    memRead (idle []) 0x000#16 .byte 0b0001#4 = .busErr ∧ busRead (idle []) 0x044#16 = .busErr ∧
    busRead (idle []) 0x804#16 = .busErr ∧ (busWrite (idle []) 0x000#16 1#32).1 = .busErr ∧
    busRead (busWrite (idle []) 0x800#16 5#32).2 0x800#16 = .data 5#32 ∧
    busRead (busWrite (idle []) 0x004#16 0xFFFFFFF6#32).2 0x004#16 = .data 6#32 := by decide +kernel

/-- P1 steps 7 and 9, in V5's tree: a leaf's TAG and a code's LEN and VAL_0; V23: STATUS in INIT. -/
theorem test_window_entries :
    busRead codesAb 0x1020#16 = .data 0x01000001#32 ∧ busRead codesAb 0x5840#16 = .data 2#32 ∧
    busRead codesAb 0x5844#16 = .data 2#32 ∧ busRead codesAb 0x1050#16 = .data 0#32 ∧
    busRead State.reset 0x00C#16 = .data 1#32 := by decide +kernel

/-! ## Witnesses: states and operands that meet the hypotheses of the obligations -/

/-- R57, R31: re-binding keeps IN_POS where the new source reaches it. -/
theorem test_bind_keeps_position :
    (bindSource (reading (idle []) streamAb 16) srcAb []).inPos = 16#64 := by decide

/-- R78: the bus accesses of ISSUE CLEAR with one read that still sees BUSY = 1. -/
theorem test_issue :
    hostIssue .clear 1 = [.write 0x008#16 .word 0b1111#4 1#32, .read 0x00C#16 .word 0b1111#4, .run,
      .read 0x00C#16 .word 0b1111#4] := by decide

/-- R110: a failed run that only a read and a reset follow has ended and failed; with a command to offer it has not. -/
theorem test_run_ended :
    ({ failed with host := [hostRd 0x00C#16, .pinReset, hostWr 0x008#16 0x70#32] } : State).runFailed = true ∧
    ({ failed with host := [hostWr 0x008#16 0x01#32] } : State).ended = false ∧
    (failed.runOutcome.map (fun o => (o.status, o.errCode, o.errInfo))) = some (0x004#32, 0x110#32, 2#32) := by
  decide +kernel

theorem tree_treeAb : treeAb.tree = some tAb := by decide +kernel

theorem treeOk_treeAb : TreeOk treeAb :=
  ⟨_, _, tree_treeAb, by decide, by decide, by decide, by decide +kernel, by decide⟩

theorem treeOk_reading (src : List Byte) (p : Nat) : TreeOk (reading treeAb src p) :=
  treeOk_treeAb.congr rfl rfl rfl rfl rfl

theorem treeOk_codesAb : TreeOk codesAb := treeOk_treeAb.congr rfl rfl rfl rfl rfl

theorem codeInv_codesAb : CodeInv codesAb := fun _ => ⟨rfl, tAb, by decide +kernel, by decide +kernel⟩

theorem memoryOk_codesAb : MemoryOk codesAb := by
  refine ⟨⟨?_, ?_⟩, ⟨?_, ?_⟩, ?_⟩ <;> decide +kernel

theorem witness_DecodeEncodeAgree : decode 0x00010050#32 = .ok (.encSym 256#9) ∧
    Instr.wellFormed (.encSym 256#9) = true ∧ encode (.encSym 256#9) = 0x00010050#32 := by decide

theorem witness_IllegalWordsEndInError :
    isIllegal 0x00010150#32 = true ∧ isIllegal 0x00020050#32 = true ∧ isIllegal 0x00000100#32 = true ∧
    isIllegal 0x00000072#32 = true ∧ ({ idle [] with seq := .exec 0x00010150#32 } : State).host = [] ∧
    ({ idle [] with seq := .exec 0x00010150#32, host := [.run, .hold] } : State).host = .run :: [.hold] := by decide

theorem witness_StepRunsDecodedCommand :
    decode 0x00010050#32 = .ok (.encSym 256#9) ∧
    ({ codesAb with seq := .exec 0x00010050#32 } : State).host = [] ∧
    ({ codesAb with seq := .exec 0x00010050#32, host := [.run, .hold] } : State).host = [.run, .hold] ∧
    codesAb.busy = false ∧ codesAb.status.err = false := by decide

/-- Both cases of OfferCommand: BUSY, ERR with another word, ERR with each exact word, and IDLE. -/
theorem witness_OfferedWordDroppedOrAccepted :
    State.reset.busy = true ∧ failed.status.err = true ∧ failed.busy = false ∧
    acceptedInError 0x00000100#32 = false ∧ acceptedInError 0x00000058#32 = true ∧ (idle []).busy = false := by decide

theorem witness_PreconditionTable :
    ¬ Requires (.encSym 256#9) treeAb ∧ Requires (.encSym 256#9) codesAb ∧
    ¬ Requires .writeTree (closed treeAb) ∧ Requires .writeTree treeAb ∧
    goes (exec (.encSym 256#9) codesAb) = true := by
  refine ⟨?_, ?_, ?_, ?_, ?_⟩ <;> first | (simp [Requires, treeAb, codesAb, closed, idle, State.reset]; done) | decide +kernel

/-- A command that ends without an error and one that ends with one. -/
theorem witness_CommandEndsOneWay :
    exec .nop (idle []) = .next (after (exec .nop (idle []))) ∧
    exec .build (idle []) = .next (after (exec .build (idle []))) ∧
    (after (exec .build (idle []))).status.err = true := ⟨rfl, rfl, by decide +kernel⟩

theorem witness_EveryCommandEnds :
    TreeInv codesAb ∧ codesAb.status.treeValid = true ∧
    ({ codesAb with host := [.bindSource srcAb []] } : State).bindsWell := by
  refine ⟨fun _ => treeOk_codesAb, rfl, ?_⟩
  intro bytes later rest h
  cases h
  decide

theorem errorOk_failed : ErrorOk failed := by
  refine ⟨?_, ?_, ?_, ?_, ?_⟩ <;> simp [failed, State.errored, idle, State.reset, State.busy]

/-- The error state kept where nothing moves, left by CLEAR, and left by the pin. -/
theorem witness_ErrorStateIsSticky :
    ErrorOk failed ∧ failed.status.err = true ∧ step failed = .next failed ∧
    step { failed with host := [.pinReset] } = .next (softReset failed) ∧
    goes (step { failed with seq := .exec 0x00000001#32 }) = true :=
  ⟨errorOk_failed, rfl, rfl, rfl, rfl⟩

/-- RP at its upper bound 8·|SRC|. -/
theorem witness_SourceStaysInRange :
    SourceOk (reading treeAb srcAb 16) ∧ step (reading treeAb srcAb 16) = .next (reading treeAb srcAb 16) :=
  ⟨⟨by decide, by decide, rfl⟩, rfl⟩

/-- An open sink with a partial byte, and a closed one. -/
theorem witness_SinkStaysDelivered :
    SinkOk { idle [] with sink := ⟨List.replicate 9 true, [.close, .byte 0xFF#8]⟩ } ∧
    SinkOk (closed { idle [] with sink := ⟨List.replicate 8 true, [.byte 0xFF#8, .close]⟩ }) ∧
    step (idle []) = .next (idle []) :=
  ⟨⟨⟨[.close], by decide⟩, by decide⟩, ⟨⟨[], by decide⟩, by decide⟩, rfl⟩

theorem witness_ErrorRecordStaysConsistent : ErrorOk failed ∧ step failed = .next failed :=
  ⟨errorOk_failed, rfl⟩

theorem witness_MemoriesStayCanonical :
    MemoryOk codesAb ∧ TreeInv codesAb ∧ step codesAb = .next codesAb :=
  ⟨memoryOk_codesAb, fun _ => treeOk_codesAb, rfl⟩

theorem witness_TreeStaysATree :
    TreeInv treeAb ∧ treeAb.status.treeValid = true ∧ step treeAb = .next treeAb :=
  ⟨fun _ => treeOk_treeAb, rfl, rfl⟩

theorem witness_CodesStayThoseOfTheTree :
    CodeInv codesAb ∧ codesAb.status.codesValid = true ∧ step codesAb = .next codesAb :=
  ⟨codeInv_codesAb, rfl, rfl⟩

/-- A reset that aborts a FLUSH with a byte to deliver. -/
theorem witness_SinkNeverRetracts :
    goes (step
      { idle [] with seq := .exec 0x00000058#32, sink := ⟨[true], []⟩, host := [.pinReset] }) = true := rfl

/-- Byte values present once, and not at all. -/
theorem witness_CountCountsBytes : ∀ b : Byte, (idle srcAb).source.rewind.bytes.count b < 2 ^ 32 := by
  intro b
  refine lt_of_le_of_lt List.count_le_length ?_
  decide

theorem zeros_meet_overflow (n : Nat) :
    (idle (List.replicate n 0#8 ++ 0#8 :: [])).source.rewind.bytes = List.replicate n 0#8 ++ 0#8 :: [] ∧
    (List.replicate n (0#8 : Byte)).count 0#8 = n ∧ ∀ c : Byte, (List.replicate n (0#8 : Byte)).count c < n + 1 := by
  refine ⟨rfl, List.count_replicate_self, ?_⟩
  intro c
  have h1 : (List.replicate n (0#8 : Byte)).count c ≤ (List.replicate n (0#8 : Byte)).length := List.count_le_length
  rw [List.length_replicate] at h1
  omega

/-- V7's overflow: 2^32 bytes of 0. -/
theorem witness_CountOverflows : ∃ pre : List Byte,
    (idle (pre ++ 0#8 :: [])).source.rewind.bytes = pre ++ 0#8 :: [] ∧ pre.count 0#8 = 2 ^ 32 - 1 ∧
    (∀ c : Byte, pre.count c < 2 ^ 32) ∧ (idle (pre ++ 0#8 :: [])).status.sinkClosed = false := by
  generalize hn : 2 ^ 32 - 1 = n
  have h : 2 ^ 32 = n + 1 := by omega
  rw [h]
  obtain ⟨h1, h2, h3⟩ := zeros_meet_overflow n
  exact ⟨_, h1, h2, h3, rfl⟩

/-- Three counts, and FREQ[256] alone. -/
theorem witness_BuildMakesTree :
    freqAt treeAb.freq 256 ≠ 0#32 ∧ freqAt [(256, 7#32)] 256 ≠ 0#32 := by decide

/-- A queue of two, with equal weights. -/
theorem witness_MergeTakesTheTwoLeast :
    ([⟨1#64, 1⟩, ⟨1#64, 0⟩] : List Key) ≠ [] ∧ 2 ≤ ([⟨1#64, 1⟩, ⟨1#64, 0⟩] : List Key).length ∧
    goes (exec .build treeAb) = true := by decide +kernel

theorem witness_BuildCorners :
    freqAt (idle []).freq 256 = 0#32 ∧ freqAt [(256, 7#32)] 256 ≠ 0#32 ∧
    ∀ k, k < 256 → freqAt [(256, 7#32)] k = 0#32 := by
  refine ⟨by decide, by decide, ?_⟩
  intro k hk
  have : k ≠ 256 := by omega
  simp [freqAt, Memory.read, this]

/-- With a symbol of the tree, and with the later of two leaves of one symbol. -/
theorem witness_GencodesWritesPaths :
    treeAb.status.treeValid = true ∧ treeAb.tree = some tAb ∧ tAb.leaves ≤ 257 ∧
    tAb.paths = [(256#9, [false])] ++ (97#9, [true, false]) :: [(98#9, [true, true])] ∧
    (∀ p ∈ [((98#9 : Sym), [true, true])], p.1 ≠ 97#9) ∧
    (Machine.Tree.node (.leaf 1#9) (.leaf 1#9)).paths = [(1#9, [false])] ++ (1#9, [true]) :: [] ∧
    (∀ sym ∈ tAb.symbols, sym.toNat ≠ 0) :=
  ⟨rfl, tree_treeAb, by decide, by decide, by decide, by decide, by decide⟩

theorem witness_CodewordsAreAPrefixCode :
    MemoryOk codesAb ∧ TreeInv codesAb ∧ CodeInv codesAb ∧ codesAb.status.codesValid = true ∧
    codesAb.codeword 97 ≠ [] ∧ codesAb.codeword 0 = [] ∧
    (reading codesAb [0x80#8] 0).source.rest = (reading codesAb [0x80#8] 0).codeword 97 ++ List.replicate 6 false :=
  ⟨memoryOk_codesAb, fun _ => treeOk_codesAb, codeInv_codesAb, rfl, by decide, by decide, by decide⟩

theorem witness_KraftEquality :
    MemoryOk codesAb ∧ TreeInv codesAb ∧ CodeInv codesAb ∧ codesAb.status.codesValid = true ∧
    codesAb.tree = some tAb ∧ tAb.symbols.Nodup :=
  ⟨memoryOk_codesAb, fun _ => treeOk_codesAb, codeInv_codesAb, rfl, by decide +kernel, by decide⟩

theorem witness_WriteMagicCompletes : (idle []).status.sinkClosed = false := rfl

theorem witness_WriteTreeCompletes :
    treeAb.status.treeValid = true ∧ treeAb.status.sinkClosed = false ∧ treeAb.tree = some tAb :=
  ⟨rfl, rfl, tree_treeAb⟩

/-- The three cases: too few bits, the magic, other bits. -/
theorem witness_ReadMagicChecks :
    (idle (streamAb.take 3)).source.rest.length < 32 ∧
    ¬ (idle (streamAb.take 4)).source.rest.length < 32 ∧
    natOfBits ((idle streamAb).source.rest.take 32) = (idle streamAb).magic.toNat ∧
    natOfBits ((reading (idle []) streamAb 32).source.rest.take 32) ≠ (idle streamAb).magic.toNat := by decide +kernel

theorem witness_ReadTreeReadsTree :
    (reading (idle []) streamAb 32).source.rest = tAb.serialize ++ [true, false, true, true, false, false, false, false] ∧
    (∀ sym ∈ tAb.symbols, sym.toNat ≤ 256) ∧ tAb.leaves ≤ 257 := by decide +kernel

/-- A comb with n + 2 leaves of one symbol. -/
def comb (sym : Sym) : Nat → Machine.Tree
  | 0 => .node (.leaf sym) (.leaf sym)
  | n + 1 => .node (comb sym n) (.leaf sym)

theorem comb_leaves (sym : Sym) (n : Nat) : (comb sym n).leaves = n + 2 := by
  induction n with
  | zero => rfl
  | succ n ih => simp [comb, Tree.leaves, ih]

theorem comb_symbols (sym : Sym) (n : Nat) : ∀ x ∈ (comb sym n).symbols, x = sym := by
  induction n with
  | zero => simp [comb, Tree.symbols]
  | succ n ih =>
    intro x hx
    rcases List.mem_append.mp hx with hx | hx
    · exact ih x hx
    · simpa [Tree.symbols] using hx

/-- A source whose bits are a comb's header and its pad. -/
theorem exists_comb (sym : Sym) (n p k : Nat) (h : 11 * (n + 2) - 1 + p = 8 * k) :
    ∃ bytes, (idle bytes).source.rest = (comb sym n).serialize ++ List.replicate p false := by
  obtain ⟨bytes, hb⟩ := exists_bytes k ((comb sym n).serialize ++ List.replicate p false) (by
    have := Tree.serialize_length (comb sym n)
    rw [comb_leaves] at this
    simp only [List.length_append, List.length_replicate]
    omega)
  exact ⟨bytes, by rw [← hb]; rfl⟩

/-- The longest well-formed header, of 257 leaves (V15.5). -/
theorem witness_ReadTreeReadsTree_longest :
    (comb 256#9 255).leaves = 257 ∧ (∀ sym ∈ (comb 256#9 255).symbols, sym.toNat ≤ 256) ∧
    ∃ bytes, (idle bytes).source.rest = (comb 256#9 255).serialize ++ List.replicate 6 false :=
  ⟨comb_leaves _ _, fun _ hs => by rw [comb_symbols _ _ _ hs]; decide, exists_comb _ 255 6 354 (by norm_num)⟩

/-- V15.3, after the leaf 0 four bits of a leaf value; and an empty source. -/
theorem witness_ReadTreeRefuses_ends :
    HeaderOpen [none, some 0#9] ∧
    (idle [0x40#8, 0x10#8]).source.rest = headerBits [none, some 0#9] ++ [true, false, false, false, false] ∧
    [true, false, false, false, false].head? = some true ∧ [true, false, false, false, false].length < 10 ∧
    HeaderOpen [] ∧ (idle []).source.rest = headerBits [] ++ [] := by
  refine ⟨⟨by decide, by decide⟩, by decide +kernel, by decide, by decide, ⟨by decide, by decide⟩, rfl⟩

/-- n internal nodes, then leaves. -/
def rake (n : Nat) (leaves : List Sym) : List (Option Sym) := List.replicate n none ++ leaves.map some

theorem rake_values (n : Nat) (leaves : List Sym) : leafValues (rake n leaves) = leaves := by
  induction n with
  | zero => simp [rake, leafValues, List.filterMap_map]
  | succ n ih => exact ih

theorem rake_bits (n : Nat) (leaves : List Sym) : (headerBits (rake n leaves)).length = n + 10 * leaves.length := by
  induction n with
  | zero =>
    induction leaves with
    | nil => rfl
    | cons v leaves ih =>
      have : (headerBits (rake 0 (v :: leaves))).length = 10 + (headerBits (rake 0 leaves)).length := by
        simp [rake, headerBits]; omega
      rw [this, ih]; simp; omega
  | succ n ih =>
    have : headerBits (rake (n + 1) leaves) = false :: headerBits (rake n leaves) := rfl
    rw [this, List.length_cons, ih]; omega

theorem rake_left (n m : Nat) (leaves : List Sym) :
    subtreesLeft (m + 1) (rake n leaves) = m + 1 + n - leaves.length := by
  induction n generalizing m with
  | zero =>
    have : ∀ k, subtreesLeft k (leaves.map some) = k - leaves.length := by
      induction leaves with
      | nil => intro k; cases k <;> rfl
      | cons v leaves ih => intro k; cases k <;> simp [subtreesLeft, ih]
    simpa [rake] using this (m + 1)
  | succ n ih =>
    have : subtreesLeft (m + 1) (rake (n + 1) leaves) = subtreesLeft (m + 2) (rake n leaves) := rfl
    rw [this, ih]; omega

theorem exists_leaves (n : Nat) (hn : n ≤ 257) :
    ∃ leaves : List Sym, leaves.length = n ∧ ∀ v ∈ leaves, v.toNat ≤ Config.pseudoEof := by
  refine ⟨(List.range n).map (BitVec.ofNat 9), by rw [List.length_map, List.length_range], ?_⟩
  intro v hv
  obtain ⟨i, hi, rfl⟩ := List.mem_map.mp hv
  have h1 := List.mem_range.mp hi
  have h2 := Nat.mod_le i (2 ^ 9)
  rw [BitVec.toNat_ofNat]
  show _ ≤ 256
  omega

/-- V15.4: 257 internal nodes and 256 leaves, and the tag of one more. -/
theorem witness_ReadTreeRefuses_capacity : ∃ nodes bytes, HeaderOpen nodes ∧ nodes.length = 513 ∧
    (leafValues nodes).length = 256 ∧ (headerBits nodes).length + 1 = 2818 ∧
    (idle bytes).source.rest = headerBits nodes ++ true :: List.replicate 22 false := by
  obtain ⟨leaves, hl, hs⟩ := exists_leaves 256 (by omega)
  have hb := rake_bits 257 leaves
  obtain ⟨bytes, h⟩ := exists_bytes 355 (headerBits (rake 257 leaves) ++ true :: List.replicate 22 false)
    (by rw [List.length_append, hb, hl, List.length_cons, List.length_replicate])
  have hr : (idle bytes).source.rest = bitsOfBytes bytes := rfl
  refine ⟨rake 257 leaves, bytes, ⟨?_, by rwa [rake_values]⟩, ?_, by rw [rake_values, hl], by omega, hr.trans h⟩
  · have := rake_left 257 0 leaves
    simp only [Nat.zero_add] at this
    omega
  · rw [rake, List.length_append, List.length_replicate, List.length_map, hl]

/-- V15.2, with the value 511; and 257, the least value that is no symbol, after one leaf. -/
theorem witness_ReadTreeRefuses_badSymbol :
    HeaderOpen [none] ∧ [none (α := Sym)].length < 513 ∧
    (idle [0x7F#8, 0xE0#8]).source.rest = headerBits [none] ++ (true :: binOf 9 (511#9 : Sym).toNat ++ List.replicate 5 false) ∧
    256 < (511#9 : Sym).toNat ∧ HeaderOpen [none, some 256#9] ∧ 256 < (257#9 : Sym).toNat ∧
    (idle [0x60#8, 0x18#8, 0x08#8]).source.rest =
      headerBits [none, some 256#9] ++ (true :: binOf 9 (257#9 : Sym).toNat ++ List.replicate 3 false) := by
  refine ⟨⟨by decide, by decide⟩, by decide, by decide +kernel, by decide, ⟨by decide, by decide⟩, by decide, by decide +kernel⟩

/-- V15.1. -/
theorem witness_ReadTreeRefuses_degenerate :
    (idle [0xC0#8, 0x00#8]).source.rest = true :: binOf 9 (256#9 : Sym).toNat ++ List.replicate 6 false ∧
    (256#9 : Sym).toNat ≤ 256 := by decide

theorem witness_HeaderRoundTrips :
    MemoryOk codesAb ∧ TreeInv codesAb ∧ codesAb.status.treeValid = true ∧ codesAb.status.sinkClosed = false ∧
    exec .writeTree codesAb = .next (after (exec .writeTree codesAb)) ∧
    (reading (idle []) streamAb 32).source.rest =
      (after (exec .writeTree codesAb)).sink.out.drop codesAb.sink.out.length ++
        [true, false, true, true, false, false, false, false] :=
  ⟨memoryOk_codesAb, fun _ => treeOk_codesAb, rfl, rfl, goes_after (by decide +kernel), by decide +kernel⟩

/-- The clauses at 256 and 257, with and without a codeword. -/
theorem witness_EncSymAppendsCodeword :
    256 < (257#9 : Sym).toNat ∧ (256#9 : Sym).toNat ≤ 256 ∧ codesAb.status.codesValid = true ∧
    codesAb.status.sinkClosed = false ∧ (codeAt codesAb.code (256#9 : Sym).toNat).len ≠ 0#9 ∧
    (codeAt codesAb.code (255#9 : Sym).toNat).len = 0#9 := by decide

theorem witness_EncodeWritesPayload :
    codesAb.status.codesValid = true ∧ codesAb.status.sinkClosed = false ∧
    (∀ b ∈ codesAb.source.rewind.bytes, codesAb.codeword b.toNat ≠ []) ∧ codesAb.codeword 256 ≠ [] := by decide

/-- V17's 'Z' after one byte, a code table without 256, and a COMPRESS whose second pass reads a byte the first did not
(93 I21). -/
theorem witness_EncodeStopsAtMissingCodeword :
    (reading codesAb [0x61#8, 0x5A#8] 0).source.rewind.bytes = [0x61#8] ++ 0x5A#8 :: [] ∧
    (∀ c ∈ [(0x61#8 : Byte)], codesAb.codeword c.toNat ≠ []) ∧ codesAb.codeword (0x5A#8 : Byte).toNat = [] ∧
    ({ codesAb with code := codeAb.take 2 } : State).status.codesValid = true ∧
    (∀ c ∈ codesAb.source.rewind.bytes, ({ codesAb with code := codeAb.take 2 } : State).codeword c.toNat ≠ []) ∧
    ({ codesAb with code := codeAb.take 2 } : State).codeword 256 = [] ∧
    ({ idle [] with source := ⟨[], [srcAb, [0x63#8]], 0⟩ } : State).status.sinkClosed = false ∧
    (after (exec .compress { idle [] with source := ⟨[], [srcAb, [0x63#8]], 0⟩ })).err = ⟨0x22#8, true, 0x63#32⟩ := by
  decide +kernel

theorem witness_FlushPadsAndCloses :
    (closed (idle [])).status.sinkClosed = true ∧ (idle []).status.sinkClosed = false := by decide

/-- The pseudo-EOF, and another symbol. -/
theorem witness_DecSymDecodesOneSymbol :
    TreeOk (reading treeAb streamAb 64) ∧ TreeOk (reading treeAb streamAb 68) ∧ treeAb.status.treeValid = true ∧
    treeAb.status.sinkClosed = false ∧ (reading treeAb streamAb 64).tree = some tAb ∧
    tAb.isPath [true, false] 97#9 = true ∧ tAb.isPath [false] 256#9 = true ∧
    (reading treeAb streamAb 64).source.rest = [true, false] ++ [true, true, false, false, false, false] ∧
    (reading treeAb streamAb 68).source.rest = [false] ++ [false, false, false] ∧
    (97#9 : Sym).toNat ≠ 256 ∧ (256#9 : Sym).toNat = 256 :=
  ⟨treeOk_reading _ _, treeOk_reading _ _, rfl, rfl, by decide +kernel, by decide, by decide, by decide +kernel,
    by decide +kernel, by decide, by decide⟩

/-- Two bytes before the pseudo-EOF, and none. -/
theorem witness_DecodeStopsAtPseudoEof :
    let words : List (Byte × List Bool) := [(97#8, [true, false]), (98#8, [true, true])]
    treeAb.status.treeValid = true ∧ TreeOk (reading treeAb streamAb 64) ∧ treeAb.status.sinkClosed = false ∧
    (reading treeAb streamAb 64).tree = some tAb ∧
    (∀ w ∈ words, tAb.isPath w.2 (w.1.setWidth 9) = true) ∧ tAb.isPath [false] 256#9 = true ∧
    (reading treeAb streamAb 64).source.rest = words.flatMap Prod.snd ++ ([false] ++ [false, false, false]) ∧
    (reading treeAb streamAb 68).source.rest =
      ([] : List (Byte × List Bool)).flatMap Prod.snd ++ ([false] ++ [false, false, false]) :=
  ⟨rfl, treeOk_reading _ _, rfl, by decide +kernel, by decide, by decide, by decide +kernel, by decide +kernel⟩

theorem witness_DecodeInvertsEncode :
    MemoryOk (reading codesAb streamAb 64) ∧ TreeInv (reading codesAb streamAb 64) ∧
    CodeInv (reading codesAb streamAb 64) ∧ codesAb.status.codesValid = true ∧ codesAb.status.sinkClosed = false ∧
    (∀ b ∈ srcAb, codesAb.codeword b.toNat ≠ []) ∧ codesAb.codeword 256 ≠ [] ∧
    (reading codesAb streamAb 64).source.rest = codesAb.payload srcAb ++ [false, false, false] :=
  ⟨memoryOk_codesAb, fun _ => treeOk_codesAb.congr rfl rfl rfl rfl rfl, fun _ => ⟨rfl, tAb, by decide +kernel, by decide +kernel⟩,
    rfl, rfl, by decide, by decide, by decide +kernel⟩

/-- A path cut after its first bit, alone and after a byte, and a source with no bit left. -/
theorem witness_DecodingRunsOutOfBits :
    TreeOk (reading treeAb [0x81#8] 7) ∧ (reading treeAb [0x81#8] 7).tree = some tAb ∧
    treeAb.status.treeValid = true ∧ treeAb.status.sinkClosed = false ∧
    tAb.isPath ((reading treeAb [0x81#8] 7).source.rest ++ [false]) 97#9 = true ∧ [false] ≠ [] ∧
    tAb.isPath ((reading treeAb [0x81#8] 8).source.rest ++ [false]) 256#9 = true ∧
    (reading treeAb [0x85#8] 5).source.rest = ([(97#8, [true, false])] : List (Byte × List Bool)).flatMap Prod.snd ++ [true] ∧
    tAb.isPath ([true] ++ [true]) 98#9 = true :=
  ⟨treeOk_reading _ _, by decide +kernel, rfl, rfl, by decide +kernel, by decide, by decide +kernel, by decide +kernel,
    by decide⟩

/-- A stable source of two bytes, and an empty one. -/
theorem witness_CompressWritesStream :
    (idle srcAb).status.sinkClosed = false ∧ (idle srcAb).stable = true ∧
    (∀ b : Byte, (idle srcAb).source.bytes.count b < 2 ^ 32) ∧ (idle []).stable = true ∧
    (∀ b : Byte, (idle []).source.bytes.count b < 2 ^ 32) :=
  ⟨rfl, rfl, witness_CountCountsBytes, rfl, by intro b; simp [idle]⟩

theorem witness_DecompressReadsStream :
    let words : List (Byte × List Bool) := [(97#8, [true, false]), (98#8, [true, true])]
    (idle streamAb).status.sinkClosed = false ∧
    bitsOfBytes (idle streamAb).source.rewind.bytes =
      binOf 32 (idle streamAb).magic.toNat ++
        (tAb.serialize ++ (words.flatMap Prod.snd ++ ([false] ++ [false, false, false]))) ∧
    (∀ sym ∈ tAb.symbols, sym.toNat ≤ 256) ∧ tAb.leaves ≤ 257 ∧
    (∀ w ∈ words, tAb.isPath w.2 (w.1.setWidth 9) = true) ∧ tAb.isPath [false] 256#9 = true := by decide +kernel

/-- Three bytes, four bytes that are not the magic, and V15.2's header behind the magic. -/
theorem witness_DecompressRejectsBadMagic :
    (idle (streamAb.take 3)).status.sinkClosed = false ∧ (idle (streamAb.take 3)).source.rewind.bytes.length < 4 ∧
    bitsOfBytes (idle [0x41#8, 0x42#8, 0x43#8, 0x44#8]).source.rewind.bytes = binOf 32 (0x41424344#32).toNat ++ [] ∧
    (0x41424344#32 : Word) ≠ (idle []).magic ∧
    (after (exec .decompress (idle (streamAb.take 4 ++ [0x7F#8, 0xE0#8])))).err = ⟨0x31#8, true, 0x1FF#32⟩ := by
  decide +kernel

theorem witness_CompressionRoundTrips :
    (idle srcAb).status.sinkClosed = false ∧ (idle srcAb).stable = true ∧ (idle srcAb).sink.out = [] ∧
    (∀ b : Byte, (idle srcAb).source.bytes.count b < 2 ^ 32) ∧
    (after (exec .compress (idle srcAb))).sink.out = bitsOfBytes streamAb ∧
    (idle streamAb).source.bytes = streamAb ∧ (idle streamAb).source.later = [] ∧
    (idle streamAb).magic = (idle srcAb).magic :=
  ⟨rfl, rfl, rfl, witness_CountCountsBytes, by decide +kernel, rfl, rfl, rfl⟩

/-- Cuts inside the magic, at its end, inside the tree, at its end, and before the last byte (V20). -/
theorem witness_TruncatedStreamsFail :
    (idle srcAb).sink.out = [] ∧ exec .compress (idle srcAb) = .next (after (exec .compress (idle srcAb))) ∧
    (after (exec .compress (idle srcAb))).status.done = true ∧
    (after (exec .compress (idle srcAb))).sink.out = bitsOfBytes streamAb ∧
    (∀ k ∈ [0, 3, 4, 7, 8], k < streamAb.length ∧ (idle (streamAb.take k)).source.rewind.bytes = streamAb.take k) ∧
    (idle (streamAb.take 3)).status.sinkClosed = false ∧ (idle (streamAb.take 3)).magic = (idle srcAb).magic :=
  ⟨rfl, goes_after (by decide +kernel), by decide +kernel, by decide +kernel, by decide +kernel, rfl, rfl⟩

/-- A command that reads, one that writes, one that builds. -/
theorem witness_FrameOfMemories :
    goes (exec .decSym (reading treeAb streamAb 64)) = true ∧ goes (exec (.encSym 97#9) codesAb) = true ∧
    goes (exec .build treeAb) = true := by decide +kernel

theorem witness_FrameOfRegistersAndFlags :
    goes (exec .encode codesAb) = true ∧ (after (exec .encode codesAb)).status.done = true ∧
    goes (exec .encode (idle [])) = true ∧ (after (exec .encode (idle []))).status.done = false ∧
    goes (exec .compress (closed (idle []))) = true := by decide +kernel

theorem witness_FrameOfStreams :
    goes (exec .readTree (reading (idle []) streamAb 32)) = true ∧
    (reading (idle []) streamAb 32).source.rp ≤ (reading (idle []) streamAb 32).source.size ∧
    goes (exec .decompress (idle [])) = true ∧ (after (exec .decompress (idle []))).status.err = true ∧
    (idle []).status.sinkClosed = false := by decide +kernel

/-- Each reason of a bus error, the read-only offsets, and a read as the host's next move. -/
theorem witness_BusErrorsHaveNoEffect :
    (0x002#16 : Offset).toNat % 4 ≠ 0 ∧ regAt (0x044#16 : Offset).toNat = none ∧ regAt (0x804#16 : Offset).toNat = none ∧
    regAt (0x800#16 : Offset).toNat ≠ none ∧ (0x020 ≤ (0x020#16 : Offset).toNat ∧ State.reset.busy = true) ∧
    (0x00C#16 : Offset).toNat ∉ [0x004, 0x008, 0x010] ∧ ¬ (0x400 ≤ (0x804#16 : Offset).toNat ∧ (0x804#16 : Offset).toNat < 0x804) ∧
    (0x040#16 : Offset).toNat % 4 = 0 ∧
    ({ idle [] with host := [.read 0x000#16 .word 0b1111#4] } : State).host = [.read 0x000#16 .word 0b1111#4] := by
  decide

theorem witness_RegistersRead : (idle []).busy = false := rfl

theorem witness_ControlWritesAndIrq :
    (0xFFFFFFF6#32 : Word).getLsbD 0 = false ∧ (0x7#32 : Word).getLsbD 0 = true ∧
    ({ idle [] with host := [.pinReset] } : State).host = .pinReset :: [] := by decide

/-- The first and the last entry of each window. -/
theorem witness_FreqWindow : MemoryOk codesAb ∧ codesAb.busy = false ∧ 0 < 257 ∧ 256 < 257 :=
  ⟨memoryOk_codesAb, rfl, by decide, by decide⟩

theorem witness_NodeWindow :
    codesAb.busy = false ∧ 512 < 513 ∧ 4 < codesAb.nodeCount.toNat ∧ codesAb.nodeCount.toNat ≤ 5 ∧
    codesAb.nodeCount.toNat ≤ 512 := by decide

theorem witness_CodeWindow :
    codesAb.busy = false ∧ codesAb.status.codesValid = true ∧ treeAb.busy = false ∧
    treeAb.status.codesValid = false ∧ 256 < 257 := by decide

theorem witness_ResetFromAnyState :
    codesAb.busy = false ∧ State.reset.host = [] ∧ State.reset.seq = .init := ⟨rfl, rfl, rfl⟩

/-- A CTRL write, a dropped CMD write and a hold while a command executes. -/
theorem witness_NothingChangesDuringExec :
    (∀ a ∈ [HostAction.write 0x004#16 .word 0b1111#4 6#32, .write 0x008#16 .word 0b1111#4 0x10#32, .hold],
      a ≠ .run ∧ a.isReset = false ∧
      goes (step { idle [] with seq := .exec 0x70#32, host := [a] }) = true) ∧
    ({ idle [] with seq := .exec 0x70#32 } : State).busy = true := by decide +kernel

theorem long_not_fits (n : Nat) (hn : ¬ 8 * n < 2 ^ 64) : sourceFits (List.replicate n 0#8) = false := by
  unfold sourceFits; rw [List.length_replicate]; exact decide_eq_false hn

/-- A source that is too long. -/
theorem witness_HostMoves_tooLong : ∃ bytes : List Byte,
    (sourceFits bytes && ([] : List (List Byte)).all sourceFits) = false := by
  obtain ⟨n, hn⟩ : ∃ n, ¬ 8 * n < 2 ^ 64 := ⟨2 ^ 64, by omega⟩
  exact ⟨List.replicate n 0#8, by rw [long_not_fits n hn]; rfl⟩

/-- A write and a hold, binding while busy, binding while idle with RP that fits and with RP that does not, binding a sink
and taking its bytes while a command executes, and the two kinds of moves of a WAIT. -/
theorem witness_HostMoves :
    ({ State.reset with host := [.bindSource srcAb []] } : State).busy = true ∧
    ({ idle [] with host := [.bindSource srcAb [[]]] } : State).busy = false ∧ sourceFits srcAb = true ∧
    ([[]] : List (List Byte)).all sourceFits = true ∧ (reading (idle []) streamAb 16).source.rp ≤ 8 * srcAb.length ∧
    ¬ (reading (idle []) streamAb 17).source.rp ≤ 8 * srcAb.length ∧
    (∀ a ∈ [hostWr 0x400#16 7#32, .hold, .bindSink, .takeSink, hostRd 0x00C#16, .run],
      goes (step { idle srcAb with seq := .exec 0x70#32, host := [a] }) = true) ∧
    (idle []).busy = false ∧ (idle []).host = [] ∧ (idle []).seq = .idle := by decide +kernel

/-- A stable source, and a bit of its second byte. -/
theorem witness_SourceReads : (idle srcAb).source.later = [] ∧ srcAb[15 / 8]? = some 0x62#8 := by decide

end Sys2Proof.Tests
end

/-! # What every step keeps (10_state R34–R40, R42; 60_exceptions R114) -/

namespace Sys2Proof.Machine

/-! ## RP within the source -/

theorem move_keeps_sourceOk {s t : State} (hs : SourceOk s) (h : Move s t) : SourceOk t := by
  cases h with
  | command t v i _ _ he =>
    exact exec_keeps he hs (fun _ u => sourceOk_body i s u hs) (fun _ hu => hu) (fun _ _ hu => hu)
  | bind bytes later _ h1 h2 => exact ⟨(bindSource_rp s bytes later).1, h1, h2⟩
  | pass r => exact sourceOk_of_eq hs (letTimePass_source s)
  | bindSink => exact sourceOk_of_eq hs (bindSink_source s)
  | reset r => exact sourceOk_rewind hs rfl
  | initEnds | quiet | illegal | ctrl | drop | accept | irq | freq => exact hs

/-- Settles O10, by the inversion of `step`: bodies read on or rewind, binding puts RP within the new source. -/
theorem sourceStaysInRange : Obligations.SourceStaysInRange := fun _ _ hs h =>
  step_keeps (P := SourceOk) (fun _ _ hs => hs) (fun _ _ => move_keeps_sourceOk) hs h

/-! ## The sink port's view of OUT -/

/-- An empty, open OUT asks nothing of the port (20_memory R47). -/
theorem sinkOk_of_empty {s : State} (ho : s.sink.out = []) (hc : s.status.sinkClosed = false) : SinkOk s :=
  ⟨⟨s.sink.port, by rw [ho, hc]; simp [wholeBytes]⟩, by simp [hc]⟩

theorem move_keeps_sinkOk {s t : State} (hs : SinkOk s) (h : Move s t) : SinkOk t := by
  cases h with
  | command t v i _ _ he =>
    exact exec_keeps he hs (fun hp _ => sinkOk_body i hp hs) (fun _ hu => hu) (fun _ _ hu => hu)
  | pass r => exact sinkOk_of_eq hs (letTimePass_sink s) (congrArg Status.sinkClosed (letTimePass_status s))
  | bindSink => exact sinkOk_of_eq hs (bindSink_sink s) (congrArg Status.sinkClosed (bindSink_status s))
  | reset r => exact sinkOk_of_empty rfl rfl
  | initEnds | quiet | illegal | ctrl | drop | accept | irq | freq | bind => exact hs

/-- Settles O11, by the inversion of `step`: bodies append and flush, CLEAR and reset empty OUT. -/
theorem sinkStaysDelivered : Obligations.SinkStaysDelivered := fun _ _ hs h =>
  step_keeps (P := SinkOk) (fun _ _ hs => hs) (fun _ _ => move_keeps_sinkOk) hs h

/-! ## The error record -/

theorem errorOk_of_eq {s t : State} (hs : ErrorOk s) (he : t.err = s.err) (hst : t.status = s.status)
    (hq : t.seq = s.seq) : ErrorOk t := by
  simpa only [ErrorOk, State.busy, he, hst, hq] using hs

/-- While the sequencer is idle only the record itself has to be consistent (10_state R23, R24). -/
theorem errorOk_of_idle {s : State} (hq : s.seq = .idle) (h1 : s.status.err = true ↔ s.err.code ≠ 0#8)
    (h2 : s.err.infoValid = false → s.err.info = 0#32) (h3 : s.status.err = false → s.err.infoValid = false) :
    ErrorOk s :=
  ⟨h1, h2, h3, by simp [hq], by simp [State.busy, hq]⟩

/-- The error entry makes the record consistent in any state (60_exceptions R112). -/
theorem errorOk_raiseError (e : Raise) (s : State) : ErrorOk (raiseError e s) := by
  obtain ⟨kind, info⟩ := e
  cases info <;> exact errorOk_of_idle rfl
    (by simp [Status.failed, Raise.record, ErrorKind.code_ne_zero])
    (by simp [Raise.record]) (by simp [Status.failed])

/-- Completing keeps the record that the body left, CLEAR's 0 or the one before (40_control R82, R85). -/
theorem errorOk_complete {i : Instr} {s u : State} (hs : ErrorOk s) (hu : bodyOf i s = .ok u) :
    ErrorOk (complete u) := by
  by_cases hi : i = .clear
  · subst hi
    obtain rfl := clearBody_shape (.inl hu)
    exact errorOk_of_idle rfl (by simp [ErrRecord.clear, Status.completed]) (fun _ => rfl) (fun _ => rfl)
  · obtain ⟨h1, h2⟩ := (bodyOf_around (.inl hu)).2 hi
    obtain ⟨k1, k2, k3, _⟩ := hs
    rw [← h1, ← h2] at k1 k3
    rw [← h2] at k2
    exact errorOk_of_idle rfl k1 k2 k3

theorem move_keeps_errorOk {s t : State} (hs : ErrorOk s) (h : Move s t) : ErrorOk t := by
  have ⟨h1, h2, h3, _, _⟩ := hs
  cases h with
  | initEnds => exact errorOk_of_idle rfl h1 h2 h3
  | command t v i _ _ he =>
    rcases exec_next he with ⟨_, u, hu, rfl⟩ | ⟨_, e, u, _, rfl⟩ | ⟨e, _, _, rfl⟩ | ⟨e, _, _, rfl⟩
    · exact errorOk_complete hs hu
    · exact errorOk_raiseError e u
    · exact errorOk_raiseError e s
    · exact errorOk_raiseError e s
  | illegal v e => exact errorOk_raiseError _ s
  | accept v _ ha =>
    refine ⟨h1, h2, h3, fun w hw he => ?_, fun _ => rfl⟩
    cases hw
    exact ha he
  | pass r => exact errorOk_of_eq hs (letTimePass_err s) (letTimePass_status s) (letTimePass_seq s)
  | bindSink => exact errorOk_of_eq hs (bindSink_err s) (bindSink_status s) (bindSink_seq s)
  | reset r => exact ⟨by simp [State.reset], fun _ => rfl, fun _ => rfl, by simp, fun _ => rfl⟩
  | quiet | ctrl | drop | irq | freq | bind => exact hs

/-- Settles O12, by the inversion of `step`: only the error entry and CLEAR's body write the record. -/
theorem errorRecordStaysConsistent : Obligations.ErrorRecordStaysConsistent := fun _ _ hs h =>
  step_keeps (P := ErrorOk) (fun _ _ hs => hs) (fun _ _ => move_keeps_errorOk) hs h

/-! ## The tree, the code table and the memories -/

theorem move_keeps_treeInv {s t : State} (hs : TreeInv s) (h : Move s t) : TreeInv t := by
  cases h with
  | command t v i _ _ he =>
    exact exec_keeps he hs (fun _ u => treeInv_body i s u hs) (fun _ hu => hu) (fun _ _ hu => hu)
  | pass r =>
    exact treeInv_of_eq hs (letTimePass_arena s) (letTimePass_resets s) (letTimePass_root s) (letTimePass_nodeCount s)
      (letTimePass_leafCount s) (congrArg Status.treeValid (letTimePass_status s))
  | bindSink =>
    exact treeInv_of_eq hs (bindSink_arena s) (bindSink_resets s) (bindSink_root s) (bindSink_nodeCount s)
      (bindSink_leafCount s) (congrArg Status.treeValid (bindSink_status s))
  | reset r => exact fun hv => nomatch hv
  | initEnds | quiet | illegal | ctrl | drop | accept | irq | freq | bind => exact hs

/-- Settles O14, by the inversion of `step`: BUILD and READ_TREE make a tree, nothing else touches one. -/
theorem treeStaysATree : Obligations.TreeStaysATree := fun _ _ hs h =>
  step_keeps (P := TreeInv) (fun _ _ hs => hs) (fun _ _ => move_keeps_treeInv) hs h

theorem move_keeps_codeInv {s t : State} (hs : CodeInv s) (h : Move s t) : CodeInv t := by
  cases h with
  | command t v i _ _ he =>
    exact exec_keeps he hs (fun hp _ => codeInv_body i hp hs) (fun _ hu => hu) (fun _ _ hu => hu)
  | pass r =>
    have hst := letTimePass_status s
    exact codeInv_of_eq hs (letTimePass_code s) (letTimePass_arena s) (letTimePass_resets s) (letTimePass_root s)
      (congrArg Status.treeValid hst) (congrArg Status.codesValid hst)
  | bindSink =>
    have hst := bindSink_status s
    exact codeInv_of_eq hs (bindSink_code s) (bindSink_arena s) (bindSink_resets s) (bindSink_root s)
      (congrArg Status.treeValid hst) (congrArg Status.codesValid hst)
  | reset r => exact codeInv_invalid rfl
  | initEnds | quiet | illegal | ctrl | drop | accept | irq | freq | bind => exact hs

/-- Settles O15, by the inversion of `step`: GENCODES makes the table, and a command that makes another
tree drops it. -/
theorem codesStayThoseOfTheTree : Obligations.CodesStayThoseOfTheTree := fun _ _ hs h =>
  step_keeps (P := CodeInv) (fun _ _ hs => hs) (fun _ _ => move_keeps_codeInv) hs h

/-- A write of a symbol's entry keeps FREQ canonical over the symbols (10_state R34). -/
theorem memoryOk_freqSet {s : State} (hs : MemoryOk s) {k : Nat} (hk : k < 257) (v : Word) :
    MemoryOk { s with freq := freqSet s.freq k v } := by
  obtain ⟨⟨hwf, hlt⟩, hrest⟩ := hs
  refine ⟨⟨freqSet_wf hwf k v, fun e he => ?_⟩, hrest⟩
  rcases Memory.mem_write he with hm | rfl
  · exact hlt e hm
  · exact hk

/-- Empty memories and an empty arena are in form. -/
theorem memoryOk_of_empty {s : State} (hf : s.freq = []) (hc : s.code = []) (ha : s.arena = [])
    (hn : s.nodeCount = 0#10) : MemoryOk s := by
  simp [MemoryOk, Memory.wf, hf, hc, ha, hn]

/-- The memories with the tree, whose symbols bound the entries GENCODES writes. -/
theorem move_keeps_memoryInv {s t : State} (hs : MemoryInv s) (h : Move s t) : MemoryInv t := by
  refine ⟨?_, move_keeps_treeInv hs.2 h⟩
  have ⟨hm, _⟩ := hs
  cases h with
  | command t v i _ _ he =>
    exact (exec_keeps (Q := MemoryInv) he hs (fun hp _ => memory_body i hp hs) (fun _ hu => hu) (fun _ _ hu => hu)).1
  | freq k v hk _ => exact memoryOk_freqSet hm hk v
  | pass r =>
    exact memoryOk_of_eq hm (letTimePass_freq s) (letTimePass_code s) (letTimePass_arena s) (letTimePass_nodeCount s)
  | bindSink => exact memoryOk_of_eq hm (bindSink_freq s) (bindSink_code s) (bindSink_arena s) (bindSink_nodeCount s)
  | reset r => exact memoryOk_of_empty rfl rfl rfl rfl
  | initEnds | quiet | illegal | ctrl | drop | accept | irq | bind => exact hm

/-- Settles O13, by the inversion of `step`, with the tree invariant carried along for GENCODES. -/
theorem memoriesStayCanonical : Obligations.MemoriesStayCanonical := fun _ _ hm ht h =>
  (step_keeps (P := MemoryInv) (fun _ _ hs => hs) (fun _ _ => move_keeps_memoryInv) ⟨hm, ht⟩ h).1

/-! ## Right after reset -/

/-- Settles O16: right after reset the memories and OUT are empty and the flags 0. -/
theorem resetMeetsInvariant : Obligations.ResetMeetsInvariant := by
  refine ⟨memoryOk_of_empty rfl rfl rfl rfl, ⟨le_rfl, by decide, rfl⟩, sinkOk_of_empty rfl rfl, ?_,
    fun hv => (nomatch hv), codeInv_invalid rfl, rfl⟩
  exact ⟨by decide, fun _ => rfl, fun _ => rfl, fun _ hq => (nomatch hq), fun _ => rfl⟩

/-! # The codewords of a valid code table (43_codegen R93) -/

/-- A symbol's codeword, where it has one, is the path of a leaf with that symbol, and below L bits. -/
theorem codeword_isPath {s : State} {l r : Tree} (hL : (Tree.node l r).leaves ≤ 257)
    (hc : s.code = codeTable ((Tree.node l r).codes 0 0#256)) {a : Nat} (h : s.codeword a ≠ []) :
    ∃ sym, sym.toNat = a ∧ (Tree.node l r).isPath (s.codeword a) sym = true ∧
      (s.codeword a).length + 1 ≤ (Tree.node l r).leaves := by
  rcases codeword_cases hL hc a with ⟨hu, _⟩ | ⟨sym, bits, hs, hp, hb, _, _, hlen⟩
  · rw [State.codeword, hu] at h
    exact absurd Code.unset_bits h
  · rw [State.codeword, hb]
    exact ⟨sym, hs, hp, hlen⟩

/-- Settles O26: the codewords are paths to leaves of the tree, and no path of a tree begins another. -/
theorem codewordsAreAPrefixCode : Obligations.CodewordsAreAPrefixCode := by
  intro s hm ht hci hv
  obtain ⟨l, r, htree, hleaves, hL, hcode, _, _⟩ := codes_valid hm ht hci hv
  have path := fun a => codeword_isPath (a := a) (hleaves.trans_le hL) hcode
  refine ⟨fun a b ha hab => ?_, fun a => ?_, hL, fun a => ⟨fun ha => ?_, ?_⟩, fun a more ha hr => ?_⟩
  · have hb : s.codeword b ≠ [] := fun hb => ha (List.prefix_nil.mp (hb ▸ hab))
    obtain ⟨x, rfl, hx, _⟩ := path a ha
    obtain ⟨y, rfl, hy, _⟩ := path b hb
    rw [(Tree.path_prefixFree hx hy hab).2]
  · by_cases ha : s.codeword a = []
    · exact .inr ha
    · obtain ⟨_, _, _, hlen⟩ := path a ha
      exact .inl (hleaves ▸ hlen)
  · obtain ⟨sym, hs, hp, _⟩ := path a ha
    exact ⟨_, htree, sym, Tree.path_symbol hp, hs⟩
  · rintro ⟨tr, htr, sym, hsym, rfl⟩
    cases htree.symm.trans htr
    exact codeword_of_symbol (hleaves.trans_le hL) hcode hsym
  · obtain ⟨sym, rfl, hp, _⟩ := path a ha
    rw [BitVec.ofNat_toNat, BitVec.setWidth_eq]
    exact walkSym_path htree hp hr

end Sys2Proof.Machine

/-! # What a command leaves unchanged (10_state R19–R37) -/

namespace Sys2Proof.Machine

/-! ## Which commands write which part of the datapath -/

/-- The parts of the datapath that 10_state gives a list of writing commands. -/
inductive StatePart where
  | freq
  | code
  | arena
  | treeRegs
  | hdrBits
  | result
  | eofSeen
  | treeFlags
  | codesValid
  | magicOk
  | sinkClosed

/-- The commands that may write a part (10_state R21, R26–R30, R34, R35, R37). -/
@[simp] def StatePart.writers : StatePart → List Instr
  | .freq => [.clear, .count, .compress]
  | .code => [.clear, .gencodes, .compress]
  | .arena => [.build, .readTree, .compress, .decompress]
  | .treeRegs => [.clear, .build, .readTree, .compress, .decompress]
  | .hdrBits => [.clear, .writeTree, .readTree, .compress, .decompress]
  | .result => [.clear, .decSym, .decode, .decompress]
  | .eofSeen => [.clear, .decSym, .decode, .readTree, .decompress]
  | .treeFlags => [.clear, .build, .readTree, .compress, .decompress]
  | .codesValid => [.clear, .build, .readTree, .gencodes, .compress, .decompress]
  | .magicOk => [.clear, .readMagic, .decompress]
  | .sinkClosed => [.clear, .flush, .compress, .decompress]

/-- The part is the same in both states. -/
@[simp] def StatePart.Same (s u : State) : StatePart → Prop
  | .freq => u.freq = s.freq
  | .code => u.code = s.code
  | .arena => u.arena = s.arena
  | .treeRegs => u.nodeCount = s.nodeCount ∧ u.root = s.root ∧ u.leafCount = s.leafCount
  | .hdrBits => u.hdrBits = s.hdrBits
  | .result => u.result = s.result
  | .eofSeen => u.status.eofSeen = s.status.eofSeen
  | .treeFlags => u.status.treeValid = s.status.treeValid ∧ u.status.treeSrc = s.status.treeSrc
  | .codesValid => u.status.codesValid = s.status.codesValid
  | .magicOk => u.status.magicOk = s.status.magicOk
  | .sinkClosed => u.status.sinkClosed = s.status.sinkClosed

/-- Every part that the command does not write is the same. -/
def Unchanged (i : Instr) (s u : State) : Prop := ∀ p : StatePart, i ∉ p.writers → p.Same s u

theorem StatePart.Same.trans {s t u : State} {p : StatePart} (h1 : p.Same s t) (h2 : p.Same t u) : p.Same s u := by
  cases p <;> simp_all

theorem StatePart.same_refl (s : State) (p : StatePart) : p.Same s s := by
  cases p <;> simp

/-- SinkFlush changes none of the parts but SINK_CLOSED, which every flushing command lists (20_memory R48). -/
theorem StatePart.same_sinkFlush (s : State) {i : Instr} {p : StatePart} (hp : i ∉ p.writers)
    (hi : i ∈ StatePart.sinkClosed.writers := by decide) : p.Same s s.sinkFlush := by
  unfold State.sinkFlush
  split
  · exact StatePart.same_refl s p
  · cases p with
    | sinkClosed => exact absurd hi hp
    | _ => simp

/-- Each command but COMPRESS and DECOMPRESS leaves the parts it does not write. -/
theorem bodyOf_unchanged {i : Instr} {s u : State} (hm : i ≠ .compress ∧ i ≠ .decompress)
    (h : (bodyOf i s).Ends u) : Unchanged i s u := by
  intro p hp
  cases i with
  | nop => rw [bodyOf, nopBody, Run.ends_ok] at h; subst h; exact StatePart.same_refl _ p
  | clear => obtain rfl := clearBody_shape h; cases p <;> simp at hp ⊢
  | count => obtain ⟨_, _, _, _, rfl⟩ := countBody_shape h; cases p <;> simp at hp ⊢
  | build =>
    obtain rfl | ⟨_, _, _, rfl⟩ := buildBody_shape h
    · exact StatePart.same_refl _ p
    · cases p <;> simp at hp ⊢
  | gencodes => obtain ⟨_, _, rfl⟩ := gencodesBody_shape h; cases p <;> simp at hp ⊢
  | writeMagic => obtain rfl := writeMagicBody_shape h; cases p <;> simp
  | writeTree => obtain ⟨_, _, _, rfl⟩ := writeTreeBody_shape h; cases p <;> simp at hp ⊢
  | readMagic => obtain ⟨_, _, _, rfl⟩ := readMagicBody_shape h; cases p <;> simp at hp ⊢
  | readTree =>
    obtain ⟨_, _, _, _, _, _, _, rfl⟩ := readTreeBody_shape h
    cases p <;> simp [Status.treeReadStart] at hp ⊢
  | encSym sym => obtain ⟨_, rfl⟩ := encSymBody_shape h; cases p <;> simp
  | encode => obtain ⟨_, _, _, rfl⟩ := encodeBody_shape h; cases p <;> simp
  | flush => obtain rfl := flushBody_shape h; exact StatePart.same_sinkFlush s hp
  | decSym => obtain ⟨_, _, _, _, _, _, rfl⟩ := decSymBody_shape h; cases p <;> simp at hp ⊢
  | decode => obtain ⟨_, _, _, _, _, _, rfl⟩ := decodeBody_shape h; cases p <;> simp at hp ⊢
  | compress => exact absurd rfl hm.1
  | decompress => exact absurd rfl hm.2

/-- A part that a command does not write stays the same through it, as any earlier state had it. -/
theorem keeps_same (s : State) {i : Instr} {p : StatePart} (hp : i ∉ p.writers)
    (hm : i ≠ .compress ∧ i ≠ .decompress := by decide) : Keeps (fun t => p.Same s t) (bodyOf i) :=
  fun _ _ hs h => hs.trans (bodyOf_unchanged hm h p hp)

/-- COMPRESS leaves the parts that it does not write, because none of its components writes them (47_macro R106). -/
theorem compressBody_unchanged {s u : State} (h : (compressBody s).Ends u) : Unchanged .compress s u := by
  intro p hp
  have sub : ∀ i ∈ [Instr.count, .build, .gencodes, .writeMagic, .writeTree, .encode], i ∉ p.writers := by
    cases p <;> simp at hp ⊢
  exact compressBody_keeps (Q := fun u => p.Same s u) (keeps_same s (sub .count (by simp)))
    (keeps_same s (sub .build (by simp))) (keeps_same s (sub .gencodes (by simp)))
    (keeps_same s (sub .writeMagic (by simp))) (keeps_same s (sub .writeTree (by simp)))
    (keeps_same s (sub .encode (by simp)))
    (fun t ht => ht.trans (StatePart.same_sinkFlush t hp)) (StatePart.same_refl s p) h

/-- DECOMPRESS leaves the parts that it does not write, because none of its components writes them (47_macro R107). -/
theorem decompressBody_unchanged {s u : State} (h : (decompressBody s).Ends u) : Unchanged .decompress s u := by
  intro p hp
  have sub : ∀ i ∈ [Instr.readMagic, .readTree, .decode], i ∉ p.writers := by
    cases p <;> simp at hp ⊢
  have start : ∀ t, p.Same s t → p.Same s (decompressStart t) := fun t ht => ht.trans (by
    cases p <;> simp [decompressStart] at hp ⊢)
  exact decompressBody_keeps (Q := fun u => p.Same s u) start (keeps_same s (sub .readMagic (by simp)))
    (keeps_same s (sub .readTree (by simp))) (keeps_same s (sub .decode (by simp)))
    (fun t ht => ht.trans (StatePart.same_sinkFlush t hp)) (StatePart.same_refl s p) h

/-- A command leaves every part that it does not write, however it ends. -/
theorem exec_unchanged {i : Instr} {s t : State} (h : exec i s = .next t) : Unchanged i s t := by
  have body : ∀ u, (bodyOf i s).Ends u → Unchanged i s u := by
    intro u hu
    by_cases hc : i = .compress
    · subst hc; exact compressBody_unchanged hu
    · by_cases hd : i = .decompress
      · subst hd; exact decompressBody_unchanged hu
      · exact bodyOf_unchanged ⟨hc, hd⟩ hu
  refine exec_keeps h (P := Unchanged i s) (fun p _ => StatePart.same_refl s p) (fun _ => body) (fun u hu p hp => ?_)
    (fun e u hu p hp => ?_)
  · exact (hu p hp).trans (by cases p <;> simp [Status.completed])
  · exact (hu p hp).trans (by cases p <;> simp [Status.failed])

/-! ## Entries above NODE_COUNT -/

/-- No entry from the NODE_COUNT of the later state upwards has changed (10_state R35). -/
def NodesAbove (s u : State) : Prop := ∀ n, u.nodeCount.toNat ≤ n → u.node n = s.node n

theorem node_of_eq {s u : State} (ha : u.arena = s.arena) (hr : u.resets = s.resets) (n : Nat) :
    u.node n = s.node n := by
  rw [State.node, State.node, ha, hr]

theorem bodyOf_resets {i : Instr} {s u : State} (h : (bodyOf i s).Ends u) : u.resets = s.resets := by
  obtain ⟨_, _, _, _, _, _, _, hr, _⟩ := (bodyOf_around h).1
  exact hr

/-- BUILD writes the entries below the NODE_COUNT it leaves (42_build R89). -/
theorem buildBody_nodesAbove {s u : State} (h : (buildBody s).Ends u) : NodesAbove s u := by
  by_cases hf : freqAt s.freq 256 = 0#32
  · rw [buildBody_badFreq hf, Run.ends_raise] at h
    subst h
    exact fun _ _ => rfl
  · obtain ⟨nodes, k, _, _, hlen, _, hb⟩ := buildBody_ok hf
    obtain ⟨_, hL, _⟩ := buildLeaves_spec hf
    rw [hb, Run.ends_ok] at h
    subst h
    intro n hn
    refine node_above rfl rfl (le_trans ?_ hn)
    simp only [BitVec.toNat_ofNat]
    omega

/-- READ_TREE writes the entries below the NODE_COUNT it leaves (44_header R97). -/
theorem readTreeBody_nodesAbove {s u : State} (h : (readTreeBody s).Ends u) : NodesAbove s u := by
  obtain ⟨p, _, _, _, hcap, hlen, _, rfl⟩ := readTreeBody_shape h
  intro n hn
  refine node_above rfl rfl (le_trans ?_ hn)
  simp only [Config.nodeCap] at hcap
  simp only [commitParse_nodeCount, BitVec.toNat_ofNat]
  omega

/-- A body that writes neither the arena nor NODE_COUNT leaves the entries above as they were. -/
theorem keeps_nodesAbove (s : State) (i : Instr) (hm : i ≠ .compress ∧ i ≠ .decompress := by decide)
    (ha : i ∉ StatePart.arena.writers := by decide) (hr : i ∉ StatePart.treeRegs.writers := by decide) :
    Keeps (NodesAbove s) (bodyOf i) := by
  intro t u ht h n hn
  rw [(bodyOf_unchanged hm h .treeRegs hr).1] at hn
  exact (node_of_eq (bodyOf_unchanged hm h .arena ha) (bodyOf_resets h) n).trans (ht n hn)

/-- What holds where one body ends, and what the next makes of it, holds where both in a row end. -/
theorem Run.ends_andThen_of {r : Run} {f : State → Run} {P Q : State → Prop} (hr : ∀ t, r.Ends t → P t)
    (hPQ : ∀ t, P t → Q t) (hf : ∀ t u, P t → (f t).Ends u → Q u) : ∀ u, (r.andThen f).Ends u → Q u := by
  intro u h
  rcases Run.ends_andThen h with ⟨e, h⟩ | ⟨t, h, hu⟩
  · exact hPQ u (hr u (.inr ⟨e, h⟩))
  · exact hf t u (hr t (.inl h)) hu

/-- The arena is the one of s, with the same hidden contents. -/
def SameNodes (s u : State) : Prop := u.arena = s.arena ∧ u.resets = s.resets

theorem SameNodes.nodesAbove {s u : State} (h : SameNodes s u) : NodesAbove s u := fun n _ => node_of_eq h.1 h.2 n

theorem SameNodes.trans_above {s t u : State} (h : SameNodes s t) (hu : NodesAbove t u) : NodesAbove s u :=
  fun n hn => (hu n hn).trans (node_of_eq h.1 h.2 n)

theorem nodesAbove_flush {s t : State} (h : NodesAbove s t) : NodesAbove s t.sinkFlush := fun n hn =>
  (node_of_eq (sinkFlush_arena t) (sinkFlush_resets t) n).trans (h n (sinkFlush_nodeCount t ▸ hn))

theorem bodyOf_sameNodes {i : Instr} {s u : State} (h : (bodyOf i s).Ends u)
    (hm : i ≠ .compress ∧ i ≠ .decompress := by decide) (ha : i ∉ StatePart.arena.writers := by decide) :
    SameNodes s u :=
  ⟨bodyOf_unchanged hm h .arena ha, bodyOf_resets h⟩

/-- COMPRESS writes the arena in BUILD only (47_macro R106). -/
theorem compressBody_nodesAbove {s u : State} (h : (compressBody s).Ends u) : NodesAbove s u := by
  obtain ⟨t, ht, rfl⟩ := Run.ends_flush h
  refine nodesAbove_flush ?_
  have h1 : ∀ t, (countBody s).Ends t → SameNodes s t := fun _ => (bodyOf_sameNodes (i := .count) ·)
  have h2 := Run.ends_andThen_of h1 (fun _ => SameNodes.nodesAbove) fun _ _ ht hu =>
    ht.trans_above (buildBody_nodesAbove hu)
  have h3 := Run.ends_andThen_of h2 (fun _ => id) (keeps_nodesAbove s .gencodes)
  have h4 := Run.ends_andThen_of h3 (fun _ => id) (keeps_nodesAbove s .writeMagic)
  have h5 := Run.ends_andThen_of h4 (fun _ => id) (keeps_nodesAbove s .writeTree)
  exact Run.ends_andThen_of h5 (fun _ => id) (keeps_nodesAbove s .encode) t ht

/-- DECOMPRESS writes the arena in READ_TREE only (47_macro R107). -/
theorem decompressBody_nodesAbove {s u : State} (h : (decompressBody s).Ends u) : NodesAbove s u := by
  obtain ⟨t, ht, rfl⟩ := Run.ends_flush h
  refine nodesAbove_flush ?_
  have h1 : ∀ t, (readMagicBody (decompressStart s)).Ends t → SameNodes s t := fun _ ht =>
    bodyOf_sameNodes (i := .readMagic) (s := decompressStart s) ht
  have h2 := Run.ends_andThen_of h1 (fun _ => SameNodes.nodesAbove) fun _ _ ht hu =>
    ht.trans_above (readTreeBody_nodesAbove hu)
  exact Run.ends_andThen_of h2 (fun _ => id) (keeps_nodesAbove s .decode) t ht

/-- Every command leaves the entries from the NODE_COUNT it leaves upwards. -/
theorem bodyOf_nodesAbove {i : Instr} {s u : State} (h : (bodyOf i s).Ends u) : NodesAbove s u := by
  by_cases ha : i ∈ StatePart.arena.writers
  · simp only [StatePart.writers, List.mem_cons, List.not_mem_nil, or_false] at ha
    rcases ha with rfl | rfl | rfl | rfl
    · exact buildBody_nodesAbove h
    · exact readTreeBody_nodesAbove h
    · exact compressBody_nodesAbove h
    · exact decompressBody_nodesAbove h
  · exact (bodyOf_sameNodes h (by constructor <;> rintro rfl <;> simp at ha) ha).nodesAbove

theorem exec_nodesAbove {i : Instr} {s t : State} (h : exec i s = .next t) : NodesAbove s t :=
  exec_keeps h (P := NodesAbove s) (fun _ _ => rfl) (fun _ _ => bodyOf_nodesAbove) (fun _ hu => hu) (fun _ _ hu => hu)

/-! ## What no command writes -/

/-- The fields that no command writes stay, and of the two interrupt bits the one of the other way to end
(10_state R22, 40_control R82, 60_exceptions R112). -/
def AroundKept (s t : State) : Prop :=
  (t.ctrl = s.ctrl ∧ t.magic = s.magic ∧ t.host = s.host ∧ t.reply = s.reply ∧ t.taken = s.taken ∧
    t.sinkFrom = s.sinkFrom ∧ t.resets = s.resets ∧ t.draws = s.draws ∧ t.status.cmdDropped = s.status.cmdDropped) ∧
  (t.status.done = false → t.irq.doneIrq = s.irq.doneIrq) ∧ (t.status.done = true → t.irq.errIrq = s.irq.errIrq)

theorem exec_around {i : Instr} {s t : State} (h : exec i s = .next t) : AroundKept s t := by
  refine exec_keeps h (P := SameAround s) (by simp [SameAround]) (fun _ _ hu => (bodyOf_around hu).1) ?_ ?_
  · rintro u ⟨h1, h2, h3, h4, h5, h6, h7, h8, h9, _, _, h10⟩
    exact ⟨⟨h1, h3, h4, h5, h6, h7, h8, h9, h10⟩, fun hd => (nomatch hd), fun _ => by simp [h2]⟩
  · rintro e u ⟨h1, h2, h3, h4, h5, h6, h7, h8, h9, _, _, h10⟩
    exact ⟨⟨h1, h3, h4, h5, h6, h7, h8, h9, h10⟩, fun _ => by simp [h2], fun hd => (nomatch hd)⟩

/-- Settles O47: each memory is a part with its own list of writers, and BUILD and READ_TREE write below NODE_COUNT. -/
theorem frameOfMemories : Obligations.FrameOfMemories := by
  intro i s t h
  have same := exec_unchanged h
  obtain ⟨⟨_, _, _, _, _, _, hr, _⟩, _⟩ := exec_around h
  refine ⟨fun h1 h2 h3 k => ?_, fun h1 h2 h3 k => ?_, fun h1 h2 h3 h4 n => ?_, exec_nodesAbove h⟩
  · rw [same .freq (by simp [*])]
  · rw [same .code (by simp [*])]
  · exact node_of_eq (same .arena (by simp [*])) hr n

/-- COMPRESS and DECOMPRESS flush on every path, and are refused on a closed sink only (47_macro R106, R107). -/
theorem wholeStream_leaves_sinkClosed {i : Instr} {s t : State} (hi : i = .compress ∨ i = .decompress)
    (h : exec i s = .next t) : t.status.sinkClosed = true := by
  have flushed : ∀ u, (bodyOf i s).Ends u → u.status.sinkClosed = true := by
    intro u hu
    rcases hi with rfl | rfl <;> obtain ⟨v, _, rfl⟩ := Run.ends_flush hu <;> exact sinkFlush_sinkClosed v
  rcases exec_next h with ⟨_, u, hu, rfl⟩ | ⟨_, e, u, hu, rfl⟩ | ⟨e, _, hwf, _⟩ | ⟨e, _, hp, rfl⟩
  · exact flushed u (.inl hu)
  · exact flushed u (.inr ⟨e, hu⟩)
  · rcases hi with rfl | rfl <;> cases hwf
  · rcases hi with rfl | rfl <;> simpa [pre, Status.failed] using hp

/-- Settles O48: each group of registers and flags is a part with its own list of writers. -/
theorem frameOfRegistersAndFlags : Obligations.FrameOfRegistersAndFlags := by
  intro i s t h
  have same := exec_unchanged h
  obtain ⟨⟨h1, h2, h3, h4, h5, h6, h7, h8, h9⟩, h10, h11⟩ := exec_around h
  exact ⟨h1, h2, h3, h4, h5, h6, h7, h8,
    fun _ _ _ _ _ => same .treeRegs (by simp [*]),
    fun _ _ _ _ _ => same .hdrBits (by simp [*]),
    fun _ _ _ _ => same .result (by simp [*]),
    h9,
    fun _ _ _ _ _ => same .eofSeen (by simp [*]),
    fun _ _ _ _ _ => same .treeFlags (by simp [*]),
    fun _ _ _ _ _ _ => same .codesValid (by simp [*]),
    fun _ _ _ => same .magicOk (by simp [*]),
    fun _ _ _ _ => same .sinkClosed (by simp [*]),
    fun hi => wholeStream_leaves_sinkClosed hi h, h10, h11⟩

end Sys2Proof.Machine

/-! # The register window (10_state R17–R37, 20_memory R53–R56) -/

namespace Sys2Proof.Machine

/-! ## Accesses -/

/-- An access that reaches nothing is a bus error with no effect (20_memory R55). -/
theorem busErr_of_unreached {s : State} {off : Offset} {size : AccessSize} {strb : BitVec 4}
    (h : accessed s off size strb = none) (v : Word) :
    memRead s off size strb = .busErr ∧ memWrite s off size strb v = (.busErr, s) := by
  simp [memRead, memWrite, h]

/-- A write to a read-only register or window is a bus error with no effect (20_memory R55). -/
theorem memWrite_readOnly {s : State} {off : Offset} {size : AccessSize} {strb : BitVec 4} {r : Reg}
    (h : accessed s off size strb = some r) (hr : r.readOnly = true) (v : Word) :
    memWrite s off size strb v = (.busErr, s) := by
  simp [memWrite, h, hr]

/-- Outside CTRL, CMD, IRQ_STATUS and the FREQ window everything mapped is read-only (10_state R17). -/
theorem regAt_readOnly {off : Nat} {r : Reg} (h : regAt off = some r) (h1 : off ∉ [0x004, 0x008, 0x010])
    (h2 : ¬ (0x400 ≤ off ∧ off < 0x804)) : r.readOnly = true := by
  rw [regAt, if_neg h2] at h
  split at h
  · cases h; rfl
  · split at h
    · cases h; rfl
    · exact fixedRegAt_readOnly h h1

/-- The mapped offsets (10_state R17, R34, R35, R37). -/
theorem regAt_mapped {off : Nat} (h4 : off % 4 = 0) :
    regAt off ≠ none ↔ off ≤ 0x040 ∨ (0x400 ≤ off ∧ off < 0x804) ∨ (0x1000 ≤ off ∧ off < 0x3010) ∨
      (0x4000 ≤ off ∧ off < 0x8040) := by
  unfold regAt
  split
  · next h => simp; omega
  · split
    · next h => simp; omega
    · split
      · next h => simp; omega
      · rw [fixedRegAt_mapped off h4]; omega

/-- Settles O50, by the inversion of `accessed` and the register map. -/
theorem busErrorsHaveNoEffect : Obligations.BusErrorsHaveNoEffect := by
  refine ⟨fun s off size strb v hbad => busErr_of_unreached ?_ v, fun s off v h1 h2 => ?_,
    fun off h4 => regAt_mapped h4, fun s off size strb rest hh => by rw [step, hh]; rfl⟩
  · cases ha : accessed s off size strb with
    | none => rfl
    | some r =>
      obtain ⟨h4, hsize, hstrb, hr, hgate⟩ := accessed_some ha
      rcases hbad with hb | hb | hb | hb | ⟨hle, hb⟩
      · exact absurd h4 hb
      · exact absurd hsize hb
      · exact absurd hstrb hb
      · cases hr.symm.trans hb
      · cases (hgate hle).symm.trans hb
  · cases ha : accessed s off .word 0b1111#4 with
    | none => exact (busErr_of_unreached ha v).2
    | some r =>
      obtain ⟨_, _, _, hr, _⟩ := accessed_some ha
      exact memWrite_readOnly ha (regAt_readOnly hr h1 h2) v

/-- A write of a whole word to a writable register that is not gated has the register's effect (20_memory R55). -/
theorem busWrite_reg {s : State} {off : Offset} {r : Reg} (h : regAt off.toNat = some r) (h4 : off.toNat % 4 = 0)
    (hb : s.busy = false ∨ off.toNat < 0x20) (hr : r.readOnly = false) (v : Word) :
    busWrite s off v = (.ok, writeReg s v r) := by
  have ha : accessed s off .word 0b1111#4 = some r := by
    unfold accessed alignedWord gated
    rcases hb with hb | hb <;> simp [h4, hb, h]
  simp [busWrite, memWrite, ha, hr]

/-! ## Words of fields -/

theorem getLsbD_flagAt (b : Bool) (pos j : Nat) :
    (flagAt b pos).getLsbD j = (b && decide (j = pos) && decide (j < 32)) := by
  cases b
  · simp [flagAt]
  · simp only [flagAt, if_true, BitVec.getLsbD_shiftLeft, BitVec.getLsbD_one, Bool.true_and]
    grind

theorem statusWord_fields (s : State) :
    s.statusWord = 0#22 ++ BitVec.ofBool s.status.cmdDropped ++ BitVec.ofBool s.status.sinkClosed ++
      BitVec.ofBool s.status.magicOk ++ BitVec.ofBool s.status.codesValid ++ BitVec.ofBool s.status.treeSrc ++
      BitVec.ofBool s.status.treeValid ++ BitVec.ofBool s.status.eofSeen ++ BitVec.ofBool s.status.err ++
      BitVec.ofBool s.status.done ++ BitVec.ofBool s.busy := by
  refine BitVec.eq_of_getLsbD_eq fun j hj => ?_
  simp only [State.statusWord, BitVec.getLsbD_or, getLsbD_flagAt, BitVec.getLsbD_append, BitVec.getLsbD_ofBool]
  interval_cases j <;> simp

theorem ctrlWord_fields (c : Ctrl) : c.word = 0#29 ++ BitVec.ofBool c.errIe ++ BitVec.ofBool c.doneIe ++ 0#1 := by
  refine BitVec.eq_of_getLsbD_eq fun j hj => ?_
  simp only [Ctrl.word, BitVec.getLsbD_or, getLsbD_flagAt, BitVec.getLsbD_append, BitVec.getLsbD_ofBool]
  interval_cases j <;> simp

theorem irqWord_fields (q : IrqStatus) : q.word = 0#30 ++ BitVec.ofBool q.errIrq ++ BitVec.ofBool q.doneIrq := by
  refine BitVec.eq_of_getLsbD_eq fun j hj => ?_
  simp only [IrqStatus.word, BitVec.getLsbD_or, getLsbD_flagAt, BitVec.getLsbD_append, BitVec.getLsbD_ofBool]
  interval_cases j <;> simp

theorem errCodeWord_fields (e : ErrRecord) : e.codeWord = 0#23 ++ BitVec.ofBool e.infoValid ++ e.code := by
  refine BitVec.eq_of_getLsbD_eq fun j hj => ?_
  simp only [ErrRecord.codeWord, BitVec.getLsbD_or, getLsbD_flagAt, BitVec.getLsbD_append, BitVec.getLsbD_ofBool]
  interval_cases j <;> simp

theorem resultWord_fields (r : Result) : r.word = BitVec.ofBool r.valid ++ 0#22 ++ r.sym := by
  refine BitVec.eq_of_getLsbD_eq fun j hj => ?_
  simp only [Result.word, BitVec.getLsbD_or, getLsbD_flagAt, BitVec.getLsbD_append, BitVec.getLsbD_ofBool]
  interval_cases j <;> simp

/-- The TAG word of a node (10_state R35). -/
theorem nodeTag_fields (n : Node) : n.word 0 = 0#7 ++ n.sym ++ 0#15 ++ BitVec.ofBool n.leaf := by
  refine BitVec.eq_of_getLsbD_eq fun j hj => ?_
  change (flagAt n.leaf 0 ||| n.sym.setWidth 32 <<< 16).getLsbD j = _
  simp only [BitVec.getLsbD_or, getLsbD_flagAt, BitVec.getLsbD_append, BitVec.getLsbD_ofBool]
  interval_cases j <;> simp

/-- The LINK word of a node (10_state R35). -/
theorem nodeLink_fields (n : Node) : n.word 3 = 0#6 ++ n.r ++ 0#6 ++ n.l := by
  refine BitVec.eq_of_getLsbD_eq fun j hj => ?_
  change (n.l.setWidth 32 ||| n.r.setWidth 32 <<< 16).getLsbD j = _
  simp only [BitVec.getLsbD_or, BitVec.getLsbD_append]
  interval_cases j <;> simp

/-- A field at bit 0 with zeros above it. -/
theorem setWidth_eq_zero_append {n k : Nat} (x : BitVec n) : x.setWidth (k + n) = 0#k ++ x := by
  apply BitVec.eq_of_toNat_eq
  have hx : x.toNat < 2 ^ (k + n) := lt_of_lt_of_le x.isLt (Nat.pow_le_pow_right (by omega) (by omega))
  simp [BitVec.toNat_append, Nat.mod_eq_of_lt hx]

/-- The low word of a 64-bit count (10_state R31, R32). -/
theorem countLow (n : Nat) : (BitVec.ofNat 64 n).extractLsb' 0 32 = BitVec.ofNat 32 n := by
  apply BitVec.eq_of_toNat_eq
  simp only [BitVec.extractLsb'_toNat, BitVec.toNat_ofNat, Nat.shiftRight_zero]
  omega

/-- The high word of a 64-bit count (10_state R31, R32). -/
theorem countHigh (n : Nat) : (BitVec.ofNat 64 n).extractLsb' 32 32 = BitVec.ofNat 32 (n / 2 ^ 32) := by
  apply BitVec.eq_of_toNat_eq
  simp only [BitVec.extractLsb'_toNat, BitVec.toNat_ofNat, Nat.shiftRight_eq_div_pow]
  omega

/-! ## The fixed registers -/

/-- Settles O51: each offset reaches its register, and each word has its fields where the rules put them. -/
theorem registersRead : Obligations.RegistersRead := by
  refine ⟨fun s => ?_, fun s hb => ?_⟩
  · have low : ∀ (off : Offset) (r : Reg), regAt off.toNat = some r → off.toNat % 4 = 0 → off.toNat < 0x20 →
        busRead s off = .data (readReg s r) := fun _ _ h h4 hl => busRead_reg h h4 (.inr hl)
    rw [← ctrlWord_fields, ← statusWord_fields, ← irqWord_fields, ← errCodeWord_fields]
    exact ⟨low _ .id rfl rfl (by decide), low _ .cmd rfl rfl (by decide), low _ .magic rfl rfl (by decide),
      low _ .errInfo rfl rfl (by decide), low _ .ctrl rfl rfl (by decide), low _ .status rfl rfl (by decide),
      low _ .irqStatus rfl rfl (by decide), low _ .errCode rfl rfl (by decide)⟩
  · have idle : ∀ (off : Offset) (r : Reg), regAt off.toNat = some r → off.toNat % 4 = 0 →
        busRead s off = .data (readReg s r) := fun _ _ h h4 => busRead_reg h h4 (.inl hb)
    rw [← resultWord_fields, ← countHigh, ← countHigh, ← countLow, ← countLow]
    simp only [← setWidth_eq_zero_append]
    exact ⟨idle _ .result rfl rfl, idle _ .nodeCount rfl rfl, idle _ .root rfl rfl, idle _ .leafCount rfl rfl,
      idle _ .hdrBits rfl rfl, idle _ .inPosLo rfl rfl, idle _ .inPosHi rfl rfl, idle _ .outCntLo rfl rfl,
      idle _ .outCntHi rfl rfl⟩

/-- Settles O52: the effect of a write to each of the two registers, and the irq line as a disjunction. -/
theorem controlWritesAndIrq : Obligations.ControlWritesAndIrq := by
  have write : ∀ (s : State) (off : Offset) (r : Reg) (v : Word), regAt off.toNat = some r → off.toNat % 4 = 0 →
      off.toNat < 0x20 → r.readOnly = false → busWrite s off v = (.ok, writeReg s v r) :=
    fun _ _ _ v h h4 hl hr => busWrite_reg h h4 (.inr hl) hr v
  have ctrl : ∀ (s : State) (v : Word), busWrite s 0x004#16 v = (.ok, writeReg s v .ctrl) :=
    fun s v => write s _ .ctrl v rfl rfl (by decide) rfl
  refine ⟨fun s v hv => ?_, fun s v rest hv => ⟨?_, fun hh => ?_⟩,
    fun s v => write s _ .irqStatus v rfl rfl (by decide) rfl, fun s => ?_⟩
  · rw [ctrl, writeReg, if_neg (Bool.eq_false_iff.mp hv)]; rfl
  · rw [ctrl, writeReg, if_pos hv]
  · rw [step, hh]; rfl
  · simp [State.irqLine]

/-! ## The windows -/

/-- The offset of an access is the number it is made of, below 64 KiB (20_memory R44). -/
theorem offset_toNat {n : Nat} (hn : n < 65536) : (BitVec.ofNat 16 n).toNat = n := by
  rw [BitVec.toNat_ofNat, Nat.mod_eq_of_lt hn]

/-- A read of a window's word while BUSY = 0. -/
theorem busRead_window {s : State} (hb : s.busy = false) {n : Nat} {r : Reg} (h : regAt n = some r) (hn : n < 65536)
    (h4 : n % 4 = 0) : busRead s (BitVec.ofNat 16 n) = .data (readReg s r) :=
  busRead_reg (by rwa [offset_toNat hn]) (by rwa [offset_toNat hn]) (.inl hb)

theorem regAt_freqWord {k : Nat} (hk : k < 257) : regAt (0x400 + 4 * k) = some (.freq k) := by
  rw [regAt, if_pos (by omega), show (0x400 + 4 * k - 0x400) / 4 = k by omega]

theorem regAt_nodeWord {i j : Nat} (hi : i < 513) (hj : j < 4) :
    regAt (0x1000 + 16 * i + 4 * j) = some (.node i j) := by
  rw [regAt, if_neg (by omega), if_pos (by omega), show (0x1000 + 16 * i + 4 * j - 0x1000) / 16 = i by omega,
    show (0x1000 + 16 * i + 4 * j - 0x1000) / 4 % 4 = j by omega]

theorem regAt_codeWord {k j : Nat} (hk : k < 257) (hj : j < 16) :
    regAt (0x4000 + 64 * k + 4 * j) = some (.code k j) := by
  rw [regAt, if_neg (by omega), if_neg (by omega), if_pos (by omega),
    show (0x4000 + 64 * k + 4 * j - 0x4000) / 64 = k by omega,
    show (0x4000 + 64 * k + 4 * j - 0x4000) / 4 % 16 = j by omega]

/-- Settles O53: the window's word is the entry, and a write is a memory write. -/
theorem freqWindow : Obligations.FreqWindow := by
  intro s k v hm hb hk
  obtain ⟨⟨hwf, _⟩, _⟩ := hm
  have ho := offset_toNat (n := 0x400 + 4 * k) (by omega)
  refine ⟨busRead_window hb (regAt_freqWord hk) (by omega) (by omega), freqSet s.freq k v, ?_,
    freqAt_freqSet_same hwf k v, fun j hj => freqAt_freqSet_other s.freq hj v⟩
  exact busWrite_reg (r := .freq k) (by rw [ho]; exact regAt_freqWord hk) (by rw [ho]; omega) (.inl hb) rfl v

/-- Settles O54: the four words of an entry in use, and 0 from NODE_COUNT up. -/
theorem nodeWindow : Obligations.NodeWindow := by
  intro s i hb hi
  have read : ∀ j, j < 4 → busRead s (BitVec.ofNat 16 (0x1000 + 16 * i + 4 * j)) = .data (readReg s (.node i j)) :=
    fun j hj => busRead_window hb (regAt_nodeWord hi hj) (by omega) (by omega)
  refine ⟨fun hn => ?_, fun hn j hj => ?_⟩
  · simp only [readReg, if_pos hn] at read
    rw [← nodeTag_fields, ← nodeLink_fields]
    exact ⟨read 0 (by decide), read 1 (by decide), read 2 (by decide), read 3 (by decide)⟩
  · rw [read j hj, readReg, if_neg (by omega)]

/-- Settles O55: the sixteen words of an entry while CODES_VALID = 1, and 0 else. -/
theorem codeWindow : Obligations.CodeWindow := by
  intro s k hb hk
  have read : ∀ j, j < 16 → busRead s (BitVec.ofNat 16 (0x4000 + 64 * k + 4 * j)) = .data (readReg s (.code k j)) :=
    fun j hj => busRead_window hb (regAt_codeWord hk hj) (by omega) (by omega)
  refine ⟨fun hv => ?_, fun hv j hj => ?_⟩
  · simp only [readReg, if_pos hv] at read
    refine ⟨?_, fun j hj => ?_, fun j h9 hj => ?_⟩
    · rw [← setWidth_eq_zero_append]; exact read 0 (by decide)
    · rw [show 0x4000 + 64 * k + 4 + 4 * j = 0x4000 + 64 * k + 4 * (j + 1) by omega, read (j + 1) (by omega), Code.word,
        if_neg (by omega), if_pos (by omega), Nat.add_sub_cancel]
    · rw [read j hj, Code.word, if_neg (by omega), if_neg (by omega)]
  · rw [read j hj, readReg, if_neg (by simp [hv])]

/-! ## After reset -/

/-- Settles O56, by running the step that ends INIT and reading each register. -/
theorem resetValues : Obligations.ResetValues := by
  have magic : busRead { State.reset with seq := .idle } 0x01C#16 = .data Config.huffMagic :=
    busRead_reg (r := .magic) rfl rfl (.inl rfl)
  refine ⟨by decide +kernel, { State.reset with seq := .idle }, rfl, rfl, rfl, ?_, by decide +kernel, magic,
    fun _ => rfl, fun _ => rfl, rfl, rfl⟩
  simp only [List.mem_cons, List.not_mem_nil, or_false, forall_eq_or_imp, forall_eq]
  refine ⟨?_, ?_, ?_, ?_, ?_, ?_, ?_, ?_, ?_, ?_, ?_, ?_, ?_, ?_, ?_⟩ <;> decide +kernel

end Sys2Proof.Machine

/-! # The streams and the host (20_memory R43–R63) -/

namespace Sys2Proof.Machine

/-! ## What the port has seen -/

theorem veil_letTimePass (s : State) : (letTimePass s).veil = s.veil := by
  unfold letTimePass; split <;> rfl

/-- What reached the port before the executing command stays seen (20_memory R63). -/
theorem port_prefix_portSeen (s : State) : s.sink.port <+: portSeen s := List.prefix_append _ _

theorem portSeen_idle {s : State} (h : s.seq = .idle) : portSeen s = s.sink.port := by
  simp [portSeen, pendingBytes_idle h]

theorem portSeen_init {s : State} (h : s.seq = .init) : portSeen s = s.sink.port := by
  simp [portSeen, pendingBytes, h]

theorem seq_of_not_busy {s : State} (h : s.busy = false) : s.seq = .idle := by
  unfold State.busy at h; split at h <;> simp_all

/-- While no command executes, what leaves the port alone takes nothing back. -/
theorem portSeen_prefix_of_not_busy {s t : State} (hb : s.busy = false) (hp : t.sink.port = s.sink.port) :
    portSeen s <+: portSeen t := by
  rw [portSeen_idle (seq_of_not_busy hb), ← hp]
  exact port_prefix_portSeen t

/-- A command that ends has given the port everything the sink took while it ran (20_memory R63). -/
theorem portSeen_prefix_of_run {s t : State} {v : Word} (hs : s.seq = .exec v) (h : runCommand v s = .next t) :
    portSeen s <+: portSeen t := by
  obtain ⟨rest, hp⟩ := pendingBytes_prefix hs h
  have seen : portSeen s <+: t.sink.port := by
    rw [hp]
    exact (List.prefix_append_right_inj _).mpr ((List.take_prefix _ _).trans (List.prefix_append _ _))
  exact seen.trans (port_prefix_portSeen t)

theorem portSeen_prefix_letTimePass (s : State) : portSeen s <+: portSeen (letTimePass s) :=
  portSeen_of_veil (veil_letTimePass s) (taken_letTimePass s)

/-- No kind of move takes back what the port has seen (20_memory R61, 70_reset R122). -/
theorem move_port_grows {s t : State} (h : Move s t) : portSeen s <+: portSeen t := by
  cases h with
  | initEnds hs => rw [portSeen_init hs]; exact port_prefix_portSeen { s with seq := .idle }
  | command t v i hs hd he => exact portSeen_prefix_of_run hs (by rw [runCommand, hd]; exact he)
  | illegal v e hs hd => exact portSeen_prefix_of_run hs (by rw [runCommand, hd])
  | quiet | ctrl | drop | irq => exact portSeen_of_veil rfl le_rfl
  | accept v hb | freq k v hk hb | bind _ _ hb => exact portSeen_prefix_of_not_busy hb rfl
  | pass r => exact portSeen_of_veil (veil_letTimePass s) (taken_letTimePass s)
  | bindSink => rw [(portSeen_bindSink s).1]; exact portSeen_prefix_letTimePass s
  | reset r => exact (portSeen_prefix_letTimePass s).trans (port_prefix_portSeen { softReset s with reply := r })

/-- Settles O17, by the inversion of `step`: a command that ends has delivered the bytes taken of it, and a reset keeps
them. -/
theorem sinkNeverRetracts : Obligations.SinkNeverRetracts := fun s _ h =>
  step_keeps (P := fun u => portSeen s <+: portSeen u) (fun _ _ hs => hs.trans (portSeen_of_veil rfl le_rfl))
    (fun _ _ hs hm => hs.trans (move_port_grows hm)) List.prefix_rfl h

/-! ## FLUSH -/

/-- Settles O37: FLUSH has no precondition and its body is SinkFlush. -/
theorem flushPadsAndCloses : Obligations.FlushPadsAndCloses := by
  intro s
  have flush : exec .flush s = .next s.sinkFlush.completed := exec_ok rfl rfl rfl
  refine ⟨fun hc => ?_, fun ho => ⟨s.sink.close, ?_, Sink.close_closed s.sink⟩⟩
  · rw [flush, sinkFlush_closed _ hc]
  · rw [flush, sinkFlush_open _ ho]

/-! ## The source under a command -/

/-- What every end of a command's body has made of the streams holds of them when the command has ended. -/
theorem exec_keeps_streams {R : Source → Sink → Prop} {i : Instr} {s t : State} (h : exec i s = .next t)
    (hs : R s.source s.sink) (hb : ∀ u, (bodyOf i s).Ends u → R u.source u.sink) : R t.source t.sink :=
  exec_keeps (P := fun u => R u.source u.sink) (Q := fun u => R u.source u.sink) h hs (fun _ => hb) (fun _ hu => hu)
    (fun _ _ hu => hu)

/-- The commands that rewind (20_memory R46). -/
@[simp] def rewinders : List Instr := [.clear, .count, .encode, .compress, .decompress]

/-- The commands that read on from where the source stands (20_memory R45). -/
@[simp] def readersOn : List Instr := [.readMagic, .readTree, .decSym, .decode]

/-- A body that neither rewinds nor reads leaves the source as it is. -/
theorem bodyOf_source_same {i : Instr} {s u : State} (h : (bodyOf i s).Ends u) (hw : i ∉ rewinders)
    (hr : i ∉ readersOn) : u.source = s.source := by
  cases i with
  | nop => rw [bodyOf, nopBody, Run.ends_ok] at h; rw [h]
  | build => obtain rfl | ⟨_, _, _, rfl⟩ := buildBody_shape h <;> rfl
  | gencodes => obtain ⟨_, _, rfl⟩ := gencodesBody_shape h; rfl
  | writeMagic => rw [writeMagicBody_shape h]
  | writeTree => obtain ⟨_, _, _, rfl⟩ := writeTreeBody_shape h; rfl
  | encSym sym => obtain ⟨_, rfl⟩ := encSymBody_shape h; rfl
  | flush => rw [flushBody_shape h, sinkFlush_source]
  | clear | count | encode | compress | decompress => simp at hw
  | readMagic | readTree | decSym | decode => simp at hr

/-- A body that does not rewind keeps the bytes and never moves RP back. -/
theorem bodyOf_source_movedOn {i : Instr} {s u : State} (h : (bodyOf i s).Ends u) (hw : i ∉ rewinders) :
    s.source.MovedOn u.source := by
  by_cases hr : i ∈ readersOn
  · simp only [readersOn, List.mem_cons, List.not_mem_nil, or_false] at hr
    rcases hr with rfl | rfl | rfl | rfl
    · obtain ⟨_, _, hm, rfl⟩ := readMagicBody_shape h; exact hm
    · obtain ⟨_, _, _, hm, _, _, _, rfl⟩ := readTreeBody_shape h; exact hm
    · obtain ⟨_, _, _, _, hm, _, rfl⟩ := decSymBody_shape h; exact hm
    · obtain ⟨_, _, _, _, hm, _, rfl⟩ := decodeBody_shape h; exact hm
  · rw [bodyOf_source_same h hw hr]; exact .refl _

theorem exec_source_movedOn {i : Instr} {s t : State} (h : exec i s = .next t) (hw : i ∉ rewinders) :
    s.source.MovedOn t.source :=
  exec_keeps_streams (R := fun src _ => s.source.MovedOn src) h (.refl _) fun _ hu => bodyOf_source_movedOn hu hw

theorem exec_source_same {i : Instr} {s t : State} (h : exec i s = .next t) (hw : i ∉ rewinders)
    (hr : i ∉ readersOn) : t.source = s.source :=
  exec_keeps_streams (R := fun src _ => src = s.source) h rfl fun _ hu => bodyOf_source_same hu hw hr

/-! ## The sink under a command -/

/-- The commands that leave OUT and the port alone (20_memory R47). -/
@[simp] def sinkless : List Instr := [.nop, .count, .build, .gencodes, .readMagic, .readTree]

theorem bodyOf_sink_same {i : Instr} {s u : State} (h : (bodyOf i s).Ends u) (hi : i ∈ sinkless) :
    u.sink = s.sink := by
  simp only [sinkless, List.mem_cons, List.not_mem_nil, or_false] at hi
  rcases hi with rfl | rfl | rfl | rfl | rfl | rfl
  · rw [bodyOf, nopBody, Run.ends_ok] at h; rw [h]
  · obtain ⟨_, _, _, _, rfl⟩ := countBody_shape h; rfl
  · obtain rfl | ⟨_, _, _, rfl⟩ := buildBody_shape h <;> rfl
  · obtain ⟨_, _, rfl⟩ := gencodesBody_shape h; rfl
  · obtain ⟨_, _, _, rfl⟩ := readMagicBody_shape h; rfl
  · obtain ⟨_, _, _, _, _, _, _, rfl⟩ := readTreeBody_shape h; rfl

theorem exec_sink_same {i : Instr} {s t : State} (h : exec i s = .next t) (hi : i ∈ sinkless) : t.sink = s.sink :=
  exec_keeps_streams (R := fun _ snk => snk = s.sink) h rfl fun _ hu => bodyOf_sink_same hu hi

/-- The later state has bits more in its sink, which is as open as before (20_memory R47). -/
def Appended (s u : State) : Prop :=
  (∃ bits, u.sink = s.sink.append bits) ∧ u.status.sinkClosed = s.status.sinkClosed

theorem Appended.refl (s : State) : Appended s s := ⟨⟨[], rfl⟩, rfl⟩

theorem Appended.trans {s t u : State} (h1 : Appended s t) (h2 : Appended t u) : Appended s u := by
  obtain ⟨⟨bits1, hb1⟩, hc1⟩ := h1
  obtain ⟨⟨bits2, hb2⟩, hc2⟩ := h2
  exact ⟨⟨bits1 ++ bits2, by rw [hb2, hb1, Sink.append_append]⟩, hc2.trans hc1⟩

/-- A body that neither opens nor closes the sink only appends bits to it. -/
theorem bodyOf_appended {i : Instr} {s u : State} (h : (bodyOf i s).Ends u)
    (hi : i ∉ StatePart.sinkClosed.writers) : Appended s u := by
  have hm : i ≠ .compress ∧ i ≠ .decompress := by constructor <;> rintro rfl <;> simp at hi
  refine ⟨?_, bodyOf_unchanged hm h .sinkClosed hi⟩
  by_cases hl : i ∈ sinkless
  · exact ⟨[], bodyOf_sink_same h hl⟩
  · cases i with
    | writeMagic => exact ⟨_, by rw [writeMagicBody_shape h]⟩
    | writeTree => obtain ⟨_, _, _, rfl⟩ := writeTreeBody_shape h; exact ⟨_, rfl⟩
    | encSym sym => obtain ⟨bits, rfl⟩ := encSymBody_shape h; exact ⟨bits, rfl⟩
    | encode => obtain ⟨_, bits, _, rfl⟩ := encodeBody_shape h; exact ⟨bits, rfl⟩
    | decSym => obtain ⟨_, bits, _, _, _, _, rfl⟩ := decSymBody_shape h; exact ⟨bits, rfl⟩
    | decode => obtain ⟨_, bits, _, _, _, _, rfl⟩ := decodeBody_shape h; exact ⟨bits, rfl⟩
    | nop | count | build | gencodes | readMagic | readTree => simp at hl
    | clear | flush | compress | decompress => simp at hi

theorem keeps_appended (s : State) (i : Instr) (hi : i ∉ StatePart.sinkClosed.writers := by decide) :
    Keeps (Appended s) (bodyOf i) := fun _ _ hs h => hs.trans (bodyOf_appended h hi)

/-- COMPRESS and DECOMPRESS append bits and then flush, however they end (47_macro R106, R107). -/
theorem wholeStream_appends_and_flushes {i : Instr} {s u : State} (hi : i = .compress ∨ i = .decompress)
    (h : (bodyOf i s).Ends u) : ∃ v, Appended s v ∧ u = v.sinkFlush := by
  have flush : ∀ v, Appended s v → ∃ w, Appended s w ∧ v.sinkFlush = w.sinkFlush := fun v hv => ⟨v, hv, rfl⟩
  rcases hi with rfl | rfl
  · exact compressBody_keeps (Q := fun u => ∃ v, Appended s v ∧ u = v.sinkFlush) (keeps_appended s .count)
      (keeps_appended s .build) (keeps_appended s .gencodes) (keeps_appended s .writeMagic)
      (keeps_appended s .writeTree) (keeps_appended s .encode) flush (Appended.refl s) h
  · exact decompressBody_keeps (Q := fun u => ∃ v, Appended s v ∧ u = v.sinkFlush) (fun _ hv => hv)
      (keeps_appended s .readMagic) (keeps_appended s .readTree) (keeps_appended s .decode) flush (Appended.refl s) h

/-- COMPRESS and DECOMPRESS on an open sink have flushed and closed it (47_macro R106, R107; 70_reset R128). -/
theorem wholeStream_closes {i : Instr} {s t : State} (hi : i = .compress ∨ i = .decompress)
    (ho : s.status.sinkClosed = false) (h : exec i s = .next t) : ∃ bits, s.sink.wroteAndClosed bits t.sink := by
  have closed : ∀ u, (bodyOf i s).Ends u → ∃ bits, s.sink.wroteAndClosed bits u.sink := by
    intro u hu
    obtain ⟨v, ⟨⟨bits, hb⟩, hc⟩, rfl⟩ := wholeStream_appends_and_flushes hi hu
    refine ⟨bits, ?_⟩
    rw [sinkFlush_open _ (hc.trans ho), hb]
    exact Sink.append_closed s.sink bits
  rcases exec_next h with ⟨_, u, hu, rfl⟩ | ⟨_, e, u, hu, rfl⟩ | ⟨_, _, hwf, _⟩ | ⟨_, _, hp, _⟩
  · exact closed u (.inl hu)
  · exact closed u (.inr ⟨e, hu⟩)
  · rcases hi with rfl | rfl <;> cases hwf
  · rcases hi with rfl | rfl <;> simp [pre, ho] at hp

theorem Appended.out_prefix {s u : State} (h : Appended s u) : s.sink.out <+: u.sink.out := by
  obtain ⟨⟨bits, hb⟩, _⟩ := h
  rw [hb, Sink.append_out]
  exact List.prefix_append _ _

/-- SinkFlush takes nothing from OUT (20_memory R48). -/
theorem out_prefix_sinkFlush (s : State) : s.sink.out <+: s.sinkFlush.sink.out := by
  cases hc : s.status.sinkClosed with
  | true => rw [sinkFlush_closed _ hc]
  | false => rw [sinkFlush_open _ hc, Sink.close_out]; exact List.prefix_append _ _

/-- Only CLEAR takes from OUT (20_memory R47). -/
theorem bodyOf_out_prefix {i : Instr} {s u : State} (h : (bodyOf i s).Ends u) (hi : i ≠ .clear) :
    s.sink.out <+: u.sink.out := by
  by_cases hw : i ∈ StatePart.sinkClosed.writers
  · simp only [StatePart.writers, List.mem_cons, List.not_mem_nil, or_false] at hw
    rcases hw with rfl | rfl | hm
    · exact absurd rfl hi
    · rw [flushBody_shape h]; exact out_prefix_sinkFlush s
    · obtain ⟨v, hv, rfl⟩ := wholeStream_appends_and_flushes hm h
      exact hv.out_prefix.trans (out_prefix_sinkFlush v)
  · exact (bodyOf_appended h hw).out_prefix

theorem exec_out_prefix {i : Instr} {s t : State} (h : exec i s = .next t) (hi : i ≠ .clear) :
    s.sink.out <+: t.sink.out :=
  exec_keeps_streams (R := fun _ snk => s.sink.out <+: snk.out) h List.prefix_rfl fun _ hu => bodyOf_out_prefix hu hi

/-- Settles O49: the commands that rewind, read on or leave the sink alone are the three lists above. -/
theorem frameOfStreams : Obligations.FrameOfStreams := by
  intro i s t h
  obtain ⟨_, _, _, _, hport⟩ := exec_port h
  refine ⟨fun h1 h2 h3 h4 h5 => ?_, fun _ _ _ _ _ _ _ _ _ => exec_source_same h (by simp [*]) (by simp [*]),
    fun hi => exec_sink_same h (by simpa using hi), exec_out_prefix h, hport ▸ List.prefix_append _ _,
    fun hi ho => wholeStream_closes hi ho h⟩
  obtain ⟨hbytes, hlater, hrp⟩ := exec_source_movedOn h (by simp [*])
  exact ⟨hbytes, hlater, fun hle => (hrp hle).1⟩

/-! ## The host's moves while a command executes -/

/-- States with the same veil differ in nothing but what it blanks. -/
theorem eq_of_veil {s t : State} (h : t.veil = s.veil) :
    t = { s with
          ctrl := t.ctrl
          irq := t.irq
          status := { s.status with cmdDropped := t.status.cmdDropped }
          reply := t.reply
          host := t.host
          taken := t.taken
          sinkFrom := t.sinkFrom
          draws := t.draws } :=
  congrArg (fun u => u.dress { t.around with seq := u.seq, done := u.status.done }) h

/-- A write that is no reset reaches, while BUSY = 1, only CTRL, IRQ_STATUS and CMD_DROPPED (20_memory R55,
40_control R79). -/
theorem memWrite_busy {s : State} (hb : s.busy = true) {off : Offset} {size : AccessSize} {strb : BitVec 4} {v : Word}
    (hr : (HostAction.write off size strb v).isReset = false) :
    (memWrite s off size strb v).2.veil = s.veil ∧ (memWrite s off size strb v).2.host = s.host ∧
      (s.status.cmdDropped = true → (memWrite s off size strb v).2.status.cmdDropped = true) := by
  unfold memWrite
  cases ha : accessed s off size strb with
  | none => exact ⟨rfl, rfl, id⟩
  | some r =>
    obtain ⟨_, rfl, rfl, hreg, hgate⟩ := accessed_some ha
    simp only
    split
    · exact ⟨rfl, rfl, id⟩
    · next hro =>
      cases r with
      | ctrl =>
        have hoff : off = 0x004#16 := BitVec.eq_of_toNat_eq (regAt_ctrl hreg)
        have hv : v.getLsbD 0 = false := by simpa [HostAction.isReset, hoff] using hr
        rw [writeReg, if_neg (Bool.eq_false_iff.mp hv)]
        exact ⟨rfl, rfl, id⟩
      | cmd => rw [writeReg, offerCommand, if_pos hb]; exact ⟨rfl, rfl, fun _ => rfl⟩
      | irqStatus => exact ⟨rfl, rfl, id⟩
      | freq k =>
        obtain ⟨_, hle, _⟩ := regAt_freq hreg
        exact absurd (hgate (by omega)) (by simp [hb])
      | _ => exact absurd rfl hro

/-- A move that is no reset and does not let the block proceed changes, while BUSY = 1, only what the veil blanks. -/
theorem hostStep_busy {s t : State} {a : HostAction} (hb : s.busy = true) (ha : a ≠ .run) (hr : a.isReset = false)
    (h : hostStep a s = .next t) :
    t.veil = s.veil ∧ t.host = s.host ∧ (s.status.cmdDropped = true → t.status.cmdDropped = true) := by
  have time : (letTimePass s).veil = s.veil ∧ (letTimePass s).host = s.host ∧
      (s.status.cmdDropped = true → (letTimePass s).status.cmdDropped = true) :=
    ⟨veil_letTimePass s, letTimePass_host s, fun hc => by rwa [letTimePass_status]⟩
  cases a with
  | read => cases h; exact ⟨rfl, rfl, id⟩
  | write => cases h; exact memWrite_busy hb hr
  | bindSource => rw [hostStep, if_pos hb] at h; cases h
  | bindSink | takeSink | hold => cases h; exact time
  | pinReset => cases hr
  | run => exact absurd rfl ha

/-- Settles O58, by the inversion of the host's moves: the veil blanks just what the statement leaves open. -/
theorem nothingChangesDuringExec : Obligations.NothingChangesDuringExec := by
  intro s t a rest hb hh ha hr h
  rw [step, hh] at h
  obtain ⟨hveil, hhost, hdrop⟩ := hostStep_busy (s := { s with host := rest }) hb ha hr h
  refine ⟨?_, hdrop⟩
  have hhost : t.host = rest := hhost
  rw [← hhost]
  exact eq_of_veil (s := s) hveil

/-! ## ReadBits, Rewind and the order of the source's bits -/

/-- The value of k bits, each with its weight (20_memory R45). -/
theorem natOfBits_eq_sum (f : Nat → Bool) (k : Nat) :
    natOfBits ((List.range k).map f) = ((List.range k).map (fun j => (f j).toNat * 2 ^ (k - 1 - j))).sum := by
  induction k generalizing f with
  | zero => rfl
  | succ k ih =>
    have weight : ∀ j, k - 1 - j = k - (j + 1) := by omega
    simp only [List.range_succ_eq_map, List.map_cons, List.map_map, natOfBits_cons, List.sum_cons, ih (f ∘ Nat.succ)]
    simp [Function.comp_def, weight]

/-- A mapped bit of the source is the bit of its byte, the most significant first (10_state R39). -/
theorem srcBit_of_byte {bytes : List Byte} {p : Nat} {b : Byte} (h : bytes[p / 8]? = some b) :
    srcBit bytes p = b.getLsbD (7 - p % 8) := by
  rw [srcBit, h]; rfl

/-- Settles O60: the weighted sum of the bits read, the rewind of a stable source, and the bits of a byte. -/
theorem sourceReads : Obligations.SourceReads := by
  refine ⟨fun src k => ?_, fun src h => Source.rewind_stable h, fun bytes p b h => ⟨srcBit_of_byte h, ?_⟩⟩
  · rw [← natOfBits_eq_sum]; rfl
  · obtain ⟨hlt, _⟩ := List.getElem?_eq_some_iff.mp h
    rw [srcBit_eq, if_pos (by omega), srcBit_of_byte h]

end Sys2Proof.Machine

/-! # The command word (30_encoding R68–R72, R77) -/

namespace Sys2Proof.Machine

/-! ## The opcode map -/

/-- The rows of the opcode map, given the symbol field (R70). -/
def commands (sym : Sym) : List Instr :=
  [.nop, .clear, .count, .build, .gencodes, .writeMagic, .writeTree, .readMagic, .readTree, .encSym sym, .encode,
    .flush, .decSym, .decode, .compress, .decompress]

/-- `commandOf` searches the rows for the opcode. -/
theorem commandOf_eq_find? (op : BitVec 8) (sym : Sym) :
    commandOf op sym = (commands sym).find? (fun i => i.opcode = op) := by
  have row : ∀ (i : Instr) (rest : List Instr), (i :: rest).find? (fun i => i.opcode = op) =
      if op = i.opcode then some i else rest.find? (fun i => i.opcode = op) := by
    intro i rest
    by_cases h : op = i.opcode <;> simp [h, eq_comm]
  simp only [commands, row, List.find?_nil]
  rfl

theorem opcode_of_commandOf {op : BitVec 8} {sym : Sym} {i : Instr} (h : commandOf op sym = some i) :
    i.opcode = op := by
  rw [commandOf_eq_find?] at h
  simpa using List.find?_some h

theorem commandOf_opcode (i : Instr) : commandOf i.opcode i.symField = some i := by cases i <;> rfl

/-- The reserved opcodes are those in no row (R70, R71 (a)). -/
theorem commandOf_eq_none_iff {op : BitVec 8} {sym : Sym} :
    commandOf op sym = none ↔ op ∉ (commands sym).map Instr.opcode := by
  simp [commandOf_eq_find?]

/-- ENC_SYM takes the symbol field; every other command has none and is legal as it stands (R69). -/
theorem operand_of_commandOf {op : BitVec 8} {sym : Sym} {i : Instr} (h : commandOf op sym = some i) :
    op = 0x50#8 ∧ i = .encSym sym ∨ op ≠ 0x50#8 ∧ i.symField = 0#9 ∧ i.wellFormed = true := by
  obtain rfl := opcode_of_commandOf h
  cases i with
  | encSym a => cases h; exact .inl ⟨rfl, rfl⟩
  | _ => exact .inr (by decide)

/-! ## The fields of a word -/

/-- A word is its three fields, the most significant first (R68). -/
theorem word_eq_fields (w : Word) : fieldRsvd w ++ fieldSym w ++ fieldOp w = w := by
  have hhigh : fieldRsvd w ++ fieldSym w = w.extractLsb' 8 24 :=
    BitVec.extractLsb'_append_extractLsb'_eq_extractLsb' rfl
  rw [hhigh, fieldOp]
  exact (BitVec.extractLsb'_append_extractLsb'_eq_extractLsb' rfl).trans BitVec.extractLsb'_eq_self

theorem wordLayout : ∀ i : Instr, Laws.WordLayout.Statement i
  | .nop => Laws.WordLayout.nop
  | .clear => Laws.WordLayout.clear
  | .count => Laws.WordLayout.count
  | .build => Laws.WordLayout.build
  | .gencodes => Laws.WordLayout.gencodes
  | .writeMagic => Laws.WordLayout.writeMagic
  | .writeTree => Laws.WordLayout.writeTree
  | .readMagic => Laws.WordLayout.readMagic
  | .readTree => Laws.WordLayout.readTree
  | .encSym sym => Laws.WordLayout.encSym sym
  | .encode => Laws.WordLayout.encode
  | .flush => Laws.WordLayout.flush
  | .decSym => Laws.WordLayout.decSym
  | .decode => Laws.WordLayout.decode
  | .compress => Laws.WordLayout.compress
  | .decompress => Laws.WordLayout.decompress

/-- A word encodes a command just when its fields are the command's (R68, R77). -/
theorem encode_eq_iff {i : Instr} {w : Word} :
    encode i = w ↔ fieldOp w = i.opcode ∧ fieldSym w = i.symField ∧ fieldRsvd w = 0#15 := by
  constructor
  · rintro rfl
    exact wordLayout i
  · rintro ⟨hop, hsym, hrsvd⟩
    rw [encode, ← hop, ← hsym, ← hrsvd, word_eq_fields]

/-! ## The decoder -/

/-- What a word must meet to be decoded as a command (R71, R72). -/
theorem decode_eq_ok_iff {w : Word} {i : Instr} :
    decode w = .ok i ↔ commandOf (fieldOp w) (fieldSym w) = some i ∧ fieldRsvd w = 0#15 ∧
      fieldSym w = i.symField ∧ i.wellFormed = true := by
  unfold decode
  cases commandOf (fieldOp w) (fieldSym w) with
  | none => simp
  | some c =>
    constructor
    · intro h
      simp only at h
      split_ifs at h
      cases h
      exact ⟨rfl, not_not.mp ‹_›, not_not.mp ‹_›, ‹_›⟩
    · rintro ⟨hc, hrsvd, hsym, hwf⟩
      cases hc
      simp [hrsvd, hsym, hwf]

/-- Settles O1: both sides say that the fields of the word are those of the command. -/
theorem decodeEncodeAgree : Obligations.DecodeEncodeAgree := by
  intro i w
  rw [decode_eq_ok_iff, encode_eq_iff]
  constructor
  · rintro ⟨hc, hrsvd, hsym, hwf⟩
    exact ⟨hwf, (opcode_of_commandOf hc).symm, hsym, hrsvd⟩
  · rintro ⟨hwf, hop, hsym, hrsvd⟩
    exact ⟨by rw [hop, hsym, commandOf_opcode], hrsvd, hsym, hwf⟩

/-! ## Illegal words -/

/-- The decoder is total: an illegal word is one it refuses with a reason (R72). -/
theorem isIllegal_iff_error {w : Word} : isIllegal w = true ↔ ∃ e, decode w = .error e := by
  unfold isIllegal
  cases decode w <;> simp

theorem isIllegal_iff_not_ok {w : Word} : isIllegal w = true ↔ ∀ i, decode w ≠ .ok i := by
  unfold isIllegal
  cases decode w <;> simp

/-- An operand above 256 is no symbol (R69, R71 (d)). -/
theorem wellFormed_encSym_eq_false_iff {sym : Sym} : (Instr.encSym sym).wellFormed = false ↔ 256 < sym.toNat := by
  rw [Instr.wellFormed, decide_eq_false_iff_not, Nat.not_le]
  rfl

/-- A reserved opcode is illegal (R71 (a)). -/
theorem isIllegal_of_commandOf_none {w : Word} (h : commandOf (fieldOp w) (fieldSym w) = none) :
    isIllegal w = true := by
  simp [isIllegal_iff_not_ok, decode_eq_ok_iff, h]

/-- An assigned opcode is illegal for its other fields (R71 (b)–(d)). -/
theorem isIllegal_iff_of_commandOf_some {w : Word} {i : Instr} (h : commandOf (fieldOp w) (fieldSym w) = some i) :
    isIllegal w = true ↔ fieldRsvd w ≠ 0#15 ∨ fieldSym w ≠ i.symField ∨ i.wellFormed = false := by
  rw [isIllegal_iff_not_ok]
  simp only [ne_eq, decode_eq_ok_iff, h, Option.some.injEq, not_and, forall_eq', Bool.not_eq_true]
  simp only [imp_iff_not_or]

/-- The four conditions of R71, (a)–(d) in this order. -/
theorem isIllegal_iff_conditions (w : Word) :
    isIllegal w = true ↔
      fieldOp w ∉ (commands (fieldSym w)).map Instr.opcode ∨ fieldRsvd w ≠ 0#15 ∨
      (fieldOp w ≠ 0x50#8 ∧ fieldSym w ≠ 0#9) ∨ (fieldOp w = 0x50#8 ∧ 256 < (fieldSym w).toNat) := by
  rw [← commandOf_eq_none_iff]
  cases hc : commandOf (fieldOp w) (fieldSym w) with
  | none => simp [isIllegal_of_commandOf_none hc]
  | some i =>
    rw [isIllegal_iff_of_commandOf_some hc]
    rcases operand_of_commandOf hc with ⟨hop, rfl⟩ | ⟨hop, hsym, hwf⟩
    · simp [hop, Instr.symField, wellFormed_encSym_eq_false_iff]
    · simp [hop, hsym, hwf]

/-- An accepted illegal word ends with ILLEGAL_COMMAND and the word (40_control R80). -/
theorem runCommand_illegal {w : Word} (h : isIllegal w = true) (s : State) :
    runCommand w s = .next (s.errored 0x10#8 (some w)) := by
  obtain ⟨e, he⟩ := isIllegal_iff_error.mp h
  rw [runCommand, he]
  exact congrArg _ (raiseError_eq _ s)

/-- A block with an accepted word runs it when it proceeds (40_control R80). -/
theorem advance_exec {s : State} {w : Word} (h : s.seq = .exec w) : advance s = runCommand w s := by
  rw [advance, h]

/-- Settles O2: the decoder refuses a word just on the conditions of R71, and a refused CUR raises. -/
theorem illegalWordsEndInError : Obligations.IllegalWordsEndInError := by
  refine ⟨isIllegal_iff_conditions, fun s w hw hs => ⟨fun hh => ?_, fun rest hh => ?_⟩⟩
  · rw [step, hh]
    exact (advance_exec hs).trans (runCommand_illegal hw s)
  · rw [step, hh]
    exact (advance_exec (s := { s with host := rest }) hs).trans (runCommand_illegal hw _)

/-- Settles O3, by evaluation of the decoder. -/
theorem sampleWordsDecode : Obligations.SampleWordsDecode := by
  unfold Obligations.SampleWordsDecode
  decide

end Sys2Proof.Machine

/-! # The life of a command (40_control R79–R85, 60_exceptions R111–R115) -/

namespace Sys2Proof.Machine

/-! ## No step stops a well-used machine -/

/-- A body that does not diverge ends its command (40_control R82). -/
theorem Run.finish_ends {r : Run} (h : r ≠ .diverge) : ∃ t, r.finish = .next t := by
  cases r with
  | ok u => exact ⟨complete u, rfl⟩
  | raise e u => exact ⟨raiseError e u, rfl⟩
  | diverge => exact absurd rfl h

/-- While the arena invariant holds, every command ends: at one of its checks, or with its body (40_control R80). -/
theorem exec_ends (i : Instr) {s : State} (hs : TreeInv s) : ∃ t, exec i s = .next t := by
  rw [exec_eq]
  cases hi : i.wellFormed with
  | false => exact ⟨_, execute_illegal hi⟩
  | true =>
    cases hp : pre i s.status with
    | false => exact ⟨_, execute_sequence hi hp⟩
    | true =>
      rw [execute_body hi hp]
      exact Run.finish_ends (bodyOf_ends hp hs)

/-- A word that decodes runs as its command (40_control R80). -/
theorem runCommand_ok {w : Word} {i : Instr} (h : decode w = .ok i) (s : State) : runCommand w s = exec i s := by
  rw [runCommand, h]

theorem runCommand_ends (w : Word) {s : State} (hs : TreeInv s) : ∃ t, runCommand w s = .next t := by
  cases hd : decode w with
  | ok i => rw [runCommand_ok hd]; exact exec_ends i hs
  | error e => exact ⟨_, runCommand_illegal (isIllegal_iff_error.mpr ⟨e, hd⟩) s⟩

/-- The block always proceeds: INIT ends, an idle block waits, and CUR ends (70_reset R131). -/
theorem advance_ends {s : State} (hs : TreeInv s) : ∃ t, advance s = .next t := by
  cases hq : s.seq with
  | init => exact ⟨{ s with seq := .idle }, by rw [advance, hq]⟩
  | idle => exact ⟨s, by rw [advance, hq]⟩
  | exec w => rw [advance_exec hq]; exact runCommand_ends w hs

/-- The one move that can stop the machine beside `run` is a binding against the host's duty (70_reset R124). -/
theorem hostStep_ends {a : HostAction} {s : State} (hs : TreeInv s)
    (hbind : ∀ bytes later, a = .bindSource bytes later →
      s.busy = false ∧ sourceFits bytes = true ∧ later.all sourceFits = true) : ∃ t, hostStep a s = .next t := by
  cases a with
  | bindSource bytes later =>
    obtain ⟨hb, h1, h2⟩ := hbind bytes later rfl
    exact ⟨bindSource s bytes later, by simp only [hostStep, hb, h1, h2]; rfl⟩
  | run => exact advance_ends hs
  | read | write | bindSink | takeSink | pinReset | hold => exact ⟨_, rfl⟩

/-- Settles O8: no body diverges under the arena invariant, and the only other stop is a binding that the host's duty
excludes. -/
theorem everyCommandEnds : Obligations.EveryCommandEnds := by
  refine ⟨fun i s hs => exec_ends i hs, fun s hs hbind => ?_⟩
  cases hh : s.host with
  | nil => rw [step, hh]; exact advance_ends hs
  | cons a rest =>
    rw [step, hh]
    refine hostStep_ends (s := { s with host := rest }) hs fun bytes later ha => ?_
    subst ha
    exact hbind bytes later rest hh

/-! ## Offering a word -/

/-- The words that ERR = 1 does not shut out (40_control R79, 60_exceptions R114). -/
theorem acceptedInError_eq_false_iff {v : Word} :
    acceptedInError v = false ↔ v ≠ 0x00000000#32 ∧ v ≠ 0x00000001#32 ∧ v ≠ 0x00000058#32 := by
  simp [acceptedInError, and_assoc]

theorem offerCommand_dropped {v : Word} {s : State}
    (h : s.busy = true ∨ s.status.err = true ∧ acceptedInError v = false) : offerCommand v s = dropCommand s := by
  unfold offerCommand
  rcases h with hb | ⟨he, hv⟩
  · rw [if_pos hb]
  · simp [he, hv]

theorem offerCommand_accepted {v : Word} {s : State}
    (h : ¬ (s.busy = true ∨ s.status.err = true ∧ acceptedInError v = false)) :
    offerCommand v s = acceptCommand v s := by
  obtain ⟨hb, he⟩ := not_or.mp h
  rw [offerCommand, if_neg hb, if_neg (by simpa using he)]

/-- CMD can be written at any time (20_memory R55), and the write offers the word. -/
theorem busWrite_cmd (s : State) (v : Word) : busWrite s 0x008#16 v = (.ok, offerCommand v s) :=
  busWrite_reg (r := .cmd) rfl rfl (.inr (by decide)) rfl v

/-- Settles O5: a write to CMD offers the word, which is dropped or accepted. -/
theorem offeredWordDroppedOrAccepted : Obligations.OfferedWordDroppedOrAccepted := by
  intro s v
  rw [busWrite_cmd]
  split
  · next h => rw [← acceptedInError_eq_false_iff] at h; rw [offerCommand_dropped h]; rfl
  · next h => rw [← acceptedInError_eq_false_iff] at h; rw [offerCommand_accepted h]; rfl

/-! ## Running the accepted word -/

/-- A block that proceeds with a decoded CUR executes it (40_control R80). -/
theorem advance_decoded {s : State} {w : Word} {i : Instr} (hd : decode w = .ok i) (hq : s.seq = .exec w) :
    advance s = exec i s := by
  rw [advance_exec hq, runCommand_ok hd]

/-- With the host's `run` in front, the step is the block's own, at the state `run` has been taken from (log entry 1). -/
theorem step_run {s : State} {rest : List HostAction} (hh : s.host = .run :: rest) :
    step s = advance { s with host := rest } := by
  rw [step, hh]; rfl

/-- `withFetchWord` places a 32-bit word as it is. -/
theorem withFetchWord_word (s : State) (w : Word) :
    s.withFetchWord 32 w.toNat = { acceptCommand w s with host := .run :: s.host } := by
  rw [State.withFetchWord, Nat.mod_eq_of_lt w.isLt, BitVec.ofNat_toNat, BitVec.setWidth_eq]

/-- Settles O4: the block proceeds with CUR, with no move pending or at the host's `run`. -/
theorem stepRunsDecodedCommand : Obligations.StepRunsDecodedCommand := by
  refine ⟨fun s w i hd hq hh => ?_, fun s w i rest hd hq hh => ?_, fun s w i hd hb he => ?_⟩
  · rw [step, hh]
    exact advance_decoded hd hq
  · rw [step_run hh]
    exact advance_decoded hd hq
  · rw [busWrite_cmd, offerCommand_accepted (by simp [hb, he]), withFetchWord_word, step_run rfl]
    exact advance_decoded hd rfl

/-! ## NOP and CLEAR -/

/-- Settles O18: NOP has no precondition, and its body is empty. -/
theorem nopCompletes : Obligations.NopCompletes := fun _ => exec_ok rfl rfl rfl

/-- Settles O19: CLEAR has no precondition, and its body clears the datapath and leaves the error state. -/
theorem clearCompletes : Obligations.ClearCompletes := fun _ => exec_ok rfl rfl rfl

/-! ## How a command ends -/

/-- No body touches IRQ_STATUS (10_state R22). -/
theorem bodyOf_irq {i : Instr} {s u : State} (h : (bodyOf i s).Ends u) : u.irq = s.irq := by
  obtain ⟨⟨_, hirq, _⟩, _⟩ := bodyOf_around h
  exact hirq

theorem Raise.record_code (e : Raise) : e.record.code = e.kind.code := by
  obtain ⟨kind, info⟩ := e
  cases info <;> rfl

/-- SEQUENCE's code is no other error's (60_exceptions R111). -/
theorem ErrorKind.code_ne_sequence {k : ErrorKind} (h : k ≠ .sequence) : k.code ≠ 0x11#8 := by
  cases k with
  | sequence => exact absurd rfl h
  | _ => decide

/-- Settles O6: a failed precondition is the check before the body, and the errors of bodies are not SEQUENCE. -/
theorem preconditionTable : Obligations.PreconditionTable := by
  intro i s hi
  refine ⟨fun hr => ?_, fun hr t h => ?_⟩
  · rw [exec_eq, execute_sequence hi (Bool.eq_false_iff.mpr (mt (pre_iff i s).mp hr)), raiseError_eq]
    rfl
  · by_cases hc : i = .clear
    · subst hc
      cases (clearCompletes s).symm.trans h
      exact .inr (by decide : (0#8 : BitVec 8) ≠ 0x11#8)
    · rcases exec_next h with ⟨_, u, hu, rfl⟩ | ⟨_, e, u, hu, rfl⟩ | ⟨_, _, hwf, _⟩ | ⟨_, _, hp, _⟩
      · exact .inl ((bodyOf_around (.inl hu)).2 hc).2
      · refine .inr ?_
        rw [raiseError_err, Raise.record_code]
        exact ErrorKind.code_ne_sequence (bodyOf_raises i s e u hu).2
      · cases hi.symm.trans hwf
      · cases ((pre_iff i s).mpr hr).symm.trans hp

/-- What the error entry leaves, from a state u with the interrupt bits that s had (60_exceptions R112). -/
def EndsInError (s t : State) : Prop :=
  t.status.done = false ∧ t.status.err = true ∧ t.irq = { s.irq with errIrq := true } ∧ t.err.code ∈ errorCodes ∧
    (t.err.infoValid = false → t.err.info = 0#32)

theorem raiseError_endsInError (e : Raise) {s u : State} (h : u.irq = s.irq) : EndsInError s (raiseError e u) := by
  obtain ⟨_, hinfo, _⟩ := errorOk_raiseError e u
  refine ⟨rfl, rfl, by rw [raiseError_irq, h], ?_, hinfo⟩
  rw [raiseError_err, Raise.record_code]
  exact ErrorKind.code_mem e.kind

/-- A command but CLEAR ends with DONE and the error record as it was, or with the error entry (40_control R82). -/
theorem exec_endsOneWay {i : Instr} {s t : State} (hi : i ≠ .clear) (h : exec i s = .next t) :
    t.seq = .idle ∧
      (t.status.done = true ∧ t.irq = { s.irq with doneIrq := true } ∧ SameError s t ∨ EndsInError s t) := by
  rcases exec_next h with ⟨_, u, hu, rfl⟩ | ⟨_, e, u, hu, rfl⟩ | ⟨e, _, _, rfl⟩ | ⟨e, _, _, rfl⟩
  · have hirq := bodyOf_irq (.inl hu)
    have hsame : SameError s u := (bodyOf_around (.inl hu)).2 hi
    exact ⟨rfl, .inl ⟨rfl, by rw [complete_irq, hirq], hsame⟩⟩
  · exact ⟨rfl, .inr (raiseError_endsInError e (bodyOf_irq (.inr ⟨e, hu⟩)))⟩
  · exact ⟨rfl, .inr (raiseError_endsInError e rfl)⟩
  · exact ⟨rfl, .inr (raiseError_endsInError e rfl)⟩

/-- Settles O7: CLEAR always completes with no error, and every other command completes or enters the error state. -/
theorem commandEndsOneWay : Obligations.CommandEndsOneWay := by
  intro i s t h
  by_cases hi : i = .clear
  · subst hi
    cases (clearCompletes s).symm.trans h
    exact ⟨rfl, .inl ⟨rfl, rfl, by rw [if_pos rfl]; exact ⟨rfl, rfl⟩⟩⟩
  · obtain ⟨hidle, hends⟩ := exec_endsOneWay hi h
    rcases hends with ⟨hdone, hirq, hsame⟩ | ⟨hdone, herr, hirq, hcode, hinfo⟩
    · exact ⟨hidle, .inl ⟨hdone, hirq, by rw [if_neg hi]; exact hsame⟩⟩
    · exact ⟨hidle, .inr ⟨hdone, herr, hirq, hi, hcode, hinfo⟩⟩

end Sys2Proof.Machine

/-! # The frequency counter (41_count R86, R87) -/

namespace Sys2Proof.Machine

/-! ## COUNT to the end of the source -/

theorem occurrences_pos {bytes : List Byte} {k : Nat} : 0 < occurrences bytes k ↔ ∃ b ∈ bytes, b.toNat = k := by
  simp only [occurrences, List.countP_pos_iff, beq_iff_eq]

/-- The counts below 256 sum to the number of bytes (41_count R87). -/
theorem sum_freqAt {freq : Memory Word} {bytes : List Byte}
    (h : ∀ k, k ≠ 256 → (freqAt freq k).toNat = occurrences bytes k) :
    ((List.range 256).map (fun k => (freqAt freq k).toNat)).sum = bytes.length := by
  have hmap : (List.range 256).map (fun k => (freqAt freq k).toNat) = (List.range 256).map (occurrences bytes) :=
    List.map_congr_left fun k hk => h k (Nat.ne_of_lt (List.mem_range.mp hk))
  rw [hmap]
  exact sum_occurrences bytes 256 le_rfl

/-- FREQ is non-zero exactly for the bytes that occur and 256 (41_count R87). -/
theorem freqAt_ne_zero_iff {freq : Memory Word} {bytes : List Byte}
    (h : ∀ k, k ≠ 256 → (freqAt freq k).toNat = occurrences bytes k) (h256 : freqAt freq 256 = 1#32) (k : Nat) :
    freqAt freq k ≠ 0#32 ↔ k = 256 ∨ ∃ b ∈ bytes, b.toNat = k := by
  by_cases hk : k = 256
  · subst hk
    rw [h256]
    exact iff_of_true (by decide) (.inl rfl)
  · rw [or_iff_right hk, ← occurrences_pos, ← h k hk, Nat.pos_iff_ne_zero, ← BitVec.toNat_ne_iff_ne]
    rfl

/-- Settles O20: COUNT's loop counts every byte up to EOI, and FREQ[256] is set after it. -/
theorem countCountsBytes : Obligations.CountCountsBytes := by
  intro s hs
  obtain ⟨freq, hbody, hfreq, h256⟩ := countBody_ok hs
  refine ⟨freq, exec_ok rfl rfl hbody, fun b => ?_, h256, fun k hk => ?_, sum_freqAt hfreq,
    freqAt_ne_zero_iff hfreq h256⟩
  · rw [hfreq _ (Nat.ne_of_lt b.isLt), occurrences_byte]
  · have hzero : (freqAt freq k).toNat = 0 := by rw [hfreq k hk.ne', occurrences_large _ hk.le]
    exact BitVec.eq_of_toNat_eq hzero

/-! ## COUNT at the 2^32-th copy of a byte -/

theorem bitsOfBytes_append (xs ys : List Byte) : bitsOfBytes (xs ++ ys) = bitsOfBytes xs ++ bitsOfBytes ys :=
  List.flatMap_append

theorem infoOfSym_byte (b : Byte) : infoOfSym b.toNat = b.setWidth 32 := by
  rw [infoOfSym, BitVec.ofNat_toNat]

/-- COUNT's body where a byte's count is full: the raise, with the counts of the bytes before it (41_count R86). -/
theorem countBody_overflow {s : State} {pre post : List Byte} {b : Byte}
    (hsrc : s.source.rewind.bytes = pre ++ b :: post) (hfull : pre.count b = 2 ^ 32 - 1)
    (hlt : ∀ c : Byte, pre.count c < 2 ^ 32) :
    ∃ freq, countBody s = .raise ⟨.countOverflow, some (b.setWidth 32)⟩
        { s with freq := freq, source := s.source.rewind.consumed (8 * (pre.length + 1)) } ∧
      ∀ k, (freqAt freq k).toNat = occurrences pre k := by
  have hzero : ∀ k, (freqAt [] k).toNat + occurrences pre k = occurrences pre k := fun k => Nat.zero_add _
  have hrest : s.source.rewind.rest = bitsOfBytes (pre ++ [b]) ++ bitsOfBytes post := by
    rw [Source.rewind_rest, hsrc, List.append_cons, bitsOfBytes_append]
  obtain ⟨freq, hloop, _, hfreq⟩ := countLoop_overflow (turns := s.source.rewind.bytes.length + 1) memory_nil_wf hrest
    (by rw [hsrc, List.length_append]; omega)
    (fun k => by rw [hzero]; exact occurrences_of_byte (by norm_num) hlt k)
    (by rw [hzero, occurrences_byte, hfull])
  refine ⟨freq, ?_, fun k => (hfreq k).trans (hzero k)⟩
  rw [countBody, hloop]
  simp only [infoOfSym_byte]

/-- COMPRESS ends with the error of its COUNT, the sink flushed (47_macro R106). -/
theorem compressBody_of_count {s s1 : State} {e : Raise} (h : countBody s = .raise e s1) :
    compressBody s = .raise e s1.sinkFlush := by
  simp only [compressBody, h, Run.andThen_raise, Run.flushOnRaise_raise]

/-- Settles O21: COUNT's loop stops at the full count before FREQ[256] is set, and COMPRESS flushes on that raise. -/
theorem countOverflows : Obligations.CountOverflows := by
  intro s pre b post hsrc hfull hlt
  obtain ⟨freq, hbody, hfreq⟩ := countBody_overflow hsrc hfull hlt
  refine ⟨freq, ?_, fun c => ?_, ?_, fun hopen => ⟨s.sink.close, ?_, Sink.close_closed s.sink⟩⟩
  · rw [exec_raise (i := .count) rfl rfl hbody, raiseError_eq]
    rfl
  · rw [hfreq, occurrences_byte]
  · exact BitVec.eq_of_toNat_eq ((hfreq 256).trans (occurrences_large pre le_rfl))
  · rw [exec_raise (i := .compress) rfl ((pre_iff .compress s).mpr hopen) (compressBody_of_count hbody),
      sinkFlush_open { s with freq := freq, source := _ } hopen, raiseError_eq]
    rfl

end Sys2Proof.Machine

/-! # The tree builder (42_build R88–R91) -/

namespace Sys2Proof.Machine

/-! ## How BUILD ends -/

/-- The state s after BUILD over L leaves has put the merged nodes into the arena (42_build R89). -/
def State.built (s : State) (nodes : List Node) (L : Nat) : State :=
  { s with
    arena := arenaWrite nodes s.arena
    nodeCount := BitVec.ofNat 10 (2 * L - 1)
    root := BitVec.ofNat 10 (2 * L - 2)
    leafCount := BitVec.ofNat 9 L
    status := { s.status with treeValid := true, treeSrc := false, codesValid := false } }

@[simp] theorem State.built_completed_arena (s : State) (nodes : List Node) (L : Nat) :
    (s.built nodes L).completed.arena = arenaWrite nodes s.arena := rfl

/-- NODE_COUNT and LEAF_COUNT hold the counts of a tree of at most 257 leaves (42_build R91). -/
theorem State.built_counts (s : State) (nodes : List Node) {L : Nat} (hL : L ≤ 257) :
    (s.built nodes L).completed.nodeCount.toNat = 2 * L - 1 ∧ (s.built nodes L).completed.leafCount.toNat = L :=
  ⟨Nat.mod_eq_of_lt (by omega), Nat.mod_eq_of_lt (by omega)⟩

/-- BUILD completes when FREQ[256] ≠ 0, with the nodes of the merge loop over its leaves (42_build R89). -/
theorem exec_build_built {s : State} (h : freqAt s.freq 256 ≠ 0#32) :
    ∃ nodes k,
      mergeLoop (buildLeaves s.freq).length (buildLeaves s.freq) (initialQueue (buildLeaves s.freq)) = (nodes, [k]) ∧
      MergeInv (buildLeaves s.freq) nodes [k] ∧ nodes.length = 2 * (buildLeaves s.freq).length - 1 ∧
      k.i = 2 * (buildLeaves s.freq).length - 2 ∧
      exec .build s = .next (s.built nodes (buildLeaves s.freq).length).completed ∧
      TreeOk (s.built nodes (buildLeaves s.freq).length).completed := by
  obtain ⟨nodes, k, hm, hinv, hlen, hk, hbody⟩ := buildBody_ok h
  exact ⟨nodes, k, hm, hinv, hlen, hk, exec_ok rfl rfl hbody, (buildBody_tree hbody).1.congr rfl rfl rfl rfl rfl⟩

/-! ## The entries of a merged arena -/

section
variable {t : State} {lv nodes old : List Node} {pq : List Key} (hinv : MergeInv lv nodes pq)
  (ha : t.arena = arenaWrite nodes old)
include hinv ha

/-- The entries begin with the leaves, in their order (42_build R91 (a)). -/
theorem MergeInv.node_eq_leaf {i : Nat} (hi : i < lv.length) : t.node i = lv[i] := by
  rw [merged_node ha (hi.trans_le hinv.fits), hinv.leaf_at hi]

/-- The symbols of the first L entries are those of the leaves. -/
theorem MergeInv.map_node_sym :
    (List.range lv.length).map (fun i => (t.node i).sym.toNat) = lv.map (fun n => n.sym.toNat) := by
  refine List.ext_getElem (by simp) fun i _ hi => ?_
  rw [List.length_map] at hi
  simp [hinv.node_eq_leaf ha hi]

/-- An entry after the leaves is an internal node with smaller children and the sum of their weights
(42_build R91 (b), (c)). -/
theorem MergeInv.node_inner {i : Nat} (hlo : lv.length ≤ i) (hi : i < nodes.length) :
    (t.node i).leaf = false ∧ (t.node i).sym = 0#9 ∧ (t.node i).l.toNat < i ∧ (t.node i).r.toNat < i ∧
      (t.node i).w.toNat = (t.node (t.node i).l.toNat).w.toNat + (t.node (t.node i).r.toNat).w.toNat := by
  obtain ⟨hleaf, hsym, hw⟩ := hinv.inner i hlo hi
  obtain ⟨hl, hr⟩ := (hinv.down i hi).resolve_left (by simp [hleaf])
  rw [merged_node ha hi, merged_node ha (hl.trans hi), merged_node ha (hr.trans hi)]
  exact ⟨hleaf, hsym, hl, hr, hw⟩

end

/-- The one element left in the queue carries the sum of the leaves' weights (42_build R91 (d)). -/
theorem MergeInv.node_root {t : State} {lv nodes old : List Node} {k : Key} (hinv : MergeInv lv nodes [k])
    (ha : t.arena = arenaWrite nodes old) : (t.node k.i).w.toNat = (lv.map (fun n => n.w.toNat)).sum := by
  obtain ⟨hi, hw⟩ := hinv.roots k (List.mem_singleton_self k)
  rw [merged_node ha hi, ← hw, ← hinv.weights, List.map_singleton, List.sum_singleton]

/-- Settles O22: what the merge loop's invariant says of the nodes, read in the arena that BUILD leaves. -/
theorem buildMakesTree : Obligations.BuildMakesTree := by
  intro s h
  obtain ⟨nodes, k, _, hinv, hlen, hk, hexec, htree⟩ := exec_build_built h
  obtain ⟨hL2, hL, _, _, hsyms⟩ := buildLeaves_spec h
  have ha := s.built_completed_arena nodes (buildLeaves s.freq).length
  refine ⟨_, 2 * (buildLeaves s.freq).length - 1, (buildLeaves s.freq).length, hexec, rfl, hL2, hL, rfl, htree,
    (hinv.map_node_sym ha).trans hsyms, fun i hi => ?_, fun i hlo hi => hinv.node_inner ha hlo (hlen ▸ hi), ?_⟩
  · rw [hinv.node_eq_leaf ha hi]
    exact buildLeaves_leaf h (List.getElem_mem hi)
  · rw [Nat.sub_sub, ← hk, hinv.node_root ha, buildLeaves_sum]

/-! ## The merge loop's turns -/

/-- ExtractMin answers on every non-empty queue (42_build R88). -/
theorem exists_extractMin {pq : List Key} (h : pq ≠ []) : ∃ k, extractMin pq = some (k, pq.erase k) := by
  cases pq with
  | nil => exact absurd rfl h
  | cons x xs => exact ⟨leastKey x xs, rfl⟩

/-- Keys neither of which comes before the other are the same (42_build R88). -/
theorem Key.eq_or_before {x k : Key} (h : x.before k = false) :
    x = k ∨ k.w.toNat < x.w.toNat ∨ (k.w = x.w ∧ k.i < x.i) := by
  rw [← Bool.not_eq_true, Key.before_iff] at h
  obtain ⟨xw, xi⟩ := x
  obtain ⟨kw, ki⟩ := k
  simp only [Key.mk.injEq, ← BitVec.toNat_inj] at h ⊢
  omega

/-- A turn of the merge loop with two elements or more in the queue (42_build R89). -/
theorem mergeLoop_succ {turns : Nat} {nodes : List Node} {pq pq1 pq2 : List Key} {a b : Key}
    (h1 : extractMin pq = some (a, pq1)) (h2 : extractMin pq1 = some (b, pq2)) :
    mergeLoop (turns + 1) nodes pq = mergeLoop turns
      (nodes ++ [Node.mkInternal (a.w + b.w) a.i b.i]) (⟨a.w + b.w, nodes.length⟩ :: pq2) := by
  rw [mergeLoop]
  simp only [h1, h2]

/-- The arena BUILD leaves begins with all the nodes of the loop, and these with the leaves. -/
theorem MergeInv.take_arena {lv nodes old : List Node} {pq : List Key} (hinv : MergeInv lv nodes pq) :
    (arenaWrite nodes old).take nodes.length = nodes ∧ (arenaWrite nodes old).take lv.length = lv := by
  refine ⟨List.take_left, ?_⟩
  rw [arenaWrite, List.take_append_of_le_length hinv.fits, hinv.leaves]

/-- Settles O23: the queue's erase of its least key, one unfolding of the loop, and BUILD's run of it. -/
theorem mergeTakesTheTwoLeast : Obligations.MergeTakesTheTwoLeast := by
  refine ⟨fun pq hne => ?_, fun turns nodes pq hpq => ?_, fun s t hf ht => ?_⟩
  · obtain ⟨k, hk⟩ := exists_extractMin hne
    obtain ⟨hmem, hleast, _⟩ := extractMin_some hk
    exact ⟨k, hk, hmem, fun x hx => Key.eq_or_before (hleast x hx)⟩
  · obtain ⟨a, ha⟩ := exists_extractMin (List.ne_nil_of_length_pos (by omega : 0 < pq.length))
    have hrest : 0 < (pq.erase a).length := by
      rw [List.length_erase_of_mem (extractMin_some ha).1]
      omega
    obtain ⟨b, hb⟩ := exists_extractMin (List.ne_nil_of_length_pos hrest)
    exact ⟨a, b, _, _, ha, hb, mergeLoop_succ ha hb⟩
  · obtain ⟨nodes, k, hm, hinv, hlen, _, hexec, _⟩ := exec_build_built hf
    obtain ⟨_, hL, _⟩ := buildLeaves_spec hf
    rw [hexec] at ht
    cases ht
    obtain ⟨hnodeCount, hleafCount⟩ := s.built_counts nodes hL
    obtain ⟨hnodes, hleaves⟩ := hinv.take_arena (old := s.arena)
    rw [hnodeCount, hleafCount, ← hlen, State.built_completed_arena, hnodes, hleaves]
    exact (congrArg Prod.fst hm).symm

/-! ## BUILD without a pseudo-EOF count, and with it alone -/

/-- With no byte counted, the leaves are the dummy and that of the pseudo-EOF (42_build R89, R90). -/
theorem buildLeaves_eof_alone {freq : Memory Word} (h : freqAt freq 256 ≠ 0#32)
    (hbytes : ∀ k, k < 256 → freqAt freq k = 0#32) :
    buildLeaves freq = [Node.mkLeaf 0#9 0#64, symbolLeaf freq 256] := by
  have hused : usedSymbols freq = [256] := by
    have hnone : (List.range 256).filter (fun k => freqAt freq k != 0#32) = [] :=
      List.filter_eq_nil_iff.mpr fun k hk => by simp [hbytes k (List.mem_range.mp hk)]
    rw [usedSymbols, Config.numSymbols, List.range_succ, List.filter_append, hnone, List.nil_append,
      List.filter_cons_of_pos (by simp [h]), List.filter_nil]
  simp [buildLeaves, hused]

/-- The dummy leaf is extracted first: no weight is below 0, and its index is the lower (42_build R88, R90). -/
theorem extractMin_zero_first (w : BitVec 64) : extractMin [⟨0#64, 0⟩, ⟨w, 1⟩] = some (⟨0#64, 0⟩, [⟨w, 1⟩]) := by
  have hnot : (⟨w, 1⟩ : Key).before ⟨0#64, 0⟩ = false := by
    rw [← Bool.not_eq_true, Key.before_iff]
    simp
  simp [extractMin, leastKey, hnot]

/-- The dummy leaf and one other are merged once (42_build R89, R90). -/
theorem mergeLoop_dummy (n : Node) :
    (mergeLoop 2 [Node.mkLeaf 0#9 0#64, n] (initialQueue [Node.mkLeaf 0#9 0#64, n])).1 =
      [Node.mkLeaf 0#9 0#64, n, Node.mkInternal n.w 0 1] := by
  have hqueue : initialQueue [Node.mkLeaf 0#9 0#64, n] = [⟨0#64, 0⟩, ⟨n.w, 1⟩] := rfl
  rw [hqueue, mergeLoop_succ (extractMin_zero_first n.w) (show extractMin [⟨n.w, 1⟩] = some (⟨n.w, 1⟩, []) by
    simp [extractMin, leastKey])]
  simp [mergeLoop, extractMin, leastKey]

/-- Settles O24: the check of FREQ[256] before any change, and the one merge with the dummy leaf. -/
theorem buildCorners : Obligations.BuildCorners := by
  refine ⟨fun s h => ?_, fun s h hbytes => ?_⟩
  · rw [exec_raise (i := .build) rfl rfl (buildBody_badFreq h), raiseError_eq]
    rfl
  · obtain ⟨nodes, k, hm, _, _, _, hexec, _⟩ := exec_build_built h
    rw [buildLeaves_eof_alone h hbytes] at hm hexec
    have hnodes : nodes = [Node.mkLeaf 0#9 0#64, symbolLeaf s.freq 256,
        Node.mkInternal ((freqAt s.freq 256).setWidth 64) 0 1] :=
      (congrArg Prod.fst hm).symm.trans (mergeLoop_dummy _)
    subst hnodes
    exact ⟨_, hexec, rfl, rfl, rfl, rfl, rfl, rfl, rfl⟩

end Sys2Proof.Machine

/-! # The code-table generator (43_codegen R92, R93) -/

namespace Sys2Proof.Machine

/-! ## Kraft equality -/

/-- In a table of distinct symbols the codeword of a leaf's symbol is the leaf's path (43_codegen R92). -/
theorem codeword_of_path {s : State} {t : Tree} (hL : t.leaves ≤ 257) (hc : s.code = codeTable (t.codes 0 0#256))
    (hd : t.symbols.Nodup) {p : Sym × List Bool} (hp : p ∈ t.paths) : s.codeword p.1.toNat = p.2 := by
  have hlen := Tree.path_length hp
  have hcode : codeAt s.code p.1.toNat = pathCode 0 0 p.2 := hc ▸ codeAt_path hd (Tree.mem_paths.mp hp)
  rw [State.codeword, hcode, pathCode_bits (by omega)]

/-- A symbol with no leaf has no codeword (43_codegen R92). -/
theorem codeword_of_absent {s : State} {t : Tree} (hc : s.code = codeTable (t.codes 0 0#256)) {k : Nat}
    (hk : ∀ sym ∈ t.symbols, sym.toNat ≠ k) : s.codeword k = [] := by
  rw [State.codeword, hc, codeAt_absent hk, Code.unset_bits]

/-- Settles O27: the sum runs over the leaves only, each with its path as codeword, and the paths fill the code
space. -/
theorem kraftEquality : Obligations.KraftEquality := by
  intro s tr hm ht hc hv htr hd
  obtain ⟨l, r, hlr, hleaves, hL, hcode, -, hsyms⟩ := codes_valid hm ht hc hv
  obtain rfl : tr = .node l r := Option.some.inj (htr.symm.trans hlr)
  have hL257 : (Tree.node l r).leaves ≤ 257 := hleaves ▸ hL
  have hinj : Function.Injective (BitVec.toNat : Sym → Nat) := fun _ _ => BitVec.eq_of_toNat_eq
  rw [sum_over_symbols ((Tree.node l r).symbols.map BitVec.toNat) (hd.map hinj)]
  · have hterm : ∀ p ∈ (Tree.node l r).paths,
        (if s.codeword p.1.toNat = [] then 0 else 2 ^ (256 - (s.codeword p.1.toNat).length)) =
          2 ^ (256 - p.2.length) := fun p hp => by
      rw [codeword_of_path hL257 hcode hd hp, if_neg (Tree.path_node_ne_nil (Tree.mem_paths.mp hp))]
    rw [← Tree.paths_symbols, List.map_map, List.map_map]
    refine (congrArg List.sum (List.map_congr_left hterm)).trans (Tree.kraft _ fun p hp => ?_)
    have hlen := Tree.path_length hp
    omega
  · intro k hk
    obtain ⟨sym, hsym, rfl⟩ := List.mem_map.mp hk
    exact Nat.lt_succ_of_le (hsyms sym hsym)
  · intro k hk
    have habsent : ∀ sym ∈ (Tree.node l r).symbols, sym.toNat ≠ k :=
      fun sym hsym e => hk (e ▸ List.mem_map_of_mem hsym)
    exact if_pos (codeword_of_absent hcode habsent)

/-! ## GENCODES -/

/-- Settles O25: the body visits the leaves in order, so the last leaf of a symbol writes its codeword, which holds
the whole path because no path is longer than 256 bits. -/
theorem gencodesWritesPaths : Obligations.GencodesWritesPaths := by
  intro s tr hv htr hL
  refine ⟨codeTable (tr.codes 0 0#256), exec_ok rfl hv (gencodesBody_ok htr), ?_, fun k hk => codeAt_absent hk⟩
  intro earlier later sym path hsplit hlast
  have hlen := Tree.path_length (t := tr) (p := (sym, path)) (by simp [hsplit])
  have hpath : path.length ≤ 256 := Nat.le_of_succ_le_succ (hlen.trans hL)
  rw [codeAt_last hsplit hlast]
  exact ⟨pathCode_len_toNat hpath, pathCode_val_toNat hpath, pathCode_bits hpath⟩

end Sys2Proof.Machine

/-! # The header codec (44_header R94–R98) -/

namespace Sys2Proof.Machine

/-! ## READ_TREE on the header of a tree -/

/-- The state s after READ_TREE has read the tree t: its entries from 0 on, the counts and the flags (44_header R97). -/
def State.treeRead (s : State) (t : Tree) : State :=
  { s with
    arena := arenaWrite (t.layout 0) s.arena
    source := s.source.consumed (11 * t.leaves - 1)
    nodeCount := BitVec.ofNat 10 t.nodes
    root := 0#10
    leafCount := BitVec.ofNat 9 t.leaves
    hdrBits := BitVec.ofNat 32 (11 * t.leaves - 1)
    status := { s.status with treeValid := true, treeSrc := true, codesValid := false, eofSeen := false } }

/-- READ_TREE completes where the source holds the string of a tree that fits (44_header R97). -/
theorem exec_readTree_treeRead {s : State} {l r : Tree} {more : List Bool}
    (hrest : s.source.rest = (Tree.node l r).serialize ++ more)
    (hsyms : ∀ sym ∈ (Tree.node l r).symbols, sym.toNat ≤ 256) (hL : (Tree.node l r).leaves ≤ 257) :
    exec .readTree s = .next (s.treeRead (.node l r)).completed :=
  exec_ok rfl rfl (readTreeBody_ok hrest hsyms hL)

/-- The arena READ_TREE leaves holds the tree it has read, numbered in pre-order (44_header R97). -/
theorem State.treeRead_tree (s : State) {l r : Tree} (hsyms : ∀ sym ∈ (Tree.node l r).symbols, sym.toNat ≤ 256)
    (hL : (Tree.node l r).leaves ≤ 257) :
    (s.treeRead (.node l r)).completed.tree = some (.node l r) ∧
      visitOrder (s.treeRead (.node l r)).completed.node walkDepth 0 = List.range (Tree.node l r).nodes := by
  have hn := (Tree.node l r).nodes_leaves
  exact (layout_treeOk rfl hsyms (by omega) rfl rfl rfl).2

/-- READ_TREE's entries have weight 0, its leaves no links and its internal nodes no symbol (44_header R97). -/
theorem Tree.mem_layout {t : Tree} {k : Nat} {n : Node} (h : n ∈ t.layout k) :
    n.w = 0#64 ∧ (n.leaf = true → n.l = 0#10 ∧ n.r = 0#10) ∧ (n.leaf = false → n.sym = 0#9) := by
  induction t generalizing k with
  | leaf sym =>
    obtain rfl := List.mem_singleton.mp h
    simp [Node.mkLeaf]
  | node l r ihl ihr =>
    rcases List.mem_cons.mp h with rfl | h
    · simp [Node.mkInternal]
    · exact (List.mem_append.mp h).elim ihl ihr

/-- The entries below NODE_COUNT are those of the tree READ_TREE has read. -/
theorem State.treeRead_node_mem (s : State) (t : Tree) {i : Nat} (hi : i < t.nodes) :
    (s.treeRead t).completed.node i ∈ t.layout 0 := by
  rw [node_written (old := s.arena) rfl (by rwa [Tree.layout_length])]
  exact List.getElem_mem _

/-- Settles O31: the parse of a serialization lays the tree out in pre-order, with weights 0. -/
theorem readTreeReadsTree : Obligations.ReadTreeReadsTree := by
  intro s l r more hrest hsyms hL
  have hn : (Tree.node l r).nodes = 2 * (Tree.node l r).leaves - 1 := by
    have := (Tree.node l r).nodes_leaves
    omega
  obtain ⟨htree, hvisit⟩ := s.treeRead_tree hsyms hL
  refine ⟨_, _, _, exec_readTree_treeRead hrest hsyms hL, rfl, rfl, ?_, htree, hn ▸ hvisit, fun i hi => ?_⟩
  · rw [← hn]
    rfl
  · exact Tree.mem_layout (s.treeRead_node_mem _ (hn ▸ hi))

/-! ## WRITE_TREE and the round trip -/

/-- The state s after WRITE_TREE has appended the string of the tree t (44_header R95). -/
def State.treeWritten (s : State) (t : Tree) : State :=
  { s with sink := s.sink.append t.serialize, hdrBits := BitVec.ofNat 32 (11 * t.leaves - 1) }

/-- OUT grows by the string of the tree. -/
theorem State.treeWritten_out (s : State) (t : Tree) :
    (s.treeWritten t).completed.sink.out = s.sink.out ++ t.serialize := Sink.append_out _ _

/-- WRITE_TREE completes on a valid tree and an open sink (44_header R95). -/
theorem exec_writeTree_treeWritten {s : State} {t : Tree} (hv : s.status.treeValid = true)
    (hopen : s.status.sinkClosed = false) (ht : s.tree = some t) :
    exec .writeTree s = .next (s.treeWritten t).completed :=
  exec_ok rfl ((pre_iff .writeTree s).mpr ⟨hv, hopen⟩) (writeTreeBody_ok ht)

/-- GENCODES gives the code table of the tree at ROOT (43_codegen R92). -/
theorem exec_gencodes_code {s : State} {t : Tree} (hv : s.status.treeValid = true) (ht : s.tree = some t) :
    ∃ g, exec .gencodes s = .next g ∧ g.code = codeTable (t.codes 0 0#256) :=
  ⟨_, exec_ok rfl hv (gencodesBody_ok ht), rfl⟩

/-- A valid tree has an internal root, symbols up to 256 and at most 257 leaves (10_state R36). -/
theorem tree_valid {s : State} (hm : MemoryOk s) (ht : TreeInv s) (hv : s.status.treeValid = true) :
    ∃ l r, s.tree = some (.node l r) ∧ (∀ sym ∈ (Tree.node l r).symbols, sym.toNat ≤ 256) ∧
      (Tree.node l r).leaves ≤ 257 := by
  obtain ⟨_, _, _, hcount⟩ := hm
  have hok := ht hv
  obtain ⟨hle, _⟩ := hok.leaves_le hcount
  obtain ⟨l, r, htree, hsyms, hleaves, _⟩ := hok
  exact ⟨l, r, htree, hsyms, hleaves ▸ hle⟩

/-- Settles O33: READ_TREE rebuilds the tree whose string WRITE_TREE appended, and GENCODES sees only the tree. -/
theorem headerRoundTrips : Obligations.HeaderRoundTrips := by
  intro s s1 u more hm ht hv hopen hwrite hrest
  obtain ⟨l, r, htree, hsyms, hL⟩ := tree_valid hm ht hv
  rw [exec_writeTree_treeWritten hv hopen htree] at hwrite
  cases hwrite
  have hbits : u.source.rest = (Tree.node l r).serialize ++ more := by
    rw [hrest, State.treeWritten_out, List.drop_left]
  have hread := (u.treeRead_tree hsyms hL).1
  obtain ⟨g, hg, hcode⟩ := exec_gencodes_code (s := (s.treeWritten (.node l r)).completed) hv htree
  obtain ⟨g1, hg1, hcode1⟩ := exec_gencodes_code (s := (u.treeRead (.node l r)).completed) rfl hread
  exact ⟨_, g, g1, exec_readTree_treeRead hbits hsyms hL, rfl, hread.trans htree.symm, hg, hg1,
    hcode1.trans hcode.symm⟩

/-- Settles O29: the body appends the serialization of the tree, which is 11·L − 1 bits long. -/
theorem writeTreeCompletes : Obligations.WriteTreeCompletes := by
  intro s t hv hopen ht
  have hlen := t.serialize_length
  exact ⟨by omega, _, exec_writeTree_treeWritten hv hopen ht, Sink.append_wrote _ _⟩

/-! ## The magic -/

/-- Settles O28: the body appends the word's 32 bits, which are its four bytes from the top. -/
theorem writeMagicCompletes : Obligations.WriteMagicCompletes := by
  intro s hopen
  refine ⟨_, exec_ok rfl ((pre_iff .writeMagic s).mpr hopen) (writeMagicBody_ok s), ?_⟩
  rw [← binOf_word]
  exact Sink.append_wrote _ _

/-- Settles O30: one 32-bit read, which meets EOI or gives a word that is the magic or is not. -/
theorem readMagicChecks : Obligations.ReadMagicChecks := by
  intro s
  by_cases hshort : s.source.rest.length < 32
  · rw [if_pos hshort, exec_raise (i := .readMagic) rfl rfl (readMagicBody_short hshort), raiseError_eq]
    rfl
  · have hword := readMagicBody_word hshort
    rw [if_neg hshort]
    by_cases hmagic : natOfBits (s.source.rest.take 32) = s.magic.toNat
    · rw [if_pos hmagic] at hword ⊢
      exact exec_ok rfl rfl hword
    · rw [if_neg hmagic] at hword ⊢
      rw [exec_raise (i := .readMagic) rfl rfl hword, raiseError_eq]
      rfl

/-! ## READ_TREE on bad headers -/

/-- READ_TREE refuses a tree of one leaf, after the parse has read it (44_header R97). -/
theorem readTreeBody_degenerate {s : State} {v : Sym} {more : List Bool}
    (hrest : s.source.rest = true :: binOf 9 v.toNat ++ more) (hv : v.toNat ≤ 256) :
    readTreeBody s = .raise ⟨.degenerateTree, some (v.setWidth 32)⟩
      (commitParse s ⟨s.source.consumed 10, [Node.mkLeaf v 0#64], 1, 1⟩) := by
  have hparse : parse 514 ⟨s.source, [], 0, 0⟩ = (.ok 0, ⟨s.source.consumed 10, [Node.mkLeaf v 0#64], 1, 1⟩) := by
    refine (parse_serialize (.leaf v) hrest ?_ (by simp [Tree.nodes, Config.nodeCap]) rfl
      (by simp [Tree.leaves])).trans ?_
    · simpa [Tree.symbols, Config.pseudoEof] using hv
    · simp [Tree.serialize, Tree.layout, Tree.nodes, Tree.leaves]
  have hnode : (commitParse s ⟨s.source.consumed 10, [Node.mkLeaf v 0#64], 1, 1⟩).node 0 = Node.mkLeaf v 0#64 :=
    node_written (commitParse_arena s _) Nat.one_pos
  simp only [readTreeBody, hparse, hnode]
  rfl

/-- READ_TREE's bits up to the end of the source are those that were left from RP. -/
theorem Source.exhausted_rp_sub (src : Source) : src.exhausted.rp - src.rp = src.rest.length :=
  (Source.rest_length src).symm

/-- READ_TREE's bits where it stops after n of them. -/
theorem Source.consumed_rp_sub (src : Source) (n : Nat) : (src.consumed n).rp - src.rp = n :=
  Nat.add_sub_cancel_left _ _

/-- Settles O32: how the parse ends after the nodes of an open header, the check for a tree of one leaf, and the
grammar of headers read bit by bit from the empty header on. -/
theorem readTreeRefusesBadHeaders : Obligations.ReadTreeRefusesBadHeaders := by
  refine ⟨fun s nodes part ho hrest hpart hcap => ?_, fun s nodes b more ho hlen hrest => ?_,
    fun s nodes v more ho hlen hrest hv => ?_, fun s v more hrest hv => ?_, fun bits => ?_⟩
  · obtain ⟨q, hq, hsrc, hcount, hleaves⟩ := parse_ends ho hrest hpart hcap
    refine readTree_refused hq hsrc hcount hleaves ?_
    rw [Source.exhausted_rp_sub, hrest, List.length_append]
  · obtain ⟨q, hq, hsrc, hcount, hleaves⟩ := parse_full ho hrest hlen
    exact readTree_refused hq hsrc hcount hleaves (Source.consumed_rp_sub _ _)
  · obtain ⟨q, hq, hsrc, hcount, hleaves⟩ := parse_value ho hrest hv hlen
    rw [← infoOfSym_sym]
    exact readTree_refused hq hsrc hcount hleaves (Source.consumed_rp_sub _ _)
  · refine ⟨arenaWrite [Node.mkLeaf v 0#64] s.arena, ?_⟩
    rw [exec_raise (i := .readTree) rfl rfl (readTreeBody_degenerate hrest hv), raiseError_eq, commitParse,
      Source.consumed_rp_sub]
    rfl
  · exact header_cases [] bits ⟨Nat.one_pos, fun _ hv => nomatch hv⟩ (Nat.zero_le _)

end Sys2Proof.Machine

/-! # The encoding engine (45_encode R99, R100) -/

namespace Sys2Proof.Machine

/-- A legal command whose body raises NO_CODEWORD ends with error code 0x22 and the symbol (60_exceptions R111). -/
theorem exec_noCodeword {i : Instr} {s u : State} {info : Word} (hi : i.wellFormed = true)
    (hp : pre i s.status = true) (h : bodyOf i s = .raise ⟨.noCodeword, some info⟩ u) :
    exec i s = .next (u.errored 0x22#8 (some info)) := by
  rw [exec_raise hi hp h, raiseError_eq]
  rfl

/-- Settles O34: an ill-formed operand is refused before the body, and the body asks whether the symbol has a
codeword. -/
theorem encSymAppendsCodeword : Obligations.EncSymAppendsCodeword := by
  refine fun s sym => ⟨fun hbig => ?_, fun hsym hv hopen => ?_⟩
  · rw [exec_eq, execute_illegal (wellFormed_encSym_eq_false_iff.mpr hbig), raiseError_eq]
    rfl
  · have hwf : (Instr.encSym sym).wellFormed = true := decide_eq_true hsym
    have hp := (pre_iff (.encSym sym) s).mpr ⟨hv, hopen⟩
    refine ⟨fun hnone => ?_, fun hsome => ⟨_, exec_ok hwf hp (encSymBody_ok (mt codeword_nil.mp hsome)), ?_⟩⟩
    · rw [← infoOfSym_sym]
      exact exec_noCodeword hwf hp (encSymBody_missing (codeword_nil.mpr hnone))
    · exact Sink.append_wrote _ _

/-- Settles O35: the loop appends the codeword of each byte up to the end of the source, and that of 256 follows. -/
theorem encodeWritesPayload : Obligations.EncodeWritesPayload := fun s hv hopen hbytes heof =>
  ⟨_, exec_ok rfl ((pre_iff .encode s).mpr ⟨hv, hopen⟩) (encodeBody_ok hbytes heof), Sink.append_wrote _ _⟩

/-- Settles O36: the two ways ENCODE's body raises, at a byte and at 256, and COMPRESS as its components in order. -/
theorem encodeStopsAtMissingCodeword : Obligations.EncodeStopsAtMissingCodeword := by
  refine ⟨fun s _ b _ hv hopen hsrc hpre hb => ⟨_, ?_, Sink.append_wrote _ _⟩,
    fun s hv hopen hbytes heof => ⟨_, ?_, Sink.append_wrote _ _⟩, fun s hopen => compress_endsAsItsParts hopen⟩
  · rw [← infoOfSym_byte]
    exact exec_noCodeword rfl ((pre_iff .encode s).mpr ⟨hv, hopen⟩) (encodeBody_missing hsrc hpre hb)
  · exact exec_noCodeword rfl ((pre_iff .encode s).mpr ⟨hv, hopen⟩) (encodeBody_noEof hbytes heof)

end Sys2Proof.Machine

/-! # The decoder (46_decode R102–R105) -/

namespace Sys2Proof.Machine

/-- A valid tree has an internal node at its root and symbols up to 256 (10_state R36). -/
theorem TreeOk.eq_node {s : State} {t : Tree} (h : TreeOk s) (ht : s.tree = some t) :
    ∃ l r, t = .node l r ∧ ∀ sym ∈ (Tree.node l r).symbols, sym.toNat ≤ 256 := by
  obtain ⟨l, r, htree, hsyms, _⟩ := h
  exact ⟨l, r, Option.some.inj (ht.symm.trans htree), hsyms⟩

/-- The output byte of a symbol below 256 is its low eight bits (46_decode R103). -/
theorem binOf_sym_byte {sym : Sym} (h : sym.toNat < 256) : binOf 8 sym.toNat = bitsOfBytes [sym.setWidth 8] := by
  rw [bitsOfBytes_cons, bitsOfBytes_nil, List.append_nil, BitVec.toNat_setWidth, Nat.mod_eq_of_lt h]

/-- A legal command whose body raises TRUNCATED_STREAM ends with error code 0x03 (60_exceptions R111). -/
theorem exec_truncatedStream {i : Instr} {s u : State} (hi : i.wellFormed = true) (hp : pre i s.status = true)
    (h : bodyOf i s = .raise ⟨.truncatedStream, none⟩ u) : exec i s = .next (u.errored 0x03#8 none) := by
  rw [exec_raise hi hp h, raiseError_eq]
  rfl

/-! ## One symbol -/

/-- Settles O38: the walk along a leaf's path, and the two ways of the body at the pseudo-EOF and at a byte. -/
theorem decSymDecodesOneSymbol : Obligations.DecSymDecodesOneSymbol := by
  intro s tr path more sym hok hv hopen htree hpath hrest
  obtain ⟨l, r, rfl, hsyms⟩ := hok.eq_node htree
  have hexec := exec_ok (i := .decSym) rfl ((pre_iff .decSym s).mpr ⟨hv, hopen⟩) (decSymBody_ok htree hpath hrest)
  refine ⟨fun heof => ?_, fun hbyte => ⟨_, ?_, Sink.append_wrote _ _⟩⟩
  · rw [hexec, if_pos heof]
    rfl
  · have hlt : sym.toNat < 256 := lt_of_le_of_ne (hsyms sym (Tree.path_symbol hpath)) hbyte
    rw [hexec, if_neg hbyte, binOf_sym_byte hlt]
    rfl

/-! ## A payload -/

/-- Settles O39: the loop emits a byte for each path and ends at the pseudo-EOF. -/
theorem decodeStopsAtPseudoEof : Obligations.DecodeStopsAtPseudoEof := by
  intro s tr words eof more hv hok hopen htree hwords heof hrest
  obtain ⟨l, r, rfl, _⟩ := hok.eq_node htree
  exact ⟨_, exec_ok rfl ((pre_iff .decode s).mpr ⟨hv, hopen⟩) (decodeBody_ok htree hwords heof hrest),
    Sink.append_wrote _ _⟩

/-- The payload is the codewords of its bytes and then that of 256 (30_encoding R73). -/
theorem State.payload_eq_coded (s : State) (bytes : List Byte) :
    s.payload bytes = (s.coded bytes).flatMap Prod.snd ++ s.codeword 256 := by
  rw [coded_bits]
  rfl

/-- Settles O40: every codeword of a payload is the path of a leaf with its symbol, so the payload is the paths of
bytes and then of a pseudo-EOF leaf. -/
theorem decodeInvertsEncode : Obligations.DecodeInvertsEncode := by
  intro s bytes more hm ht hc hcv hopen hbytes heof hrest
  obtain ⟨l, r, htree, hleaves, hL, hcode, hv, _⟩ := codes_valid hm ht hc hcv
  have hL257 : (Tree.node l r).leaves ≤ 257 := hleaves ▸ hL
  have heofPath : (Tree.node l r).isPath (s.codeword 256) 256#9 = true := codeword_path (sym := 256#9) hL257 hcode heof
  rw [State.payload_eq_coded, List.append_assoc] at hrest
  rw [State.payload_eq_coded, List.length_append]
  have hdecode := decodeStopsAtPseudoEof s _ (s.coded bytes) (s.codeword 256) more hv (ht hv) hopen htree
    (coded_paths hL257 hcode hbytes) heofPath hrest
  rwa [coded_bytes] at hdecode

/-! ## A source that ends inside a codeword -/

/-- Settles O41: the walk meets EOI inside the path, at once or after the bytes decoded before. -/
theorem decodingRunsOutOfBits : Obligations.DecodingRunsOutOfBits := by
  refine ⟨fun s tr missing sym hv hok hopen htree hpath hmissing => ?_,
    fun s tr words last missing sym hv hok hopen htree hwords hpath hmissing hrest => ?_⟩
  · obtain ⟨l, r, rfl, _⟩ := hok.eq_node htree
    exact exec_truncatedStream rfl ((pre_iff .decSym s).mpr ⟨hv, hopen⟩) (decSymBody_truncated htree hpath hmissing)
  · obtain ⟨l, r, rfl, _⟩ := hok.eq_node htree
    refine ⟨_, _, exec_truncatedStream rfl ((pre_iff .decode s).mpr ⟨hv, hopen⟩)
      (decodeBody_truncated htree hwords hpath hmissing hrest), rfl, fun hnone => ?_, fun w hlast => ?_,
      Sink.append_wrote _ _⟩
    · subst hnone
      rfl
    · simp only [State.errored, hlast]

end Sys2Proof.Machine

/-! # The whole-stream operations (47_macro R106–R109) -/

namespace Sys2Proof.Machine

/-! ## What COMPRESS writes -/

/-- BUILD makes the same arena, counts and tree of the same FREQ (42_build R89). -/
theorem exec_build_congr {s t b : State} (hfreq : t.freq = s.freq) (harena : t.arena = s.arena)
    (hresets : t.resets = b.resets) (h : buildBody s = .ok b) :
    ∃ built, exec .build t = .next built ∧ built.status.done = true ∧ built.tree = b.tree ∧
      b.arena = built.arena ∧ b.nodeCount = built.nodeCount ∧ b.root = built.root ∧ b.leafCount = built.leafCount := by
  refine ⟨_, exec_ok rfl rfl (buildBody_congr hfreq harena h), rfl, tree_congr (fun i => ?_) rfl, rfl, rfl, rfl, rfl⟩
  simp only [State.node, complete_arena, complete_resets, hresets]

/-- A stable source gives the same bytes in both of COMPRESS's passes (70_reset R125). -/
theorem Source.stable_secondPass {src : Source} (h : src.later = []) :
    src.rewind.rewind.bytes = src.bytes ∧ src.rewind.rewind.exhausted = src.exhausted := by
  obtain ⟨_, _, htwice⟩ := Source.stable_rewind h
  rw [htwice, Source.rewind_stable h]
  exact ⟨rfl, rfl⟩

/-- Settles O42: COUNT and BUILD give every byte of the source a leaf, so the payload lacks no codeword, and the sink
is given the stream and flushed. -/
theorem compressWritesStream : Obligations.CompressWritesStream := by
  intro s hopen hstable hcount
  obtain ⟨u, freq, hbody, hcounted, hfreq, h256⟩ := compressBody_ok hstable hcount
  obtain ⟨l, r, htree, hok, hL, _, hcode, hhdr, hsource, hbytes, heof, hsink,
    ⟨s1, b, hs1, hfreq1, harena1, hb, hbtree, harena, hnodes, hroot, hleaves, _, hresets⟩, herr, hirq, _, hstatus⟩ :=
    compressBody_eq_ok hopen hbody
  obtain ⟨hpass, hend⟩ := Source.stable_secondPass (State.stable_iff.mp hstable)
  cases hs1.symm.trans hcounted
  rw [hpass] at hbytes hsink
  have hpaths := coded_paths hL hcode hbytes
  have hcounts : (complete u).freq = freq := hfreq1
  have hflags : (complete u).status =
      { s.status with done := true, treeValid := true, treeSrc := false, codesValid := true, sinkClosed := true } := by
    rw [complete_status, hstatus]
    rfl
  obtain ⟨built, hexec, hdone, htr, harena', hnodes', hroot', hleaves'⟩ :=
    exec_build_congr (t := { s with freq := u.freq }) hfreq1 rfl hresets.symm hb
  refine ⟨complete u, .node l r, exec_ok rfl ((pre_iff .compress s).mpr hopen) hbody, hflags, herr, ?_, rfl,
    hsource.trans hend, hhdr, htree, hok.congr rfl rfl rfl rfl rfl, fun _ => ⟨?_, _, htree, hcode⟩,
    fun c => hcounts ▸ hfreq c, hcounts ▸ h256,
    ⟨built, hexec, hdone, htr.trans hbtree, harena.trans harena', hnodes.trans hnodes', hroot.trans hroot',
      hleaves.trans hleaves'⟩,
    fun c hc => ⟨hbytes c hc, hpaths _ (List.mem_map_of_mem hc)⟩, heof,
    codeword_path (sym := 256#9) hL hcode heof, ?_⟩
  · rw [complete_irq, hirq]
  · rw [hflags]
  · rw [complete_sink, hsink]
    exact Sink.append_closed _ _

/-! ## What DECOMPRESS reads -/

/-- Settles O43: the magic, the tree and the payload are read in order, and the sink is flushed. -/
theorem decompressReadsStream : Obligations.DecompressReadsStream := by
  intro s l r words eof more hopen hbits hsyms hL hwords heof
  obtain ⟨u, hbody, htree, hu⟩ := decompressBody_stream hopen hbits hsyms hL hwords heof
  generalize u.arena = arena, u.nodeCount = nodes, u.leafCount = leaves, u.hdrBits = bits at hu
  subst hu
  exact ⟨_, exec_ok rfl ((pre_iff .decompress s).mpr hopen) hbody, rfl, rfl, rfl, rfl, htree, rfl, rfl, rfl, rfl,
    Sink.append_closed _ _⟩

/-! ## Another magic -/

/-- DECOMPRESS whose READ_MAGIC raises: the error entry, with the sink flushed and nothing written (47_macro R107). -/
theorem decompress_badMagic {s : State} {src : Source} {info : Option Word} (hopen : s.status.sinkClosed = false)
    (h : readMagicBody (decompressStart s) = .raise ⟨.badMagic, info⟩
      { decompressStart s with source := src, status := { (decompressStart s).status with magicOk := false } }) :
    ∃ snk, exec .decompress s = .next
        (({ s with
            source := src
            sink := snk
            status := { s.status with magicOk := false, eofSeen := false, sinkClosed := true } } : State).errored
          0x01#8 info) ∧
      s.sink.wroteAndClosed [] snk := by
  refine ⟨s.sink.close, ?_, Sink.close_closed s.sink⟩
  rw [exec_raise (i := .decompress) rfl ((pre_iff .decompress s).mpr hopen) (decompressBody_of_magic h), raiseError_eq,
    sinkFlush_open]
  · rfl
  · exact hopen

/-- Settles O44: the parts run in order from the rewind, and READ_MAGIC meets EOI or a word that is not the magic. -/
theorem decompressRejectsBadMagic : Obligations.DecompressRejectsBadMagic := by
  refine fun s hopen => ⟨decompress_endsAsItsParts hopen, fun hshort => ?_, fun v more hbits hv => ?_⟩
  · refine decompress_badMagic hopen (readMagicBody_short ?_)
    show s.source.rewind.rest.length < 32
    rw [Source.rewind_rest, bitsOfBytes_length]
    omega
  · exact decompress_badMagic hopen (readMagicBody_bad ((Source.rewind_rest s.source).trans hbits) hv)

/-! ## Streams of whole bytes -/

/-- The bits written determine OUT and what the port was given (20_memory R47). -/
theorem Sink.wrote_eq {before after : Sink} {bits : List Bool} (h : before.wrote bits after) :
    after = before.append bits := by
  obtain ⟨hout, new, hport, hnew⟩ := h
  obtain ⟨new', hport', hnew'⟩ := before.append_port bits
  obtain rfl := List.append_cancel_left (hnew.symm.trans hnew')
  calc
    after = ⟨after.out, after.port⟩ := rfl
    _ = ⟨(before.append bits).out, (before.append bits).port⟩ := by rw [hout, hport, Sink.append_out, hport']
    _ = before.append bits := rfl

/-- The bits written before a SinkFlush determine the sink it leaves (20_memory R47, R48). -/
theorem Sink.wroteAndClosed_eq {before after : Sink} {bits : List Bool} (h : before.wroteAndClosed bits after) :
    after = (before.append bits).close := by
  obtain ⟨pad, hlt, hmod, mid, hwrote, rfl⟩ := h
  have hpad : (before.append bits).padLength = pad := by
    simp only [Sink.padLength, Sink.append_out, List.length_append]
    omega
  rw [Sink.wrote_eq hwrote, Sink.close, hpad, ← Sink.append_append]

/-- SinkFlush after bits into an empty OUT leaves whole bytes (20_memory R48). -/
theorem Sink.close_wholeBytes {snk : Sink} (hempty : snk.out = []) (bits : List Bool) :
    ∃ (bytes : List Byte) (pad : Nat), pad < 8 ∧ bitsOfBytes bytes = bits ++ List.replicate pad false ∧
      (snk.append bits).close = ⟨bitsOfBytes bytes, snk.port ++ bytes.map .byte ++ [.close]⟩ := by
  obtain ⟨out, port⟩ := snk
  subst hempty
  have hlen : (bits ++ List.replicate ((8 - bits.length % 8) % 8) false).length % 8 = 0 := by
    simp only [List.length_append, List.length_replicate]
    omega
  obtain ⟨bytes, hbytes⟩ := exists_bytes _ _ (Nat.mul_div_cancel' (Nat.dvd_of_mod_eq_zero hlen)).symm
  refine ⟨bytes, _, Nat.mod_lt _ (by decide), hbytes, ?_⟩
  rw [Sink.close_empty, ← hbytes, wholeBytes_bitsOfBytes]

/-- A compressed stream: the magic, the tree, the paths of bytes and of a pseudo-EOF leaf, then more (30_encoding R73). -/
structure IsStream (magic : Word) (t : Tree) (words : List (Byte × List Bool)) (eof more bits : List Bool) : Prop where
  bits_eq : bits = binOf 32 magic.toNat ++ (t.serialize ++ (words.flatMap Prod.snd ++ (eof ++ more)))
  symbols_le : ∀ sym ∈ t.symbols, sym.toNat ≤ 256
  leaves_le : t.leaves ≤ 257
  words_path : ∀ w ∈ words, t.isPath w.2 (w.1.setWidth 9) = true
  eof_path : t.isPath eof 256#9 = true

/-- What a COMPRESS that ends well has made of an empty sink: the stream of its second pass, in whole bytes
(47_macro R106, 30_encoding R73). -/
theorem compressBody_stream {s u : State} (hopen : s.status.sinkClosed = false) (hempty : s.sink.out = [])
    (h : compressBody s = .ok u) :
    ∃ (l r : Tree) (eof : List Bool) (pad : Nat) (stream : List Byte),
      u.sink = ⟨bitsOfBytes stream, s.sink.port ++ stream.map .byte ++ [.close]⟩ ∧ pad < 8 ∧
      IsStream s.magic (.node l r) (u.coded s.source.rewind.rewind.bytes) eof (List.replicate pad false)
        (bitsOfBytes stream) ∧
      u.hdrBits.toNat = (Tree.node l r).serialize.length := by
  obtain ⟨l, r, _, _, hL, hsyms, hcode, hhdr, _, hbytes, heof, hsink, _⟩ := compressBody_eq_ok hopen h
  obtain ⟨stream, pad, hpad, hstream, hclosed⟩ := Sink.close_wholeBytes hempty (binOf 32 s.magic.toNat ++
    ((Tree.node l r).serialize ++ u.payload s.source.rewind.rewind.bytes))
  refine ⟨l, r, u.codeword 256, pad, stream, hsink.trans hclosed, hpad,
    ⟨?_, hsyms, hL, coded_paths hL hcode hbytes, codeword_path (sym := 256#9) hL hcode heof⟩, ?_⟩
  · rw [hstream, State.payload_eq_coded]
    simp only [List.append_assoc]
  · have hlen := (Tree.node l r).serialize_length
    rw [hhdr, BitVec.toNat_ofNat, Nat.mod_eq_of_lt (by omega)]
    omega

/-! ## The round trip -/

/-- CLEAR opens an empty sink, rewinds the source and leaves no tree and no error (40_control R85). -/
theorem exec_clear_fresh (u : State) :
    ∃ c, exec .clear u = .next c ∧ c.status.treeValid = false ∧ c.status.sinkClosed = false ∧ c.status.err = false ∧
      c.magic = u.magic ∧ c.source = u.source.rewind ∧ c.sink = ⟨[], u.sink.port⟩ :=
  ⟨_, clearCompletes u, rfl, rfl, rfl, rfl, rfl, rfl⟩

/-- Settles O45: the stream that COMPRESS writes is one that DECOMPRESS reads, with the bytes of the source as words. -/
theorem compressionRoundTrips : Obligations.CompressionRoundTrips := by
  intro s u hopen hstable hempty hcount
  obtain ⟨t, _, hbody, _⟩ := compressBody_ok hstable hcount
  obtain ⟨l, r, eof, pad, stream, hsink, _, hstream, _⟩ := compressBody_stream hopen hempty hbody
  obtain ⟨c, hclear, hnoTree, hcopen, hcerr, hcmagic, hcsource, hcsink⟩ := exec_clear_fresh u
  obtain ⟨v, hv⟩ := exec_ends .decompress (s := c) fun htree => absurd (hnoTree.symm.trans htree) (by decide)
  have herr : t.status.err = s.status.err := ((bodyOf_around (i := .compress) (.inl hbody)).2 (by decide)).1
  refine ⟨complete t, c, v, stream, exec_ok rfl ((pre_iff .compress s).mpr hopen) hbody, herr,
    congrArg Sink.out hsink, congrArg Sink.port hsink, fun hbytes hlater hmagic => ⟨hclear, hv, ?_⟩⟩
  have hbits : bitsOfBytes c.source.rewind.bytes = bitsOfBytes stream := by
    rw [hcsource, (Source.stable_secondPass hlater).1, hbytes]
  obtain ⟨_, hexec, hstatus, _, _, _, _, _, _, _, _, hwrote⟩ := decompressReadsStream c l r _ eof _ hcopen
    (by rw [hbits, hstream.bits_eq, hcmagic, hmagic]) hstream.symbols_le hstream.leaves_le hstream.words_path
    hstream.eof_path
  cases hv.symm.trans hexec
  rw [coded_bytes, (Source.stable_secondPass (State.stable_iff.mp hstable)).1, hcsink] at hwrote
  rw [Sink.wroteAndClosed_eq hwrote, Sink.close_bytes, hstatus]
  exact ⟨hcerr, rfl, rfl, rfl⟩

/-! ## Streams cut short -/

theorem take_binOf_append (k v n : Nat) (rest : List Bool) :
    (binOf k v ++ rest).take (k + n) = binOf k v ++ rest.take n := by
  have htake := List.take_length_add_append (l₁ := binOf k v) (l₂ := rest) (i := n)
  rwa [binOf_length] at htake

section
variable {u : State} {l r : Tree} {words : List (Byte × List Bool)} {eof more bits : List Bool} {m : Nat}
  (h : IsStream u.magic (.node l r) words eof more bits)
include h

/-- DECOMPRESS of a stream cut inside the tree (47_macro R109). -/
theorem decompressBody_cutHeader (hcut : bitsOfBytes u.source.rewind.bytes = bits.take (32 + m))
    (hm : m < (Tree.node l r).serialize.length) : ∃ v, decompressBody u = .raise ⟨.malformedHeader, none⟩ v := by
  have hnodes := (Tree.node l r).nodes_leaves
  have hleaves := h.leaves_le
  have hbits : bitsOfBytes u.source.rewind.bytes = binOf 32 u.magic.toNat ++ (Tree.node l r).serialize.take m := by
    rw [hcut, h.bits_eq, take_binOf_append, List.take_append_of_le_length hm.le]
  have hmagic := readMagicBody_ok (s := decompressStart u) ((Source.rewind_rest u.source).trans hbits)
  have hrest : (u.source.rewind.consumed 32).rest = (Tree.node l r).serialize.take m := by
    rw [Source.consumed_rest, Source.rewind_rest, hbits, List.drop_left' (binOf_length _ _)]
  obtain ⟨q, hparse, _⟩ := parse_truncated (.node l r) (depth := 514) (p := ⟨u.source.rewind.consumed 32, [], 0, 0⟩)
    (by rw [hrest, List.take_append_drop]) (by simpa using hm) h.symbols_le (by simp [Config.nodeCap]; omega) rfl
    (by omega)
  exact ⟨_, decompressBody_of_tree hmagic (readTreeBody_error hparse)⟩

/-- DECOMPRESS of a stream cut inside the payload (47_macro R109). -/
theorem decompressBody_cutPayload
    (hcut : bitsOfBytes u.source.rewind.bytes = bits.take (32 + ((Tree.node l r).serialize.length + m)))
    (hm : m < (words.flatMap Prod.snd ++ eof).length) : ∃ v, decompressBody u = .raise ⟨.truncatedStream, none⟩ v := by
  obtain ⟨whole, last, missing, sym, hwhole, hpath, hmissing, htake⟩ := words_cut h.eof_path words
    ((words.flatMap Prod.snd ++ eof).take m) _ h.words_path (List.take_append_drop m _) (by simpa using hm)
  have hbits : bitsOfBytes u.source.rewind.bytes = binOf 32 u.magic.toNat ++
      ((Tree.node l r).serialize ++ (whole.flatMap Prod.snd ++ last)) := by
    rw [hcut, h.bits_eq, take_binOf_append, List.take_length_add_append, ← List.append_assoc (words.flatMap Prod.snd),
      List.take_append_of_le_length hm.le, htake]
  obtain ⟨_, _, hmagic, hheader, htree, hrest, _⟩ := decompress_header hbits h.symbols_le h.leaves_le
  exact ⟨_, decompressBody_of_decode hmagic hheader (decodeBody_truncated htree hwhole hpath hmissing hrest)⟩

end

/-- A command that has ended with DONE had its precondition, and its body ended well (40_control R82). -/
theorem exec_done {i : Instr} {s t : State} (h : exec i s = .next t) (hdone : t.status.done = true) :
    pre i s.status = true ∧ ∃ u, bodyOf i s = .ok u ∧ t = complete u := by
  rcases exec_next h with ⟨hp, hu⟩ | ⟨_, _, _, _, rfl⟩ | ⟨_, _, _, rfl⟩ | ⟨_, _, _, rfl⟩
  · exact ⟨hp, hu⟩
  all_goals cases hdone

/-- DECOMPRESS whose body raises ends with that error recorded (60_exceptions R112). -/
theorem exec_decompress_raise {u : State} {e : Raise} (hopen : u.status.sinkClosed = false)
    (h : ∃ v, decompressBody u = .raise e v) :
    ∃ v, exec .decompress u = .next v ∧ v.status.err = true ∧ v.err = e.record := by
  obtain ⟨v, hv⟩ := h
  exact ⟨_, exec_raise rfl ((pre_iff .decompress u).mpr hopen) hv, rfl, rfl⟩

/-- Settles O46: the cut lies in the magic, in the tree, or in the payload, for the pad is less than a byte. -/
theorem truncatedStreamsFail : Obligations.TruncatedStreamsFail := by
  intro s t u stream k hempty hexec hdone hout hk hopen hbytes hmagic
  obtain ⟨hpre, w, hbody, rfl⟩ := exec_done hexec hdone
  obtain ⟨l, r, eof, pad, stream', hsink, hpad, hstream, hhdr⟩ :=
    compressBody_stream ((pre_iff .compress s).mp hpre) hempty hbody
  have hsame : bitsOfBytes stream' = bitsOfBytes stream := (congrArg Sink.out hsink).symm.trans hout
  rw [hsame, ← hmagic] at hstream
  have hcut : bitsOfBytes u.source.rewind.bytes = (bitsOfBytes stream).take (8 * k) := by
    rw [hbytes, bitsOfBytes_take]
  have hlen := congrArg List.length hstream.bits_eq
  simp only [bitsOfBytes_length, List.length_append, binOf_length, List.length_replicate] at hlen
  rw [complete_hdrBits, hhdr]
  by_cases hshort : 8 * k < 32
  · obtain ⟨_, hexec, _⟩ := (decompressRejectsBadMagic u hopen).2.1 (by rw [hbytes, List.length_take]; omega)
    exact ⟨_, hexec, rfl, by rw [if_pos hshort]; rfl⟩
  obtain ⟨m, hm⟩ := Nat.exists_eq_add_of_le (Nat.le_of_not_lt hshort)
  rw [if_neg hshort]
  rw [hm] at hcut ⊢
  by_cases htree : m < (Tree.node l r).serialize.length
  · rw [if_pos (Nat.add_lt_add_left htree 32)]
    exact exec_decompress_raise hopen (decompressBody_cutHeader hstream hcut htree)
  · obtain ⟨m, rfl⟩ := Nat.exists_eq_add_of_le (Nat.le_of_not_lt htree)
    rw [if_neg (by omega)]
    exact exec_decompress_raise hopen
      (decompressBody_cutPayload hstream hcut (by rw [List.length_append]; omega))

end Sys2Proof.Machine

/-! # The error state, reset and the host's moves (60_exceptions R114–R120, 70_reset R121–R124) -/

namespace Sys2Proof.Machine

/-! ## Moves that reset the block, and moves that keep the error -/

/-- A move that resets does so in any state, and changes beyond that only the bus's answer (70_reset R121). -/
theorem hostStep_reset {a : HostAction} (ha : a.isReset = true) (s : State) :
    ∃ r, hostStep a s = .next { softReset s with reply := r } := by
  cases a with
  | pinReset => exact ⟨s.reply, rfl⟩
  | write off size strb v =>
    simp only [HostAction.isReset, Bool.and_eq_true, decide_eq_true_eq] at ha
    obtain ⟨⟨⟨rfl, rfl⟩, rfl⟩, hv⟩ := ha
    have write : busWrite s 0x004#16 v = (.ok, softReset s) := by
      rw [busWrite_reg (r := .ctrl) rfl rfl (.inr (by decide)) rfl v, writeReg, if_pos hv]
    exact ⟨.ok, by rw [hostStep, ← busWrite, write]⟩
  | read | bindSource | bindSink | takeSink | hold | run => cases ha

theorem SameError.refl (s : State) : SameError s s := ⟨rfl, rfl⟩

theorem sameError_letTimePass (s : State) : SameError s (letTimePass s) :=
  ⟨by rw [letTimePass_status], letTimePass_err s⟩

theorem sameError_sinkFlush (s : State) : SameError s s.sinkFlush := by
  unfold State.sinkFlush; split <;> exact .refl s

/-- Dropping a word or accepting one records no error (40_control R79). -/
theorem sameError_offerCommand (v : Word) (s : State) : SameError s (offerCommand v s) := by
  unfold offerCommand
  split
  · exact .refl s
  · split <;> exact .refl s

/-- A write that is no reset leaves ERR and its record alone: they are read-only (10_state R17, 20_memory R55). -/
theorem sameError_memWrite (s : State) {off : Offset} {size : AccessSize} {strb : BitVec 4} {v : Word}
    (hr : (HostAction.write off size strb v).isReset = false) : SameError s (memWrite s off size strb v).2 := by
  unfold memWrite
  cases ha : accessed s off size strb with
  | none => exact .refl s
  | some r =>
    obtain ⟨_, rfl, rfl, hreg, _⟩ := accessed_some ha
    simp only
    split
    · exact .refl s
    · cases r with
      | ctrl =>
        have hoff : off = 0x004#16 := BitVec.eq_of_toNat_eq (regAt_ctrl hreg)
        have hv : v.getLsbD 0 = false := by simpa [HostAction.isReset, hoff] using hr
        rw [writeReg, if_neg (Bool.eq_false_iff.mp hv)]
        exact .refl s
      | cmd => exact sameError_offerCommand v s
      | _ => exact .refl s

/-- The host can neither clear nor record an error but by a reset or by letting the block proceed. -/
theorem hostStep_sameError {s t : State} {a : HostAction} (ha : a ≠ .run) (hr : a.isReset = false)
    (h : hostStep a s = .next t) : SameError s t := by
  cases a with
  | read => cases h; exact .refl s
  | write => cases h; exact sameError_memWrite s hr
  | bindSource =>
    rw [hostStep] at h
    split at h
    · cases h
    · split at h
      · cases h; exact .refl s
      · cases h
  | bindSink | takeSink | hold => cases h; exact sameError_letTimePass s
  | pinReset => cases hr
  | run => exact absurd rfl ha

/-! ## The error state -/

theorem acceptedInError_iff {v : Word} :
    acceptedInError v = true ↔ v = 0x00000000#32 ∨ v = 0x00000001#32 ∨ v = 0x00000058#32 := by
  simp [acceptedInError, or_assoc]

/-- In the error state the block only runs NOP or FLUSH beside CLEAR, and both complete (60_exceptions R114). -/
theorem advance_sameError {s t : State} (hs : ErrorOk s) (he : s.status.err = true)
    (hc : s.seq ≠ .exec 0x00000001#32) (h : advance s = .next t) : SameError s t := by
  obtain ⟨_, _, _, haccepted, _⟩ := hs
  cases hq : s.seq with
  | init | idle => rw [advance, hq] at h; cases h; exact .refl s
  | exec v =>
    rcases acceptedInError_iff.mp (haccepted v hq he) with rfl | rfl | rfl
    · rw [advance_decoded (i := .nop) (by decide) hq, nopCompletes s] at h
      cases h; exact .refl s
    · exact absurd hq hc
    · have flush : exec .flush s = .next (complete s.sinkFlush) := exec_ok rfl rfl rfl
      rw [advance_decoded (i := .flush) (by decide) hq, flush] at h
      cases h; exact sameError_sinkFlush s

/-- With no move pending the block proceeds by itself (log entry 1). -/
theorem step_alone {s : State} (hh : s.host = []) : step s = advance s := by rw [step, hh]

/-- The host's moves come first, one a step (log entry 1). -/
theorem step_hostMove {s : State} {a : HostAction} {rest : List HostAction} (hh : s.host = a :: rest) :
    step s = hostStep a { s with host := rest } := by rw [step, hh]

/-- With no move pending or with the host's `run` in front, the step is the block's own. -/
theorem step_proceeds {s : State} (h : s.proceeds) : ∃ rest, step s = advance { s with host := rest } := by
  rcases h with hh | ⟨rest, hh⟩
  · exact ⟨s.host, step_alone hh⟩
  · exact ⟨rest, step_run hh⟩

/-- A step that neither runs CLEAR nor resets the block keeps the error (60_exceptions R114). -/
theorem step_sameError {s t : State} (hs : ErrorOk s) (he : s.status.err = true) (h : step s = .next t)
    (hclear : ¬ (s.proceeds ∧ s.seq = .exec 0x00000001#32))
    (hreset : ¬ ∃ a rest, s.host = a :: rest ∧ a.isReset = true) : SameError s t := by
  by_cases hp : s.proceeds
  · obtain ⟨rest, hstep⟩ := step_proceeds hp
    rw [hstep] at h
    exact advance_sameError (s := { s with host := rest }) hs he (fun hq => hclear ⟨hp, hq⟩) h
  · cases hh : s.host with
    | nil => exact absurd (.inl hh) hp
    | cons a rest =>
      rw [step_hostMove hh] at h
      exact hostStep_sameError (s := { s with host := rest }) (fun ha => hp (.inr ⟨rest, ha ▸ hh⟩))
        (Bool.eq_false_iff.mpr fun ha => hreset ⟨a, rest, hh, ha⟩) h

/-- Settles O9: CLEAR and a reset clear the record, the block's own steps run NOP or FLUSH beside CLEAR, and no other
move reaches ERR. -/
theorem errorStateIsSticky : Obligations.ErrorStateIsSticky := by
  intro s t hs he h
  refine ⟨fun hleave => ?_, fun hkeep => ?_⟩
  · rcases hleave with ⟨hp, hq⟩ | ⟨a, rest, hh, ha⟩
    · obtain ⟨rest, hstep⟩ := step_proceeds hp
      rw [hstep, advance_decoded (i := .clear) (by decide) (s := { s with host := rest }) hq, clearCompletes] at h
      cases h; exact ⟨rfl, rfl⟩
    · obtain ⟨r, hreset⟩ := hostStep_reset ha { s with host := rest }
      rw [step_hostMove hh, hreset] at h
      cases h; exact ⟨rfl, rfl⟩
  · obtain ⟨hclear, hreset⟩ := not_or.mp hkeep
    obtain ⟨herr, hrec⟩ := step_sameError hs he h hclear hreset
    exact ⟨herr.trans he, hrec⟩

/-! ## Reset -/

/-- Settles O57: the reset state field by field, and what the port has seen when the reset comes. -/
theorem resetFromAnyState : Obligations.ResetFromAnyState := by
  intro s
  have initEnds : ∀ r : State, r.host = [] → r.seq = .init → step r = .next { r with seq := .idle } := by
    intro r hh hq
    rw [step_alone hh, advance, hq]
  exact ⟨rfl, rfl, rfl, rfl, rfl, rfl, rfl, rfl, rfl, rfl, rfl, rfl, rfl, rfl, Source.rewind_rp s.source, rfl,
    portSeen_letTimePass s, rfl, rfl, initEnds⟩

/-! ## The host's moves -/

/-- The passing of time is no event in the block: it only moves the model's own counts (log entry 9). -/
theorem letTimePass_eq (s : State) :
    letTimePass s = { s with taken := (letTimePass s).taken, draws := (letTimePass s).draws } := by
  unfold letTimePass; split <;> rfl

theorem letTimePass_idle {s : State} (h : s.busy = false) : letTimePass s = s := by
  rw [letTimePass, seq_of_not_busy h]

/-- A host that binds a source while BUSY = 1 has no move in the model (log entry 13). -/
theorem hostStep_bindSource_busy {s : State} (hb : s.busy = true) (bytes : List Byte) (later : List (List Byte)) :
    hostStep (.bindSource bytes later) s = .fault .sourceBoundWhileBusy := by
  rw [hostStep, if_pos hb]

/-- No source, now or at a later pass, has 2^64 bits or more (20_memory R43). -/
theorem hostStep_bindSource_tooLong {s : State} (hb : s.busy = false) {bytes : List Byte} {later : List (List Byte)}
    (hf : (sourceFits bytes && later.all sourceFits) = false) :
    hostStep (.bindSource bytes later) s = .fault .sourceTooLong := by
  rw [hostStep, if_neg (Bool.eq_false_iff.mp hb), if_neg (Bool.eq_false_iff.mp hf)]

theorem hostStep_bindSource_fits {s : State} (hb : s.busy = false) {bytes : List Byte} {later : List (List Byte)}
    (h1 : sourceFits bytes = true) (h2 : later.all sourceFits = true) :
    hostStep (.bindSource bytes later) s = .next (bindSource s bytes later) := by
  rw [hostStep, if_neg (Bool.eq_false_iff.mp hb), if_pos (by rw [h1, h2]; rfl)]

/-- Whatever the block does when it proceeds, it ends in IDLE, and the host's moves stay (40_control R82). -/
theorem advance_idle {s t : State} (h : advance s = .next t) : t.seq = .idle ∧ t.host = s.host := by
  cases hq : s.seq with
  | init => rw [advance, hq] at h; cases h; exact ⟨rfl, rfl⟩
  | idle => rw [advance, hq] at h; cases h; exact ⟨hq, rfl⟩
  | exec w =>
    cases hd : decode w with
    | ok i =>
      rw [advance_decoded hd hq] at h
      obtain ⟨hidle, _⟩ := commandEndsOneWay i s t h
      obtain ⟨⟨_, _, hhost, _⟩, _⟩ := exec_around h
      exact ⟨hidle, hhost⟩
    | error e =>
      rw [advance_exec hq, runCommand_illegal (isIllegal_iff_error.mpr ⟨e, hd⟩)] at h
      cases h; exact ⟨rfl, rfl⟩

/-- STATUS can be read at any time (20_memory R55). -/
theorem busRead_status (s : State) : busRead s 0x00C#16 = .data s.statusWord :=
  busRead_reg (r := .status) rfl rfl (.inr (by decide))

/-- BUSY is bit 0 of STATUS (10_state R21). -/
theorem statusWord_busy (s : State) : s.statusWord.getLsbD 0 = s.busy := by
  rw [statusWord_fields, BitVec.getLsbD_append]
  simp

/-- The window is 64 KiB aligned, so an address in it names its low 16 bits (20_memory R44). -/
theorem busOffset_window (off : Offset) : busOffset (Config.regBase + off.toNat) = some off := by
  have hlt := off.isLt
  have low : BitVec.ofNat 16 (Config.regBase + off.toNat) = off := by
    apply BitVec.eq_of_toNat_eq
    rw [BitVec.toNat_ofNat, Config.regBase]
    omega
  rw [busOffset, if_pos (by omega), low]

/-- Settles O59: one clause per move, each by what `hostStep` answers where the move has been taken off. -/
theorem hostMoves : Obligations.HostMoves := by
  refine ⟨fun s off size strb v rest hh => step_hostMove hh, ?hold, ?bindSource, ?bindSink, ?takeSink, ?readStatus,
    ?run, ?wait, busOffset_window⟩
  case hold =>
    intro s rest hh
    refine ⟨letTimePass { s with host := rest }, step_hostMove hh, taken_letTimePass { s with host := rest },
      fun hb => ?_, letTimePass_eq { s with host := rest }⟩
    rw [letTimePass_idle (s := { s with host := rest }) hb]
  case bindSource =>
    intro s bytes later rest hh
    rw [step_hostMove hh]
    exact ⟨fun hb => hostStep_bindSource_busy (s := { s with host := rest }) hb bytes later,
      fun hb hf => hostStep_bindSource_tooLong (s := { s with host := rest }) hb hf,
      fun hb h1 h2 => ⟨_, hostStep_bindSource_fits (s := { s with host := rest }) hb h1 h2,
        bindSource_rp { s with host := rest } bytes later⟩⟩
  case bindSink =>
    intro s rest hh
    refine ⟨bindSink { s with host := rest }, step_hostMove hh, (portSeen_bindSink _).2,
      taken_letTimePass { s with host := rest }, ?_⟩
    rw [bindSink, letTimePass_eq]
  case takeSink =>
    intro s rest hh
    obtain ⟨new, hseen, hfirst, hleast, _, hidle⟩ := portSeen_letTimePass { s with host := rest }
    have pending : pendingBytes { s with host := rest } = pendingBytes s := pendingBytes_congr rfl
    rw [pending] at hfirst hleast
    refine ⟨_, new, step_hostMove hh, taken_letTimePass { s with host := rest }, ?_, hfirst, hleast, hidle⟩
    rw [sinkSeen, hseen, letTimePass_sinkFrom, letTimePass_eq]
  case readStatus =>
    intro s rest hh
    refine ⟨?_, statusWord_busy s⟩
    rw [step_hostMove hh, hostRd, hostStep, ← busRead, busRead_status]
    rfl
  case run =>
    intro s t rest hh h
    rw [step_run hh] at h
    exact advance_idle h
  case wait =>
    intro s hh hq
    rw [step_alone hh, advance, hq]

end Sys2Proof.Machine
